-- ==== Sys2Proof/Word.lean ====
section
/-! DEFINITION. The word types of the descriptor ring engine (00_scope.md R8, R11): XLEN = 32. -/

namespace Sys2Proof

/-- A 32-bit register or descriptor word. -/
abbrev Word := BitVec 32

/-- A 32-bit byte address (R8, R60). -/
abbrev Addr := BitVec 32

/-- A byte of memory or of a frame. -/
abbrev Byte := BitVec 8

/-- Width of a CPU access (R64, R65). -/
inductive Width where
  | byte
  | half
  | word
  deriving DecidableEq, Repr

/-- The number of bytes an access of this width names. -/
def Width.bytes : Width → Nat
  | .byte => 1
  | .half => 2
  | .word => 4

end Sys2Proof
end

