-- ==== Sys2Proof/Syntax.lean ====
section
/-! DEFINITION. The twelve commands, one constructor per row of spec/opcode_table.json (30_encoding.md R107). -/

namespace Sys2Proof

/-- A command of the block. Only TX_SEND has an operand: its length LEN, an unsigned number (R108). -/
inductive Instr where
  /-- RX_START (R140) -/
  | rxStart
  /-- RX_RECV_NEXT (R142) -/
  | rxRecvNext
  /-- RX_RELEASE (R147) -/
  | rxRelease
  /-- RX_RUNNING_STATE (R149) -/
  | rxRunningState
  /-- RX_IS_RUNNING (R150) -/
  | rxIsRunning
  /-- TX_START (R170) -/
  | txStart
  /-- TX_SEND LEN (R172) -/
  | txSend (len : Nat)
  /-- TX_COMMIT (R175) -/
  | txCommit
  /-- TX_DEMAND_POLL (R177) -/
  | txDemandPoll
  /-- TX_IS_RUNNING (R179) -/
  | txIsRunning
  /-- IRQ_ENABLE (R241) -/
  | irqEnable
  /-- IRQ_HANDLE (R243) -/
  | irqHandle
  deriving DecidableEq, Repr

end Sys2Proof
end

