-- ==== Sys2Proof/WellFormed.lean ====
section
/-! DEFINITION. Which terms of Instr a command word can carry (30_encoding.md R106, R108). -/

namespace Sys2Proof

/-- A command is well formed when its operand fits its field: LEN is 0..65535 (R108); no other command has one. -/
abbrev Instr.WellFormed : Instr → Prop
  | .txSend len => len < 65536
  | .rxStart | .rxRecvNext | .rxRelease | .rxRunningState | .rxIsRunning => True
  | .txStart | .txCommit | .txDemandPoll | .txIsRunning | .irqEnable | .irqHandle => True

/-- The same check as a Bool, for evaluation. -/
def Instr.wellFormed (i : Instr) : Bool :=
  match i with
  | .txSend len => decide (len < 65536)
  | .rxStart | .rxRecvNext | .rxRelease | .rxRunningState | .rxIsRunning => true
  | .txStart | .txCommit | .txDemandPoll | .txIsRunning | .irqEnable | .irqHandle => true

end Sys2Proof
end

