-- ==== Sys2Proof/Decode.lean ====
section
/-! DEFINITION. The command word (30_encoding.md R105 to R110, R118): decoding, total over every word, and encoding. -/

namespace Sys2Proof

/-- Why a word is Illegal (R109, R251), by name. -/
inductive Illegal where
  /-- OP is not in the table of R107 -/
  | unlistedOpcode (op : BitVec 8)
  /-- the RSV field is not 0 -/
  | reservedField (rsv : BitVec 8)
  /-- IMM is not 0 on a command without operand -/
  | immediateNotZero (op : BitVec 8) (imm : BitVec 16)
  /-- not one 32-bit word (R110): bytes were `n` in number -/
  | notOneWord (n : Nat)
  deriving DecidableEq, Repr

/-- The value of `Decode` (R109): a command, or Illegal. -/
inductive Decoded where
  | command (i : Instr)
  | illegal (why : Illegal)
  deriving DecidableEq, Repr

/-- OP, bits 31:24 (R106). -/
def opField (v : Word) : BitVec 8 := v.extractLsb' 24 8

/-- RSV, bits 23:16 (R106). -/
def rsvField (v : Word) : BitVec 8 := v.extractLsb' 16 8

/-- IMM, bits 15:0 (R106). -/
def immField (v : Word) : BitVec 16 := v.extractLsb' 0 16

/-- The table of R107: the command an OP names, with LEN = zext(IMM) for TX_SEND (R108). -/
def commandOf (op : BitVec 8) (imm : BitVec 16) : Option Instr :=
  match op.toNat with
  | 0x01 => some .rxStart
  | 0x02 => some .rxRecvNext
  | 0x03 => some .rxRelease
  | 0x04 => some .rxRunningState
  | 0x05 => some .rxIsRunning
  | 0x11 => some .txStart
  | 0x12 => some (.txSend imm.toNat)
  | 0x13 => some .txCommit
  | 0x14 => some .txDemandPoll
  | 0x15 => some .txIsRunning
  | 0x21 => some .irqEnable
  | 0x22 => some .irqHandle
  | _ => none

/-- Decode (R109), in the order the rule checks. -/
def decode (v : Word) : Decoded :=
  match commandOf (opField v) (immField v) with
  | none => .illegal (.unlistedOpcode (opField v))
  | some i =>
    if rsvField v ≠ 0#8 then .illegal (.reservedField (rsvField v))
    else if opField v ≠ 0x12#8 ∧ immField v ≠ 0#16 then .illegal (.immediateNotZero (opField v) (immField v))
    else .command i

/-- The four bytes of a word in little-endian order (R63). -/
def wordBytes (v : Word) : List Byte :=
  [v.extractLsb' 0 8, v.extractLsb' 8 8, v.extractLsb' 16 8, v.extractLsb' 24 8]

/-- The word of four little-endian bytes (R63). -/
def wordOfBytes (b0 b1 b2 b3 : Byte) : Word := b3 ++ b2 ++ b1 ++ b0

/-- Decode on bytes as the port's register holds them: a command is exactly one 32-bit word (R110). -/
def decodeBytes : List Byte → Decoded
  | [b0, b1, b2, b3] => decode (wordOfBytes b0 b1 b2 b3)
  | bytes => .illegal (.notOneWord bytes.length)

/-- The OP of a command (R107). -/
def opcode : Instr → BitVec 8
  | .rxStart => 0x01#8
  | .rxRecvNext => 0x02#8
  | .rxRelease => 0x03#8
  | .rxRunningState => 0x04#8
  | .rxIsRunning => 0x05#8
  | .txStart => 0x11#8
  | .txSend _ => 0x12#8
  | .txCommit => 0x13#8
  | .txDemandPoll => 0x14#8
  | .txIsRunning => 0x15#8
  | .irqEnable => 0x21#8
  | .irqHandle => 0x22#8

/-- The IMM of a command (R106, R108). -/
def immediate : Instr → BitVec 16
  | .txSend len => BitVec.ofNat 16 len
  | .rxStart | .rxRecvNext | .rxRelease | .rxRunningState | .rxIsRunning => 0#16
  | .txStart | .txCommit | .txDemandPoll | .txIsRunning | .irqEnable | .irqHandle => 0#16

/-- The word of a command (R106, R118). -/
def encode (i : Instr) : Word := opcode i ++ 0#8 ++ immediate i

/-- What the decoder reads from the `nbits`-bit number `w` of the opcode table, the bits above `nbits` being 0. -/
def decodeTableWord (nbits w : Nat) : Option Instr :=
  if nbits ≤ 32 then
    match decodeBytes (wordBytes (BitVec.ofNat 32 (w % 2 ^ nbits))) with
    | .command i => some i
    | .illegal _ => none
  else none

end Sys2Proof
end

