-- ==== Sys2Proof/Config.lean ====
section
/-! DEFINITION. The parameters of the model (00_scope.md R8, 10_state.md R43), the moves its agents and environment
can make (R7, R286), and the free values: opaque constants nothing in Lean can evaluate. -/

namespace Sys2Proof

/-- Where one ring entry lies: `desc_addr(r,i)` and `buf_addr(r,i)` (R8). -/
structure EntryAddr where
  desc : Addr
  buf : Addr
  deriving DecidableEq, Repr

/-- A field of a descriptor word: its lowest bit and its number of bits (R11). -/
structure BitRange where
  lo : Nat
  width : Nat
  deriving DecidableEq, Repr

/-- Where the fields of an Rx descriptor lie: bit positions in word 0, and of word 1 the last three (R90, R92). -/
structure RxLayout where
  /-- OWN -/
  own : Nat
  /-- FL -/
  frameLength : BitRange
  /-- FS -/
  firstSegment : Nat
  /-- LS -/
  lastSegment : Nat
  /-- the status bits that are a frame error (R91) -/
  errors : List Nat
  /-- the other status bits a deposit draws (R94) -/
  drawn : List Nat
  /-- RER, word 1 -/
  ringEnd : Nat
  /-- RCH, word 1 -/
  chained : Nat
  /-- RBS1, word 1 -/
  bufferSize : BitRange
  deriving DecidableEq, Repr

/-- Where the fields of a Tx descriptor lie: bit positions in word 0, and of word 1 the last (R95, R97). -/
structure TxLayout where
  /-- OWN -/
  own : Nat
  /-- IC -/
  interrupt : Nat
  /-- LS -/
  lastSegment : Nat
  /-- FS -/
  firstSegment : Nat
  /-- TER -/
  ringEnd : Nat
  /-- TCH -/
  chained : Nat
  /-- the control bits always written 0, which a close keeps (R96) -/
  zeroControl : List Nat
  /-- the status bits a close writes (R96) -/
  status : List Nat
  /-- TBS1, word 1 -/
  bufferSize : BitRange
  deriving DecidableEq, Repr

/-- The parameter DescLayout (R8, U19): bit positions of the descriptor fields. -/
structure DescLayout where
  rx : RxLayout
  tx : TxLayout
  deriving DecidableEq, Repr

/-- The default of DescLayout: the positions of R90, R92, R95 and R97. -/
def DescLayout.default : DescLayout where
  rx := {
    own := 31
    frameLength := { lo := 16, width := 14 }
    firstSegment := 9
    lastSegment := 8
    errors := [15, 14, 12, 11, 6, 4, 3, 1]
    drawn := [30, 13, 10, 7, 5, 2, 0]
    ringEnd := 15
    chained := 14
    bufferSize := { lo := 0, width := 13 } }
  tx := {
    own := 31
    interrupt := 30
    lastSegment := 29
    firstSegment := 28
    ringEnd := 21
    chained := 20
    zeroControl := [27, 26, 25, 24, 23, 22]
    status := List.range 18
    bufferSize := { lo := 0, width := 13 } }

/-- The parameters of R8. NR and NT are the lengths of the two entry lists. -/
structure Config where
  /-- the Rx entries, entry 0 first: NR = rx.length -/
  rx : List EntryAddr
  /-- the Tx entries, entry 0 first: NT = tx.length -/
  tx : List EntryAddr
  /-- CAP, the buffer capacity in bytes of every entry -/
  cap : Nat
  /-- DRE_BASE, the address of the command port -/
  dreBase : Addr
  /-- DescLayout, the bit positions of the descriptor fields -/
  layout : DescLayout
  /-- SOFT_RESET_BOUND: `none` is the unbounded wait (R283) -/
  softResetBound : Option Nat
  deriving DecidableEq, Repr

/-- A ring of `n` entries laid out as R10 says: descriptor at `base + i*0x604`, buffer 0x10 above it. -/
def Config.arrayRing (base : Addr) (n : Nat) : List EntryAddr :=
  (List.range n).map fun i =>
    { desc := base + BitVec.ofNat 32 (i * 0x604), buf := base + BitVec.ofNat 32 (i * 0x604 + 0x10) }

/-- R10's default layout with the given ring sizes. DESIGN CHOICE (log 1): the spec fixes no placement. -/
def Config.layoutOf (nr nt : Nat) : Config where
  rx := Config.arrayRing 0x20000000#32 nr
  tx := Config.arrayRing 0x20004000#32 nt
  cap := 1522
  dreBase := 0x40029000#32
  layout := DescLayout.default
  softResetBound := none

/-- R10's default layout at the source's test size NR = NT = 4. -/
def Config.default : Config := Config.layoutOf 4 4

/-- An access of the CPU agent to the shared address space (R60, R65). -/
inductive CpuAccess where
  | read (addr : Addr) (width : Width)
  | write (addr : Addr) (width : Width) (value : Word)
  deriving DecidableEq, Repr

/-- A step of a DMA agent with the inputs it draws (R202, R205, R212, R214). -/
inductive DmaMove where
  | rxFetch
  | rxDeposit (frame : List Byte) (status : Word)
  | txFetch
  | txClose (status : Word)
  deriving DecidableEq, Repr, Inhabited

/-- What the platform and the driver facade do about the DMA soft reset (R281, R283): request it, and read its
completion bit. -/
inductive BootMove where
  | request
  | check (complete : Bool)
  deriving DecidableEq, Repr

/-- One move of one agent (R7) or of the environment (R286). -/
inductive Move where
  | cpu (access : CpuAccess)
  | dma (move : DmaMove)
  | boot (move : BootMove)
  deriving DecidableEq, Repr

/-- FREE VALUE (log 6): what a byte of memory that nothing has written holds (R42, U6: any value). -/
opaque Config.powerOnByte : Nat → Byte

/-- Everything a DMA agent's step on a raced entry could write (R69, log 18): bytes anywhere in memory, the agent's
process state and cursor, its latch, and the frames it emits. -/
structure RacedStep where
  writes : List (Addr × Byte)
  process : BitVec 3
  cursor : Nat
  latch : Bool
  frames : List (List Byte)
  deriving DecidableEq, Repr, Inhabited

/-- FREE VALUE (log 18): what a DMA step on a raced entry does (R69: unconstrained). -/
opaque Config.racedStep : Nat → RacedStep

/-- FREE VALUE (log 7, log 8, log 18): a byte under no law: of a racing CPU read, of a read of a result register before the
first command, of memory that a racing write touched (R22, R69). -/
opaque Config.freeByte : Nat → Byte

/-- FREE VALUE (log 3): which DMA move, with which draws, is taken when the agenda names none (R7: the order is
free). -/
opaque Config.freeMove : Nat → DmaMove

end Sys2Proof
end

