-- ==== Sys2Proof/Machine/Descriptor.lean ====
section
/-! DEFINITION. The descriptor words (30_encoding.md R90 to R99), their fields at the places the parameter DescLayout gives
(log 4). Every other file names these fields and constants only. -/

namespace Sys2Proof.Machine

/-! ### Fields -/

/-- The word with bit `n` alone set. -/
def bitMask (n : Nat) : Word := 1#32 <<< n

/-- The word with the listed bits set. -/
def maskOf (bits : List Nat) : Word := bits.foldr (fun n m => bitMask n ||| m) 0#32

/-- The number in a field of a word. -/
def fieldOf (f : BitRange) (w : Word) : Nat := (w.extractLsb' f.lo f.width).toNat

/-- The word with `v` in a field and 0 elsewhere, for a `v` that fits the field. -/
def fieldAt (f : BitRange) (v : Nat) : Word := BitVec.ofNat 32 v <<< f.lo

/-- The bits of a field. -/
def rangeBits (f : BitRange) : List Nat := (List.range f.width).map (f.lo + ·)

/-! ### Receive descriptor -/

/-- FrameLen(w), FL of Rx word 0 (R91). -/
def frameLen (c : Config) (w0 : Word) : Nat := fieldOf c.layout.rx.frameLength w0

/-- RX_ERR_MASK (R91). -/
def rxErrMask (c : Config) : Word := maskOf c.layout.rx.errors

/-- FrameError(w) (R91). -/
def frameError (c : Config) (w0 : Word) : Bool := (w0 &&& rxErrMask c) != 0#32

/-- WholeFrame(w): FS and LS both set (R91). -/
def wholeFrame (c : Config) (w0 : Word) : Bool :=
  w0.getLsbD c.layout.rx.firstSegment && w0.getLsbD c.layout.rx.lastSegment

/-- RxValid(w) (R143). -/
def rxValid (c : Config) (w0 : Word) : Bool :=
  !frameError c w0 && wholeFrame c w0 && decide (1 ≤ frameLen c w0 ∧ frameLen c w0 ≤ c.cap)

/-- RX_W0_DMA: OWN = 1, every status and length bit 0 (R94). -/
def rxW0Dma (c : Config) : Word := bitMask c.layout.rx.own

/-- RX_W1(i) (R94): RCH, RBS1 = CAP, and RER on the last of `n` entries. -/
def rxW1 (c : Config) (i : Nat) : Word :=
  bitMask c.layout.rx.chained ||| fieldAt c.layout.rx.bufferSize c.cap |||
    (if i + 1 = c.rx.length then bitMask c.layout.rx.ringEnd else 0#32)

/-- RX_DRAW_MASK: the status bits a deposit takes from its draw (R94). -/
def rxDrawMask (c : Config) : Word := maskOf (c.layout.rx.errors ++ c.layout.rx.drawn)

/-- The largest length FL holds (R205): 0x3FFF in the default layout. -/
def flMax (c : Config) : Nat := 2 ^ c.layout.rx.frameLength.width - 1

/-- Rx word 0 at a deposit of `len` bytes with status draw `st` (R205): FS = LS = 1, OWN = 0. -/
def rxDepositW0 (c : Config) (len : Nat) (st : Word) : Word :=
  (st &&& rxDrawMask c) ||| fieldAt c.layout.rx.frameLength (min len (flMax c)) |||
    maskOf [c.layout.rx.firstSegment, c.layout.rx.lastSegment]

/-! ### Transmit descriptor -/

/-- The control bits a commit and a start write 1 in every entry: IC, LS, FS, TCH (R96). -/
def txSetBits (c : Config) : List Nat :=
  [c.layout.tx.interrupt, c.layout.tx.lastSegment, c.layout.tx.firstSegment, c.layout.tx.chained]

/-- TX_CTRL(i): IC, LS, FS, TCH, and TER on the last entry (R96). -/
def txCtrl (c : Config) (i : Nat) : Word :=
  maskOf (txSetBits c) ||| (if i + 1 = c.tx.length then bitMask c.layout.tx.ringEnd else 0#32)

/-- TX_OWN (R96). -/
def txOwn (c : Config) : Word := bitMask c.layout.tx.own

/-- The control bits (R95, R96). -/
def txControlBits (c : Config) : List Nat := c.layout.tx.ringEnd :: (txSetBits c ++ c.layout.tx.zeroControl)

/-- TX_KEEP_MASK: the control bits a close preserves (R96). -/
def txKeepMask (c : Config) : Word := maskOf (txControlBits c)

/-- TX_STATUS_MASK: the status bits a close writes (R96). -/
def txStatusMask (c : Config) : Word := maskOf c.layout.tx.status

/-- IC, interrupt on completion (R95). -/
def icBit (c : Config) (w0 : Word) : Bool := w0.getLsbD c.layout.tx.interrupt

/-- TxLen(w1), TBS1 (R97). -/
def txLen (c : Config) (w1 : Word) : Nat := fieldOf c.layout.tx.bufferSize w1

/-- Tx word 1 at a commit of `len` bytes: TBS1 = LEN, every other bit 0 (R175). -/
def txW1 (c : Config) (len : Nat) : Word := fieldAt c.layout.tx.bufferSize len

/-- Tx word 0 at a close (R214): control kept, status drawn, OWN = 0. -/
def txCloseW0 (c : Config) (w0 st : Word) : Word := (w0 &&& txKeepMask c) ||| (st &&& txStatusMask c)

/-! ### Which layouts have a meaning -/

/-- The bits of Rx word 0 that have a use. -/
def rxWord0Bits (l : RxLayout) : List Nat :=
  l.own :: l.firstSegment :: l.lastSegment :: (l.errors ++ l.drawn ++ rangeBits l.frameLength)

/-- The bits of Rx word 1 that have a use. -/
def rxWord1Bits (l : RxLayout) : List Nat := l.ringEnd :: l.chained :: rangeBits l.bufferSize

/-- The bits of Tx word 0 that have a use. -/
def txWord0Bits (c : Config) : List Nat := c.layout.tx.own :: (txControlBits c ++ c.layout.tx.status)

/-- The listed bits lie in a 32-bit word and no two are the same. -/
def bitsOk (bits : List Nat) : Bool := bits.all (fun b => decide (b < 32)) && decide bits.Nodup

/-- The fields of a descriptor word lie inside it and share no bit, CAP fits RBS1 and TBS1 (R9), and FL can report a length
above CAP (R205). DESIGN CHOICE (log 4): the spec bounds its default layout only. -/
def layoutOk (c : Config) : Bool :=
  bitsOk (rxWord0Bits c.layout.rx) && bitsOk (rxWord1Bits c.layout.rx) && bitsOk (txWord0Bits c) &&
    bitsOk (rangeBits c.layout.tx.bufferSize) &&
    decide (c.cap < 2 ^ c.layout.rx.bufferSize.width ∧ c.cap < 2 ^ c.layout.tx.bufferSize.width ∧ c.cap < flMax c)

end Sys2Proof.Machine
end

