-- ==== Sys2Proof/Machine/State.lean ====
section
/-! DEFINITION. The architectural state (10_state.md), how a step can stop, and the state after reset (R42, R280). -/

namespace Sys2Proof.Machine

/-- The two rings. -/
inductive Ring where
  | rx
  | tx
  deriving DecidableEq, Repr

/-- An open window (i, len): entry i, bytes below len (R34, R35). -/
structure Window where
  index : Nat
  len : Nat
  deriving DecidableEq, Repr

/-- DMAOMR's two fields (R26). -/
structure Dmaomr where
  sr : Bool
  st : Bool
  deriving DecidableEq, Repr

/-- DMASR's stored fields (R27); NIS is computed, not stored. -/
structure Dmasr where
  ts : Bool
  rs : Bool
  rps : BitVec 3
  tps : BitVec 3
  deriving DecidableEq, Repr

/-- DMAIER's fields (R28). -/
structure Dmaier where
  tie : Bool
  rie : Bool
  nise : Bool
  deriving DecidableEq, Repr

/-- The output event `TxFrame(i, bytes)` (R214). -/
structure TxFrame where
  entry : Nat
  bytes : List Byte
  deriving DecidableEq, Repr

/-- One value the CPU has read (R285). -/
structure CpuRead where
  addr : Addr
  width : Width
  value : Word
  /-- the bytes of it that lie in the Rx window open then, lowest address first -/
  rxBytes : List Byte := []
  deriving DecidableEq, Repr

/-- The facade's soft-reset wait (R283): over, waiting after `checks` unsuccessful checks, or given up. -/
inductive Boot where
  | done
  | waiting (checks : Nat)
  | failed
  deriving DecidableEq, Repr

/-- Which result RES holds: none yet, one the CPU has not read, one it has read (R22, R23, R285). -/
inductive ResUse where
  | never
  | unread
  | read
  deriving DecidableEq, Repr

/-- A fault the spec records in the state, where no later step clears it (R255, log 18). None of them is a trap of the CPU
or ends the run. -/
inductive Recorded where
  /-- RaceOnRing(r, i) (R69, R255): recorded by a CPU write of `width` bytes at `addr`, a byte of which lies in a
  descriptor or in a buffer byte outside the open Tx window. -/
  | raceOnRing (ring : Ring) (index : Nat) (addr : Addr) (width : Width)
  /-- ResultBeforeCommand (R22, R23, R255): recorded by a CPU read of RES or RES_ADDR before the first command. -/
  | resultBeforeCommand
  deriving DecidableEq, Repr

/-- The bytes written so far, by address (R60): addresses strictly rising; an address not listed holds no value yet. -/
abbrev Memory := List Host.Cell

/-- The state of the block, its memory, and the model's own fields (INVENTORY.md, State). -/
structure State where
  /-- the parameters (R8, R43), which no step changes (log 1) -/
  cfg : Config
  /-- RES (R22) -/
  res : Word
  /-- RES_ADDR (R23) -/
  resAddr : Addr
  /-- whether RES and RES_ADDR hold a result, and whether the CPU has read it (R22, R23, R285) -/
  resUse : ResUse
  /-- Rx descriptor list base address (R24) -/
  dmardlar : Addr
  /-- Tx descriptor list base address (R25) -/
  dmatdlar : Addr
  dmaomr : Dmaomr
  dmasr : Dmasr
  dmaier : Dmaier
  /-- the Rx software cursor (R30) -/
  rxNext : Nat
  /-- the Tx software cursor (R31) -/
  txNext : Nat
  /-- the Rx DMA cursor (R32) -/
  rxDma : Nat
  /-- the Tx DMA cursor (R33) -/
  txDma : Nat
  /-- the open Rx window (R34) -/
  rxToken : Option Window
  /-- the open Tx window (R35) -/
  txToken : Option Window
  /-- the shared memory (R60) -/
  mem : Memory
  /-- the output events, oldest first (R12, R285) -/
  events : List TxFrame
  /-- the values the CPU has read, oldest first (R285, log 13) -/
  reads : List CpuRead
  /-- the faults recorded, oldest first (R255, log 18) -/
  faults : List Recorded
  /-- the CPU agent stands at a port access it has no step for, so that its program goes no further (R65, log 9) -/
  cpuStuck : Bool
  /-- the facade's soft-reset wait (R283, log 10) -/
  boot : Boot
  /-- the model's own: the moves still to be taken, the next one first; the CPU's wait while it has no step (R7, log 2) -/
  agenda : List Move
  /-- the model's own: how many free values have been drawn (log 3, log 7) -/
  draws : Nat
  deriving DecidableEq, Repr

/-- Why a step stops. The faults the spec records in the state do not stop it: they are `Recorded`. -/
inductive Fault where
  /-- Raised by a CPU access that runs past the last byte of the address space (R60). Safe: it stops (log 14). -/
  | outsideAddressSpace
  deriving DecidableEq, Repr

/-- Why a step is refused. -/
inductive Refusal where
  /-- An instruction without a meaning, raised by exec's arms only. No arm uses it now. Safe. -/
  | notModelled (mnemonic : String)
  /-- A configuration outside WF(cfg) has no run (R8, R9, R255): raised by step. Safe. -/
  | configRefused
  /-- An assembler line WRITEBUF, READBUF or their pseudo-instructions names a byte of a window that is not open
  (R117): raised by the assembler's lines only, never by step. Safe (log 12). -/
  | noOpenWindow
  deriving DecidableEq, Repr

/-- What a step, a command or a CPU access answers. -/
abbrev Result := Host.Outcome State Fault Refusal

/-- A command has been executed since reset (R22, R286). -/
def State.commandDone (s : State) : Bool := decide (s.resUse ≠ .never)

/-- The state of R42 and R280 for the parameters `c`. RES and RES_ADDR are unspecified there: 0 is a DESIGN CHOICE
(log 8), and no read gives it before the first command. Memory lists nothing: any value (log 6). -/
def State.resetFor (c : Config) : State where
  cfg := c
  res := 0#32
  resAddr := 0#32
  resUse := .never
  dmardlar := 0#32
  dmatdlar := 0#32
  dmaomr := { sr := false, st := false }
  dmasr := { ts := false, rs := false, rps := 0b000#3, tps := 0b000#3 }
  dmaier := { tie := false, rie := false, nise := false }
  rxNext := 0
  txNext := 0
  rxDma := 0
  txDma := 0
  rxToken := none
  txToken := none
  mem := []
  events := []
  reads := []
  faults := []
  cpuStuck := false
  boot := .done
  agenda := []
  draws := 0

/-- The machine right after reset (R280), in the layout of R10 (log 1). -/
def State.reset : State := State.resetFor Config.default

end Sys2Proof.Machine
end

