-- ==== Sys2Proof/Machine/Regions.lean ====
section
/-! DEFINITION. Where the rings and the command port lie (00_scope.md R8, R9; 20_memory.md R60), and WF(cfg). -/

namespace Sys2Proof.Machine

/-- The entries of a ring. -/
def ringOf (c : Config) : Ring → List EntryAddr
  | .rx => c.rx
  | .tx => c.tx

/-- N_r (R12): NR or NT. -/
def ringSize (c : Config) (r : Ring) : Nat := (ringOf c r).length

/-- `desc_addr(r,i)` (R8). An index outside the ring, which no run reaches
without a recorded race (log 18), gives 0 (log 11). -/
def descAddr (c : Config) (r : Ring) (i : Nat) : Addr :=
  match (ringOf c r)[i]? with
  | some e => e.desc
  | none => 0#32

/-- `buf_addr(r,i)` (R8). An index outside the ring, which no run reaches
without a recorded race (log 18), gives 0 (log 11). -/
def bufAddr (c : Config) (r : Ring) (i : Nat) : Addr :=
  match (ringOf c r)[i]? with
  | some e => e.buf
  | none => 0#32

/-- `next_r(i) = (i + 1) mod N_r` (R12). -/
def nextIndex (c : Config) (r : Ring) (i : Nat) : Nat := (i + 1) % ringSize c r

/-- Bytes of one descriptor (R8). -/
def descBytes : Nat := 16

/-- Bytes of the command port (R9). -/
def portBytes : Nat := 12

/-- A region of the address space: first byte and length. -/
structure Region where
  start : Nat
  len : Nat
  deriving DecidableEq, Repr

/-- A region inside [0, 2^32) with a 4-aligned start (R9). -/
def regionOk (x : Region) : Bool := decide (x.start % 4 = 0 ∧ x.start + x.len ≤ 2 ^ 32)

/-- Two regions share no byte (R9). -/
def disjointRegions (x y : Region) : Bool := decide (x.start + x.len ≤ y.start ∨ y.start + y.len ≤ x.start)

/-- The regions of a list share no byte pairwise. -/
def pairwiseDisjoint : List Region → Bool
  | [] => true
  | x :: xs => xs.all (disjointRegions x) && pairwiseDisjoint xs

/-- The descriptor and the buffer of each entry of a list. -/
def entryRegions (cap : Nat) (es : List EntryAddr) : List Region :=
  es.flatMap fun e => [{ start := e.desc.toNat, len := descBytes }, { start := e.buf.toNat, len := cap }]

/-- Every region of a configuration, the command port first (R9). -/
def allRegions (c : Config) : List Region :=
  { start := c.dreBase.toNat, len := portBytes } :: (entryRegions c.cap c.rx ++ entryRegions c.cap c.tx)

/-- WF(cfg) (R8, R9): sizes in 1..256, CAP in its 13-bit field, every region inside the space, 4-aligned and disjoint
from every other; and a DescLayout whose fields do not overlap (log 4). -/
def configOk (c : Config) : Bool :=
  decide (1 ≤ c.rx.length ∧ c.rx.length ≤ 256 ∧ 1 ≤ c.tx.length ∧ c.tx.length ≤ 256 ∧ c.cap ≤ 8191) &&
    (allRegions c).all regionOk && pairwiseDisjoint (allRegions c) && layoutOk c

/-- What lies at a byte of memory, the command port apart (R60, R61). -/
inductive Location where
  /-- ordinary memory outside both rings -/
  | plain
  /-- a byte of the descriptor of entry `index` -/
  | desc (ring : Ring) (index : Nat)
  /-- byte `offset` of the buffer of entry `index` -/
  | buf (ring : Ring) (index : Nat) (offset : Nat)
  deriving DecidableEq, Repr

/-- The location of byte `a` among the entries `es` of ring `r`, the first of which is entry `i`. -/
def locateIn (r : Ring) (cap a : Nat) : Nat → List EntryAddr → Option Location
  | _, [] => none
  | i, e :: es =>
    if e.desc.toNat ≤ a ∧ a < e.desc.toNat + descBytes then some (.desc r i)
    else if e.buf.toNat ≤ a ∧ a < e.buf.toNat + cap then some (.buf r i (a - e.buf.toNat))
    else locateIn r cap a (i + 1) es

/-- The location of byte `a` (R60). -/
def locate (c : Config) (a : Nat) : Location :=
  match locateIn .rx c.cap a 0 c.rx with
  | some l => l
  | none =>
    match locateIn .tx c.cap a 0 c.tx with
    | some l => l
    | none => .plain

end Sys2Proof.Machine
end

