-- ==== Sys2Proof/Machine/Ops.lean ====
section
/-! DEFINITION. The shared operations over memory, descriptors, cursors, result registers and poll demands. Taking an
exception and returning from one do not exist in this block (60_exceptions.md R250, R259, R260): every outcome of a
command is a result code, written by `State.finish`. -/

namespace Sys2Proof.Machine

/-! ### Memory (20_memory.md R60, R61, R63) -/

/-- The byte listed at address `a`; `none` where nothing has been written. -/
def Memory.get? : Memory → Nat → Option Byte
  | [], _ => none
  | (k, v) :: m, a => if a = k then some v else Memory.get? m a

/-- Write one byte, keeping the addresses strictly rising. -/
def Memory.put : Memory → Nat → Byte → Memory
  | [], a, b => [(a, b)]
  | (k, v) :: m, a, b =>
    if a < k then (a, b) :: (k, v) :: m
    else if a = k then (a, b) :: m
    else (k, v) :: Memory.put m a b

/-- The canonical form: addresses strictly rising and below 2^32 (R60), all above `low`. -/
def Memory.risingFrom : Nat → Memory → Bool
  | _, [] => true
  | low, (k, _) :: m => decide (low ≤ k ∧ k < 2 ^ 32) && Memory.risingFrom (k + 1) m

/-- The canonical form of memory. An unlisted address holds no value, so no entry can repeat it. -/
def Memory.wf (m : Memory) : Bool := Memory.risingFrom 0 m

/-- Write bytes at rising addresses from `a`, the first at `a`. DESIGN CHOICE (log 18): past the address 2^32 - 1 they go on at 0,
and on the port they land in memory; only a DMA step of a raced run comes to either (R60 is silent). -/
def Memory.putBytes : Memory → Addr → List Byte → Memory
  | m, _, [] => m
  | m, a, b :: bs => Memory.putBytes (Memory.put m a.toNat b) (a + 1#32) bs

/-- `MemWrite(a, 4, v)`: one aligned 32-bit write, little-endian (R12, R63). -/
def Memory.putWord (m : Memory) (a : Addr) (v : Word) : Memory := Memory.putBytes m a (wordBytes v)

/-- Word writes in the order listed. -/
def Memory.putWords (m : Memory) (ws : List (Addr × Word)) : Memory :=
  ws.foldl (fun m w => Memory.putWord m w.1 w.2) m

/-- `MemRead(a, 1)`: the byte at `a`; where nothing has been written, the free value of power-on contents (R42, U6). -/
def State.byteAt (s : State) (a : Addr) : Byte :=
  match Memory.get? s.mem a.toNat with
  | some b => b
  | none => Config.powerOnByte a.toNat

/-- `MemRead(a, 4)`, little-endian (R12, R63). -/
def State.wordAt (s : State) (a : Addr) : Word :=
  wordOfBytes (s.byteAt a) (s.byteAt (a + 1#32)) (s.byteAt (a + 2#32)) (s.byteAt (a + 3#32))

/-- The bytes `[MemRead(a + k, 1) for k in 0 .. n-1]` (R214). DESIGN CHOICE (log 18): past the address 2^32 - 1 they go on at 0, and
on the port they are memory's; only a DMA step of a raced run comes to either (R60 is silent). -/
def State.bytesAt (s : State) (a : Addr) (n : Nat) : List Byte :=
  (List.range n).map fun k => s.byteAt (a + BitVec.ofNat 32 k)

/-! ### Descriptors (10_state.md R38, R39; 00_scope.md R12) -/

/-- The address of `D(r,i).wK`. -/
def descWordAddr (c : Config) (r : Ring) (i k : Nat) : Addr := descAddr c r i + BitVec.ofNat 32 (4 * k)

/-- `D(r,i).wK`. -/
def State.desc (s : State) (r : Ring) (i k : Nat) : Word := s.wordAt (descWordAddr s.cfg r i k)

/-- `D(r,i).wK <- v`. -/
def State.setDesc (s : State) (r : Ring) (i k : Nat) (v : Word) : State :=
  { s with mem := Memory.putWord s.mem (descWordAddr s.cfg r i k) v }

/-- The place of OWN in word 0 (R39, R90, R95). -/
def ownPos (c : Config) : Ring → Nat
  | .rx => c.layout.rx.own
  | .tx => c.layout.tx.own

/-- OWN of a word 0 of ring `r`: true when DMA owns the entry (R39). -/
def ownBit (c : Config) (r : Ring) (w0 : Word) : Bool := w0.getLsbD (ownPos c r)

/-- `Own(r,i) = DMA` (R39). -/
def State.ownedByDma (s : State) (r : Ring) (i : Nat) : Bool := ownBit s.cfg r (s.desc r i 0)

/-- The list base address a DMA agent returns to after the ring-end entry (R24, R25). -/
def State.listBase (s : State) : Ring → Addr
  | .rx => s.dmardlar
  | .tx => s.dmatdlar

/-- Entry i's ring-end marker, RER or TER (R92, R95). -/
def State.endMark (s : State) : Ring → Nat → Bool
  | .rx, i => (s.desc .rx i 1).getLsbD s.cfg.layout.rx.ringEnd
  | .tx, i => (s.desc .tx i 0).getLsbD s.cfg.layout.tx.ringEnd

/-- Entry i's chain bit, RCH or TCH (R92, R95). -/
def State.chainMark (s : State) : Ring → Nat → Bool
  | .rx, i => (s.desc .rx i 1).getLsbD s.cfg.layout.rx.chained
  | .tx, i => (s.desc .tx i 0).getLsbD s.cfg.layout.tx.chained

/-- The descriptor the silicon's linkage gives after entry i (R100): the list base at the ring's end, else the chained
address in word 3; R100 gives none where neither bit is set. -/
def State.linkedNext (s : State) (r : Ring) (i : Nat) : Option Addr :=
  if s.endMark r i then some (s.listBase r)
  else if s.chainMark r i then some (s.desc r i 3)
  else none

/-- RX_START's writes of words 1 to 3, entry 0 first (R140). -/
def rxLinkWrites (c : Config) : List (Addr × Word) :=
  (List.range (ringSize c .rx)).flatMap fun i =>
    [(descWordAddr c .rx i 1, rxW1 c i),
     (descWordAddr c .rx i 2, bufAddr c .rx i),
     (descWordAddr c .rx i 3, descAddr c .rx (nextIndex c .rx i))]

/-- RX_START's writes of word 0, after the release barrier (R71, R140). -/
def rxOwnWrites (c : Config) : List (Addr × Word) :=
  (List.range (ringSize c .rx)).map fun i => (descWordAddr c .rx i 0, rxW0Dma c)

/-- TX_START's writes, entry 0 first, words 1, 2, 3, 0 of each (R170). -/
def txLinkWrites (c : Config) : List (Addr × Word) :=
  (List.range (ringSize c .tx)).flatMap fun i =>
    [(descWordAddr c .tx i 1, 0#32),
     (descWordAddr c .tx i 2, bufAddr c .tx i),
     (descWordAddr c .tx i 3, descAddr c .tx (nextIndex c .tx i)),
     (descWordAddr c .tx i 0, txCtrl c i)]

/-! ### Process states and poll demands (10_state.md R27, R29; 42_dma_schedulers.md R220, R221) -/

/-- Stopped (R103). -/
def psStopped : BitVec 3 := 0b000#3

/-- Running: fetching descriptor, of either process (R103). -/
def psFetching : BitVec 3 := 0b001#3

/-- RPS running: waiting for frame; TPS running: reading data for transmit (R103). -/
def psHolding : BitVec 3 := 0b011#3

/-- RPS suspended: descriptor unavailable (R103). -/
def rpsSuspended : BitVec 3 := 0b100#3

/-- TPS suspended: descriptor unavailable (R103). -/
def tpsSuspended : BitVec 3 := 0b110#3

/-- `S.DMASR.RPS <- v`. -/
def State.setRps (s : State) (v : BitVec 3) : State := { s with dmasr := { s.dmasr with rps := v } }

/-- `S.DMASR.TPS <- v`. -/
def State.setTps (s : State) (v : BitVec 3) : State := { s with dmasr := { s.dmasr with tps := v } }

/-- `RxPollDemand()` (R220): an event, never stored. -/
def State.rxPollDemand (s : State) : State :=
  if s.dmaomr.sr = true ∧ s.dmasr.rps = rpsSuspended then s.setRps psFetching else s

/-- `TxPollDemand()` (R221): an event, never stored. -/
def State.txPollDemand (s : State) : State :=
  if s.dmaomr.st = true ∧ s.dmasr.tps = tpsSuspended then s.setTps psFetching else s

/-- A write of any value to DMARPDR (R29): the value has no effect (U20). -/
def State.writeDmarpdr (s : State) (_value : Word) : State := s.rxPollDemand

/-- A write of any value to DMATPDR (R29): the value has no effect (U20). -/
def State.writeDmatpdr (s : State) (_value : Word) : State := s.txPollDemand

/-! ### Result registers (30_encoding.md R111 to R114) -/

/-- The outcome codes of R113. -/
inductive Code where
  | ok
  | wouldBlock
  | corrupted
  | tooLong
  | illegal
  | state
  | busy
  | noToken
  deriving DecidableEq, Repr

/-- The CODE field's value (R113). -/
def codeBits : Code → BitVec 4
  | .ok => 0#4
  | .wouldBlock => 1#4
  | .corrupted => 2#4
  | .tooLong => 3#4
  | .illegal => 8#4
  | .state => 9#4
  | .busy => 10#4
  | .noToken => 11#4

/-- RES = {value[15:0], index[7:0], 0b0000, code[3:0]} (R112). -/
def resultWord (code : Code) (index value : Nat) : Word :=
  BitVec.ofNat 16 value ++ BitVec.ofNat 8 index ++ 0b0000#4 ++ codeBits code

/-- The last action of every command (R111, R112): RES and RES_ADDR written once. -/
def State.finish (s : State) (code : Code) (index value : Nat) (addr : Addr) : State :=
  { s with res := resultWord code index value, resAddr := addr, resUse := .unread }

/-- `return CODE(index, value, addr)` (R112). -/
def reply (s : State) (code : Code) (index value : Nat) (addr : Addr) : Result :=
  .next (s.finish code index value addr)

/-- `return CODE()`: the omitted arguments are 0 (R112). -/
def replyCode (s : State) (code : Code) : Result := reply s code 0 0 0#32

/-! ### Reset (70_reset_and_hazards.md R280, R281) -/

/-- The effect of the platform's DMA soft reset (R281): R42's reset values. Memory is untouched (R42), a recorded fault is
never cleared (R255); the parameters, the CPU's own state and record, and the model's agenda and counter are not the block's
to reset. -/
def State.softReset (s : State) : State :=
  { State.resetFor s.cfg with
    mem := s.mem, reads := s.reads, faults := s.faults, cpuStuck := s.cpuStuck, agenda := s.agenda, draws := s.draws }

/-! ### Recorded faults (20_memory.md R69; 60_exceptions.md R255; log 18) -/

/-- The bytes an access of width `w` at `a` touches. -/
def accessBytes (a : Addr) (w : Width) : List Addr := (List.range w.bytes).map fun k => a + BitVec.ofNat 32 k

/-- The bytes whose later values a recorded fault leaves unconstrained (R69). -/
def Recorded.touched : Recorded → List Addr
  | .raceOnRing _ _ a w => accessBytes a w
  | .resultBeforeCommand => []

/-- Every byte a racing write has touched. -/
def State.touched (s : State) : List Addr := s.faults.flatMap Recorded.touched

/-- Give the listed bytes free values, the `n`th draw and those after it. -/
def Memory.redraw : Memory → Nat → List Addr → Memory
  | m, _, [] => m
  | m, n, a :: as => Memory.redraw (Memory.put m a.toNat (Config.freeByte n)) (n + 1) as

/-- Before every step each touched byte takes a fresh free value: every later value of it is unconstrained (R69). With no
race recorded this changes nothing. -/
def State.redraw (s : State) : State :=
  { s with mem := Memory.redraw s.mem s.draws s.touched, draws := s.draws + s.touched.length }

/-- A race on entry `i` of ring `r` is recorded. -/
def Recorded.isRaceOn (r : Ring) (i : Nat) : Recorded → Bool
  | .raceOnRing q j _ _ => decide (q = r ∧ j = i)
  | .resultBeforeCommand => false

/-- A race on entry `i` of ring `r` is recorded, so that every later DMA step on it is unconstrained (R69). -/
def State.raced (s : State) (r : Ring) (i : Nat) : Bool := s.faults.any (Recorded.isRaceOn r i)

/-- Write single bytes in the order listed. -/
def Memory.putEach (m : Memory) (ws : List (Addr × Byte)) : Memory :=
  ws.foldl (fun m w => Memory.put m w.1.toNat w.2) m

end Sys2Proof.Machine
end

