-- ==== Sys2Proof/Machine/Flags.lean ====
section
/-! DEFINITION. The derived signals and the register words (10_state.md R36, R37; 30_encoding.md R101 to R104, R115). -/

namespace Sys2Proof.Machine

/-- `NIS` (R36). -/
def State.nis (s : State) : Bool := (s.dmasr.ts && s.dmaier.tie) || (s.dmasr.rs && s.dmaier.rie)

/-- The interrupt output `IRQ` (R36, R242): level-sensitive. -/
def State.irq (s : State) : Bool := s.dmaier.nise && s.nis

/-- One bit as a word with that bit at position `n`. -/
def bitAt (b : Bool) (n : Nat) : Word := if b then 1#32 <<< n else 0#32

/-- DMAOMR as a word (R101): SR bit 1, ST bit 13. -/
def State.dmaomrWord (s : State) : Word := bitAt s.dmaomr.sr 1 ||| bitAt s.dmaomr.st 13

/-- DMASR as a word (R102): TS bit 0, RS bit 6, NIS bit 16, RPS bits 19:17, TPS bits 22:20. -/
def State.dmasrWord (s : State) : Word :=
  bitAt s.dmasr.ts 0 ||| bitAt s.dmasr.rs 6 ||| bitAt s.nis 16 |||
    (s.dmasr.rps.setWidth 32 <<< 17) ||| (s.dmasr.tps.setWidth 32 <<< 20)

/-- DMAIER as a word (R104): TIE bit 0, RIE bit 6, NISE bit 16. -/
def State.dmaierWord (s : State) : Word :=
  bitAt s.dmaier.tie 0 ||| bitAt s.dmaier.rie 6 ||| bitAt s.dmaier.nise 16

/-- A read of DMARPDR or DMATPDR returns 0 (R29). -/
def pollRegisterRead : Word := 0#32

/-- The running states (R37, R103). -/
inductive RunState where
  | stopped
  | running
  | suspended
  | unknown
  deriving DecidableEq, Repr

/-- RunState(RPS) (R103), every one of the eight values. -/
def rxRunState (rps : BitVec 3) : RunState :=
  match rps.toNat with
  | 0 => .stopped
  | 1 | 3 | 5 | 7 => .running
  | 4 => .suspended
  | _ => .unknown

/-- RunState(TPS) (R103), every one of the eight values. -/
def txRunState (tps : BitVec 3) : RunState :=
  match tps.toNat with
  | 0 => .stopped
  | 1 | 2 | 3 | 7 => .running
  | 6 => .suspended
  | _ => .unknown

/-- The RunState's code in VALUE (R115). -/
def runStateCode : RunState → Nat
  | .stopped => 0
  | .running => 1
  | .suspended => 2
  | .unknown => 3

/-- `1 if Running else 0` (R150, R179). -/
def runningFlag (r : RunState) : Nat := if r = .running then 1 else 0

end Sys2Proof.Machine
end

