-- ==== Sys2Proof/Machine/Irq.lean ====
section
/-! DEFINITION. The interrupt commands (43_irq_control.md). -/

namespace Sys2Proof.Machine

/-- IRQ_ENABLE (R241). -/
def execIrqEnable (s : State) : Result :=
  replyCode { s with dmaier := { tie := true, rie := true, nise := true } } .ok

/-- IRQ_HANDLE (R243): clears both latches, whenever they were set (R244). -/
def execIrqHandle (s : State) : Result :=
  replyCode { s with dmasr := { s.dmasr with ts := false, rs := false } } .ok

/-- `Exec(Illegal)` (30_encoding.md R109, 60_exceptions.md R251): RES and RES_ADDR only. -/
def execIllegal (s : State) : Result := replyCode s .illegal

end Sys2Proof.Machine
end

