-- ==== Sys2Proof/Machine/Operands.lean ====
section
/-! DEFINITION. What a command acts on (30_encoding.md R108): the ring by its opcode, the entry by the ring's cursor or
its open window, and TX_SEND's length. Also the byte an assembler line's offset names (R117). -/

namespace Sys2Proof.Machine

/-- The software cursor of a ring (R30, R31). -/
def State.cursor (s : State) : Ring → Nat
  | .rx => s.rxNext
  | .tx => s.txNext

/-- The DMA cursor of a ring (R32, R33). -/
def State.dmaCursor (s : State) : Ring → Nat
  | .rx => s.rxDma
  | .tx => s.txDma

/-- The open window of a ring (R34, R35). -/
def State.window (s : State) : Ring → Option Window
  | .rx => s.rxToken
  | .tx => s.txToken

/-- TX_SEND's length against CAP (R108, R172): values above CAP are legal encodings and give TOO_LONG. -/
def lengthFits (c : Config) (len : Nat) : Bool := decide (len ≤ c.cap)

/-- The address of byte `k` of the open window of ring `r`, if one is open and holds that byte (R117, R295). -/
def State.windowByte (s : State) (r : Ring) (k : Nat) : Option Addr :=
  match s.window r with
  | some w => if k < w.len then some (bufAddr s.cfg r w.index + BitVec.ofNat 32 k) else none
  | none => none

end Sys2Proof.Machine
end

