-- ==== Sys2Proof/Machine/Rx.lean ====
section
/-! DEFINITION. The receive ring commands (40_rx_ring.md). -/

namespace Sys2Proof.Machine

/-- Link the Rx ring and start the receive process: RX_START's effect before its result (R140). -/
def State.startRx (s : State) : State :=
  State.writeDmarpdr
    { s with
      mem := Memory.putWords s.mem (rxLinkWrites s.cfg ++ rxOwnWrites s.cfg)
      rxNext := 0
      rxToken := none
      dmardlar := descAddr s.cfg .rx 0
      rxDma := 0
      dmaomr := { s.dmaomr with sr := true }
      dmasr := { s.dmasr with rps := psFetching } } 0#32

/-- RX_START (R140). -/
def execRxStart (s : State) : Result :=
  if s.dmaomr.sr then replyCode s .state
  else replyCode s.startRx .ok

/-- Return Rx entry `i` to DMA (R144, R147): the word-0 write, after the release barrier (R71), then the poll demand. -/
def State.handBackRx (s : State) (i : Nat) : State := (s.setDesc .rx i 0 (rxW0Dma s.cfg)).writeDmarpdr 0#32

/-- Recycle the corrupted entry at the cursor (R142, R145). -/
def State.recycleRx (s : State) : State :=
  { s.handBackRx s.rxNext with rxNext := nextIndex s.cfg .rx s.rxNext }

/-- Open a window of `len` bytes on the entry at the Rx cursor and advance the cursor (R142, R145). -/
def State.openRx (s : State) (len : Nat) : State :=
  { s with rxToken := some { index := s.rxNext, len := len }, rxNext := nextIndex s.cfg .rx s.rxNext }

/-- RX_RECV_NEXT (R142): STATE, BUSY, WOULD_BLOCK, CORRUPTED, OK, in the order checked (R253). -/
def execRxRecvNext (s : State) : Result :=
  if s.dmaomr.sr = false then replyCode s .state
  else if s.rxToken.isSome then replyCode s .busy
  else if s.ownedByDma .rx s.rxNext then replyCode s .wouldBlock
  else if rxValid s.cfg (s.desc .rx s.rxNext 0) then
    reply (s.openRx (frameLen s.cfg (s.desc .rx s.rxNext 0))) .ok s.rxNext (frameLen s.cfg (s.desc .rx s.rxNext 0))
      (bufAddr s.cfg .rx s.rxNext)
  else reply s.recycleRx .corrupted s.rxNext 0 0#32

/-- RX_RELEASE (R147). -/
def execRxRelease (s : State) : Result :=
  match s.rxToken with
  | none => replyCode s .noToken
  | some w => reply { s.handBackRx w.index with rxToken := none } .ok w.index 0 0#32

/-- RX_RUNNING_STATE (R149). -/
def execRxRunningState (s : State) : Result := reply s .ok 0 (runStateCode (rxRunState s.dmasr.rps)) 0#32

/-- RX_IS_RUNNING (R150). -/
def execRxIsRunning (s : State) : Result := reply s .ok 0 (runningFlag (rxRunState s.dmasr.rps)) 0#32

end Sys2Proof.Machine
end

