-- ==== Sys2Proof/Machine/Tx.lean ====
section
/-! DEFINITION. The transmit ring commands (41_tx_ring.md). -/

namespace Sys2Proof.Machine

/-- Link the Tx ring CPU-owned and start the transmit process: TX_START's effect before its result (R170). It issues no
poll demand (90_conflicts.md C2). -/
def State.startTx (s : State) : State :=
  { s with
    mem := Memory.putWords s.mem (txLinkWrites s.cfg)
    txNext := 0
    txToken := none
    dmatdlar := descAddr s.cfg .tx 0
    txDma := 0
    dmaomr := { s.dmaomr with st := true }
    dmasr := { s.dmasr with tps := psFetching } }

/-- TX_START (R170). -/
def execTxStart (s : State) : Result :=
  if s.dmaomr.st then replyCode s .state
  else replyCode s.startTx .ok

/-- Open a window of `len` bytes on the entry at the Tx cursor, which does not move (R172). -/
def State.openTx (s : State) (len : Nat) : State :=
  { s with txToken := some { index := s.txNext, len := len } }

/-- TX_SEND LEN (R172): STATE, BUSY, TOO_LONG, WOULD_BLOCK, OK, in the order checked (R253). -/
def execTxSend (len : Nat) (s : State) : Result :=
  if s.dmaomr.st = false then replyCode s .state
  else if s.txToken.isSome then replyCode s .busy
  else if lengthFits s.cfg len = false then replyCode s .tooLong
  else if s.ownedByDma .tx s.txNext then replyCode s .wouldBlock
  else reply (s.openTx len) .ok s.txNext len (bufAddr s.cfg .tx s.txNext)

/-- Hand the window's entry to DMA: the length, the release barrier (R71), then word 0 (R175). -/
def State.commitTx (s : State) (w : Window) : State :=
  (s.setDesc .tx w.index 1 (txW1 s.cfg w.len)).setDesc .tx w.index 0 (txCtrl s.cfg w.index ||| txOwn s.cfg)

/-- TX_COMMIT (R175). -/
def execTxCommit (s : State) : Result :=
  match s.txToken with
  | none => replyCode s .noToken
  | some w =>
    reply { s.commitTx w with txNext := nextIndex s.cfg .tx w.index, txToken := none } .ok w.index w.len 0#32

/-- TX_DEMAND_POLL (R177). -/
def execTxDemandPoll (s : State) : Result := replyCode (s.writeDmatpdr 0#32) .ok

/-- TX_IS_RUNNING (R179). -/
def execTxIsRunning (s : State) : Result := reply s .ok 0 (runningFlag (txRunState s.dmasr.tps)) 0#32

end Sys2Proof.Machine
end

