-- ==== Sys2Proof/Machine/Dispatch.lean ====
section
/-! DEFINITION. One arm per command. -/

namespace Sys2Proof.Machine

/-- `Exec` on a command (30_encoding.md R105). -/
def exec (i : Instr) (s : State) : Host.Outcome State Fault Refusal :=
  match i with
  | .rxStart => Sys2Proof.Machine.execRxStart s
  | .rxRecvNext => Sys2Proof.Machine.execRxRecvNext s
  | .rxRelease => Sys2Proof.Machine.execRxRelease s
  | .rxRunningState => Sys2Proof.Machine.execRxRunningState s
  | .rxIsRunning => Sys2Proof.Machine.execRxIsRunning s
  | .txStart => Sys2Proof.Machine.execTxStart s
  | .txSend len => Sys2Proof.Machine.execTxSend len s
  | .txCommit => Sys2Proof.Machine.execTxCommit s
  | .txDemandPoll => Sys2Proof.Machine.execTxDemandPoll s
  | .txIsRunning => Sys2Proof.Machine.execTxIsRunning s
  | .irqEnable => Sys2Proof.Machine.execIrqEnable s
  | .irqHandle => Sys2Proof.Machine.execIrqHandle s

end Sys2Proof.Machine
end

