-- ==== Sys2Proof/Machine/Access.lean ====
section
/-! DEFINITION. The CPU agent's accesses: the command port (10_state.md R21 to R23, 20_memory.md R61, R65), the windows
and the races (20_memory.md R69, R70), and ordinary memory. -/

namespace Sys2Proof.Machine

/-- Some byte of the access lies in the command port. -/
def touchesPort (c : Config) (a : Addr) (w : Width) : Bool :=
  decide (a.toNat < c.dreBase.toNat + portBytes ∧ c.dreBase.toNat < a.toNat + w.bytes)

/-- Every byte of the access lies in the address space (R60). -/
def insideSpace (a : Addr) (w : Width) : Bool := decide (a.toNat + w.bytes ≤ 2 ^ 32)

/-- Byte `k` of the open window of ring `r` when it is entry `i`'s (R295). -/
def State.inWindow (s : State) (r : Ring) (i k : Nat) : Bool :=
  match s.window r with
  | some w => decide (w.index = i ∧ k < w.len)
  | none => false

/-- The CPU may read the byte under the discipline of R70: ordinary memory, or a byte of an open window of either
ring. -/
def State.mayRead (s : State) (a : Nat) : Bool :=
  match locate s.cfg a with
  | .plain => true
  | .desc _ _ => false
  | .buf r i k => s.inWindow r i k

/-- The entry a CPU write of the byte races on (R69, R70, R295): every ring byte outside the open Tx window. -/
def State.writeRace (s : State) (a : Nat) : Option (Ring × Nat) :=
  match locate s.cfg a with
  | .plain => none
  | .desc r i => some (r, i)
  | .buf .rx i _ => some (.rx, i)
  | .buf .tx i k => if s.inWindow .tx i k then none else some (.tx, i)

/-- The entries an access of width `w` at `a` races on, each once, in the order of its bytes. DESIGN CHOICE (log 7): where the
bytes of one write race on several entries the spec does not say which entry RaceOnRing names; here each is recorded. -/
def State.racedEntries (s : State) (a : Addr) (w : Width) : List (Ring × Nat) :=
  ((List.range w.bytes).filterMap fun k => s.writeRace (a.toNat + k)).eraseDups

/-- A CPU write that races on the entries `es`: the fault RaceOnRing is recorded for each, and every byte the write touches
takes a free value (R69, R255). -/
def State.raceWrite (s : State) (a : Addr) (w : Width) (es : List (Ring × Nat)) : State :=
  { s with
    faults := s.faults ++ es.map fun e => .raceOnRing e.1 e.2 a w
    mem := Memory.redraw s.mem s.draws (accessBytes a w)
    draws := s.draws + w.bytes }

/-- The CPU agent comes to a port access it has no step for: it takes no step any more, the DMA agents go on (R65). -/
def State.stuckCpu (s : State) : State := { s with cpuStuck := true }

/-- A CPU write of `v` to CMD (R105, R109): one atomic step. -/
def execWord (v : Word) (s : State) : Result :=
  match decode v with
  | .command i => exec i s
  | .illegal _ => execIllegal s

/-- A CPU write of the low bytes of `v`. DESIGN CHOICE (log 14): an access that runs past the address space faults, also where it
touches the port and would leave the agent stuck (log 9). -/
def cpuWrite (a : Addr) (w : Width) (v : Word) (s : State) : Result :=
  if insideSpace a w = false then .fault .outsideAddressSpace
  else if touchesPort s.cfg a w then
    if w = .word ∧ a = s.cfg.dreBase then execWord v s
    else if w = .word ∧ (a = s.cfg.dreBase + 4#32 ∨ a = s.cfg.dreBase + 8#32) then .next s
    else .next s.stuckCpu
  else
    match s.racedEntries a w with
    | [] => .next { s with mem := Memory.putBytes s.mem a ((wordBytes v).take w.bytes) }
    | es => .next (s.raceWrite a w es)

/-- The word a read of width `w` gives from its bytes, little-endian (R63, R64), zero-extended (log 14). -/
def valueOf (w : Width) (byte : Nat → Byte) : Word :=
  match w with
  | .byte => wordOfBytes (byte 0) 0#8 0#8 0#8
  | .half => wordOfBytes (byte 0) (byte 1) 0#8 0#8
  | .word => wordOfBytes (byte 0) (byte 1) (byte 2) (byte 3)

/-- What memory holds at an access. -/
def State.cpuValue (s : State) (a : Addr) (w : Width) : Word := valueOf w fun k => s.byteAt (a + BitVec.ofNat 32 k)

/-- A value under no law: every byte of it the next draw (R69). -/
def State.freeValue (s : State) (w : Width) : Word := valueOf w fun k => Config.freeByte (s.draws + k)

/-- Every byte of the access may be read (R70). -/
def State.allReadable (s : State) (a : Addr) (w : Width) : Bool :=
  (List.range w.bytes).all fun k => s.mayRead (a.toNat + k)

/-- The byte lies in the open Rx window (R34, R295). -/
def State.inRxWindow (s : State) (a : Nat) : Bool :=
  match locate s.cfg a with
  | .buf .rx i k => s.inWindow .rx i k
  | .buf .tx _ _ => false
  | .desc _ _ => false
  | .plain => false

/-- The bytes of a read of `v` that come from the open Rx window (R285). -/
def State.rxWindowBytes (s : State) (a : Addr) (w : Width) (v : Word) : List Byte :=
  (List.range w.bytes).filterMap fun k =>
    if s.inRxWindow (a.toNat + k) then some (v.extractLsb' (8 * k) 8) else none

/-- A read of memory that gives `v`. -/
def State.memoryRead (s : State) (a : Addr) (w : Width) (v : Word) : CpuRead :=
  { addr := a, width := w, value := v, rxBytes := s.rxWindowBytes a w v }

/-- The CPU has made a read (R285). -/
def State.observe (s : State) (r : CpuRead) : State := { s with reads := s.reads ++ [r] }

/-- A CPU read at `a` of a result register that holds `v`; `u` says whether the result counts as read then. Before the first
command the fault ResultBeforeCommand is recorded and the read gives a free value (R22, R23, R255). -/
def readResult (s : State) (a : Addr) (v : Word) (u : ResUse) : State :=
  if s.commandDone then { s.observe { addr := a, width := .word, value := v } with resUse := u }
  else
    { s.observe { addr := a, width := .word, value := s.freeValue .word } with
      faults := s.faults ++ [.resultBeforeCommand], draws := s.draws + 4 }

/-- A CPU read. One that races gives any value (R69, D41), a draw for each of its bytes. DESIGN CHOICE (log 14): one that runs past
the address space faults, also where it touches the port and would leave the agent stuck (log 9). -/
def cpuRead (a : Addr) (w : Width) (s : State) : Result :=
  if insideSpace a w = false then .fault .outsideAddressSpace
  else if touchesPort s.cfg a w then
    if w = .word ∧ a = s.cfg.dreBase then .next (s.observe { addr := a, width := w, value := 0#32 })
    else if w = .word ∧ a = s.cfg.dreBase + 4#32 then .next (readResult s a s.res .read)
    else if w = .word ∧ a = s.cfg.dreBase + 8#32 then .next (readResult s a s.resAddr s.resUse)
    else .next s.stuckCpu
  else if s.allReadable a w then .next (s.observe (s.memoryRead a w (s.cpuValue a w)))
  else .next { s.observe (s.memoryRead a w (s.freeValue w)) with draws := s.draws + w.bytes }

/-- The CPU agent can step. While the facade waits for the soft reset, and after it gave up, it cannot (R283); nor can an
agent that is stuck (R65). -/
def State.cpuReady (s : State) : Bool := decide (s.boot = .done ∧ s.cpuStuck = false)

/-- One access of the CPU agent; nothing where it cannot step (log 2). -/
def cpuAccess (x : CpuAccess) (s : State) : Result :=
  if s.cpuReady then
    match x with
    | .read a w => cpuRead a w s
    | .write a w v => cpuWrite a w v s
  else .next s

end Sys2Proof.Machine
end

