-- ==== Sys2Proof/Machine/Bootstrap.lean ====
section
/-! DEFINITION. The DMA soft reset and the facade's wait for its completion bit (70_reset_and_hazards.md R281 to R283, R286;
log 10). -/

namespace Sys2Proof.Machine

/-- The facade gives up after `n` unsuccessful checks under bound `b` (R283). -/
def givesUp (b : Option Nat) (n : Nat) : Bool :=
  match b with
  | none => false
  | some k => decide (k ≤ n)

/-- The wait after `n` unsuccessful checks (R283). -/
def waitAfter (b : Option Nat) (n : Nat) : Boot := if givesUp b n then .failed else .waiting n

/-- One move of the platform or the facade: request the soft reset, or read its completion bit. The bit clearing ends
the wait with the block in its reset state (R281). After the first command the platform does not act on the block (R286): its
moves change nothing. DESIGN CHOICE (log 10): a request during a wait, or after the facade gave up, starts the count of checks
again at 0; a check with no wait in progress changes nothing. -/
def bootStep (m : BootMove) (s : State) : State :=
  if s.commandDone then s
  else
    match m, s.boot with
    | .request, _ => { s with boot := waitAfter s.cfg.softResetBound 0 }
    | .check true, .waiting _ => s.softReset
    | .check false, .waiting n => { s with boot := waitAfter s.cfg.softResetBound (n + 1) }
    | .check _, .done => s
    | .check _, .failed => s

end Sys2Proof.Machine
end

