-- ==== Sys2Proof/Machine/Scheduler.lean ====
section
/-! DEFINITION. The steps of the two DMA agents (42_dma_schedulers.md). A step that is not enabled changes nothing. -/

namespace Sys2Proof.Machine

/-- The process state of a fetching agent after it read word 0 (R202, R212). -/
def fetched (owned : Bool) (suspended : BitVec 3) : BitVec 3 := if owned then psHolding else suspended

/-- RXDMA's step RX_FETCH is enabled (R202). -/
def State.rxFetchEnabled (s : State) : Bool := s.dmaomr.sr && decide (s.dmasr.rps = psFetching)

/-- RXDMA's step RX_DEPOSIT is enabled, if the MAC offers a frame (R203, R205). -/
def State.rxDepositEnabled (s : State) : Bool := s.dmaomr.sr && decide (s.dmasr.rps = psHolding)

/-- TXDMA's step TX_FETCH is enabled (R212). -/
def State.txFetchEnabled (s : State) : Bool := s.dmaomr.st && decide (s.dmasr.tps = psFetching)

/-- TXDMA's step TX_CLOSE is enabled (R213, R214). -/
def State.txCloseEnabled (s : State) : Bool := s.dmaomr.st && decide (s.dmasr.tps = psHolding)

/-- RXDMA's step on a raced entry: unconstrained in everything RXDMA holds and in memory (R69, log 18). DESIGN CHOICE (log 18): so
unconstrained is the cursor that it may leave the range of R32; an index outside the ring has the address 0 (log 11). -/
def State.racedRx (s : State) : State :=
  let d := Config.racedStep s.draws
  { s with
    mem := Memory.putEach s.mem d.writes
    dmasr := { s.dmasr with rs := d.latch, rps := d.process }
    rxDma := d.cursor
    draws := s.draws + 1 }

/-- TXDMA's step on a raced entry: unconstrained in everything TXDMA holds, in memory and in what it emits (R69, log 18). DESIGN
CHOICE (log 18): its cursor may leave the range of R33, as RXDMA's may that of R32. -/
def State.racedTx (s : State) : State :=
  let d := Config.racedStep s.draws
  { s with
    mem := Memory.putEach s.mem d.writes
    events := s.events ++ d.frames.map fun bytes => { entry := s.txDma, bytes := bytes }
    dmasr := { s.dmasr with ts := d.latch, tps := d.process }
    txDma := d.cursor
    draws := s.draws + 1 }

/-- RXDMA steps to `t`, or without constraint where its entry is raced. -/
def State.rxStep (s t : State) : State := if s.raced .rx s.rxDma then s.racedRx else t

/-- TXDMA steps to `t`, or without constraint where its entry is raced. -/
def State.txStep (s t : State) : State := if s.raced .tx s.txDma then s.racedTx else t

/-- RX_FETCH (R202). -/
def State.rxFetch (s : State) : State := s.setRps (fetched (s.ownedByDma .rx s.rxDma) rpsSuspended)

/-- RX_DEPOSIT(F, st) (R205): the buffer bytes, then word 0 with status, length and OWN = 0 (R72), the latch (R206),
the DMA cursor (R207), and back to fetching. -/
def State.rxDeposit (s : State) (frame : List Byte) (st : Word) : State :=
  State.setDesc
    { s with
      mem := Memory.putBytes s.mem (s.desc .rx s.rxDma 2) (frame.take s.cfg.cap)
      dmasr := { s.dmasr with rs := true, rps := psFetching }
      rxDma := nextIndex s.cfg .rx s.rxDma }
    .rx s.rxDma 0 (rxDepositW0 s.cfg frame.length st)

/-- TX_FETCH (R212). -/
def State.txFetch (s : State) : State := s.setTps (fetched (s.ownedByDma .tx s.txDma) tpsSuspended)

/-- The frame TX_CLOSE emits: TBS1 bytes of the entry's buffer (R214, R218). -/
def State.txFrame (s : State) : TxFrame :=
  { entry := s.txDma, bytes := s.bytesAt (s.desc .tx s.txDma 2) (txLen s.cfg (s.desc .tx s.txDma 1)) }

/-- TX_CLOSE(st) (R214): the frame is emitted, word 0 written with OWN = 0, TS latched when IC is set (R216), the DMA
cursor advanced (R217), and back to fetching. -/
def State.txClose (s : State) (st : Word) : State :=
  State.setDesc
    { s with
      events := s.events ++ [s.txFrame]
      dmasr := { s.dmasr with ts := s.dmasr.ts || icBit s.cfg (s.desc .tx s.txDma 0), tps := psFetching }
      txDma := nextIndex s.cfg .tx s.txDma }
    .tx s.txDma 0 (txCloseW0 s.cfg (s.desc .tx s.txDma 0) st)

/-- One move of a DMA agent: the step if it is enabled, else nothing. R201, R204, R208, R211 and R213 say only that no step is
enabled then; that a move naming one is taken and changes nothing is a DESIGN CHOICE (log 2). -/
def dmaStep (m : DmaMove) (s : State) : State :=
  match m with
  | .rxFetch => if s.rxFetchEnabled then s.rxStep s.rxFetch else s
  | .rxDeposit frame st => if s.rxDepositEnabled then s.rxStep (s.rxDeposit frame st) else s
  | .txFetch => if s.txFetchEnabled then s.txStep s.txFetch else s
  | .txClose st => if s.txCloseEnabled then s.txStep (s.txClose st) else s

end Sys2Proof.Machine
end

