-- ==== Sys2Proof/Machine/Moves.lean ====
section
/-! DEFINITION. One move of any agent (00_scope.md R7), and which move comes next (log 2, log 3). -/

namespace Sys2Proof.Machine

/-- One move: an access of the CPU, a step of a DMA agent, or the platform's soft reset. DESIGN CHOICE (log 10): the DMA agents
keep their steps while the facade waits for a soft reset and after it gave up; none is enabled then in a run from reset. -/
def perform (m : Move) (s : State) : Result :=
  match m with
  | .cpu x => cpuAccess x s
  | .dma d => .next (dmaStep d s)
  | .boot b => .next (bootStep b s)

/-- The move is one of the CPU agent. -/
def isCpuMove : Move → Bool
  | .cpu _ => true
  | .dma _ => false
  | .boot _ => false

/-- The first move of a list that can be taken, and the others in their order: the CPU's moves only if it is `ready`. -/
def takeMove (ready : Bool) : List Move → Option (Move × List Move)
  | [] => none
  | m :: rest =>
    if isCpuMove m && !ready then
      match takeMove ready rest with
      | some (x, others) => some (x, m :: others)
      | none => none
    else some (m, rest)

/-- The next move, and the state once it is chosen: the agenda's first that can be taken, else a DMA move that a free value
names. The moves of a CPU agent that cannot step stay in the agenda, in their order: its program waits (R65, R283, log 2). -/
def State.choose (s : State) : Move × State :=
  match takeMove s.cpuReady s.agenda with
  | some (m, rest) => (m, { s with agenda := rest })
  | none => (.dma (Config.freeMove s.draws), { s with draws := s.draws + 1 })

/-- The move by which the CPU issues the command word `v`: an aligned 32-bit write to CMD (R105, R110). -/
def commandMove (c : Config) (v : Word) : Move := .cpu (.write c.dreBase .word v)

/-- The command word an opcode-table number of `nbits` bits stands for, the bits above `nbits` being 0. -/
def tableWord (nbits w : Nat) : Word := BitVec.ofNat 32 (w % 2 ^ nbits)

/-- `s` with the CPU about to write the word to CMD: the boot wait is over (R283) and the CPU agent is not stuck. -/
def State.issue (s : State) (v : Word) : State :=
  { s with boot := .done, cpuStuck := false, agenda := commandMove s.cfg v :: s.agenda }

end Sys2Proof.Machine
end

