-- ==== Sys2Proof/Machine/Step.lean ====
section
/-! DEFINITION. One step of the whole machine, and the host's placement of a command (log 2). -/

namespace Sys2Proof.Machine

/-- One atomic step of one agent (00_scope.md R7, R13). A configuration outside WF(cfg) has no run (R8, R255).
The bytes a racing write has touched take fresh free values first (R69). -/
def step (s : State) : Host.Outcome State Fault Refusal :=
  if configOk s.cfg then perform s.choose.1 s.choose.2.redraw else .refused .configRefused

/-- `s` with the command word `w` next: the block fetches nothing (R78), a command comes as the CPU's write to CMD. -/
def State.withFetchWord (s : State) (nbits w : Nat) : State := s.issue (tableWord nbits w)

end Sys2Proof.Machine
end

