-- ==== Sys2Proof/Machine/Assembler.lean ====
section
/-! DEFINITION. The assembler notation of 30_encoding.md R116, R117: line forms, their text, and their meaning as steps of
the CPU in program order. -/

namespace Sys2Proof.Machine

/-- A line of an assembler program (R117): a command, a window access, or a pseudo-instruction. -/
inductive Line where
  | command (i : Instr)
  | writeBuf (offset : Nat) (b : Byte)
  | readBuf (offset : Nat)
  | send (len : Nat) (bytes : List Byte)
  | recv
  | start
  deriving DecidableEq, Repr

/-- The next step of the CPU after a step that goes on. -/
def andThen (o : Result) (f : State → Result) : Result :=
  match o with
  | .next s => f s
  | .fault e => .fault e
  | .refused e => .refused e

/-- One access of the CPU as a step: the bytes a racing write has touched take fresh free values first (R69, log 18).
DESIGN CHOICE (log 12): where the CPU agent cannot step (R65, R283) the access is dropped and the line runs on, while `step`
keeps the CPU's moves waiting (log 2). -/
def cpuStep (x : CpuAccess) (s : State) : Result := cpuAccess x s.redraw

/-- The CPU writes the command's word to CMD (R105). -/
def runCommand (i : Instr) (s : State) : Result := cpuStep (.write s.cfg.dreBase .word (encode i)) s

/-- WRITEBUF k, b (R117). -/
def runWriteBuf (k : Nat) (b : Byte) (s : State) : Result :=
  match s.windowByte .tx k with
  | some a => cpuStep (.write a .byte (b.setWidth 32)) s
  | none => .refused .noOpenWindow

/-- READBUF k (R117). -/
def runReadBuf (k : Nat) (s : State) : Result :=
  match s.windowByte .rx k with
  | some a => cpuStep (.read a .byte) s
  | none => .refused .noOpenWindow

/-- WRITEBUF k, b0; WRITEBUF k+1, b1; ... -/
def runWriteBufs : Nat → List Byte → State → Result
  | _, [], s => .next s
  | k, b :: bs, s => andThen (runWriteBuf k b s) (runWriteBufs (k + 1) bs)

/-- READBUF k; READBUF k+1; ... for `n` bytes. -/
def runReadBufs : Nat → Nat → State → Result
  | _, 0, s => .next s
  | k, n + 1, s => andThen (runReadBuf k s) (runReadBufs (k + 1) n)

/-- The CODE of RES is OK (R112, R113). -/
def resultOk (s : State) : Bool := decide (s.res.extractLsb' 0 4 = codeBits .ok)

/-- The VALUE of RES (R112). -/
def resultValue (s : State) : Nat := (s.res.extractLsb' 16 16).toNat

/-- The meaning of a line (R116, R117), the CPU's steps taken with no DMA step in between. DESIGN CHOICE (log 12): the "if OK"
of SEND and RECV looks at RES in the state and is no CPU read of RES: R117 has no line for one, although R111 says the CPU
learns an outcome by reading RES. Nothing is recorded for it, and the result counts as unread. -/
def runLine (l : Line) (s : State) : Result :=
  match l with
  | .command i => runCommand i s
  | .writeBuf k b => runWriteBuf k b s
  | .readBuf k => runReadBuf k s
  | .send len bytes =>
    andThen (runCommand (.txSend len) s) fun s1 =>
      if resultOk s1 then
        andThen (runWriteBufs 0 bytes s1) fun s2 =>
          andThen (runCommand .txCommit s2) (runCommand .txDemandPoll)
      else .next s1
  | .recv =>
    andThen (runCommand .rxRecvNext s) fun s1 =>
      if resultOk s1 then andThen (runReadBufs 0 (resultValue s1) s1) (runCommand .rxRelease)
      else .next s1
  | .start => andThen (runCommand .rxStart s) (runCommand .txStart)

/-- A program: its lines in order. -/
def runLines : List Line → State → Result
  | [], s => .next s
  | l :: ls, s => andThen (runLine l s) (runLines ls)

/-- The value of a digit, decimal or hexadecimal. -/
def digitValue (c : Char) : Option Nat :=
  if '0'.toNat ≤ c.toNat ∧ c.toNat ≤ '9'.toNat then some (c.toNat - '0'.toNat)
  else if 'a'.toNat ≤ c.toNat ∧ c.toNat ≤ 'f'.toNat then some (c.toNat - 'a'.toNat + 10)
  else if 'A'.toNat ≤ c.toNat ∧ c.toNat ≤ 'F'.toNat then some (c.toNat - 'A'.toNat + 10)
  else none

/-- Digits of a number in base `b`, `acc` read so far. -/
def digitsValue (b : Nat) : Nat → List Char → Option Nat
  | acc, [] => some acc
  | acc, c :: cs =>
    match digitValue c with
    | some d => if d < b then digitsValue b (acc * b + d) cs else none
    | none => none

/-- A decimal or `0x` hexadecimal number (R117). DESIGN CHOICE (log 12): a `_` between digits makes it no number, so that the line
is none; R11 lets `_` group digits in the spec's own numbers, and R117 is silent for assembler text. -/
def numberValue : List Char → Option Nat
  | [] => none
  | ['0', 'x'] => none
  | '0' :: 'x' :: cs => digitsValue 16 0 cs
  | cs => digitsValue 10 0 cs

/-- The text before a comment, which `;` starts (R117). -/
def stripComment : List Char → List Char
  | [] => []
  | c :: cs => if c = ';' then [] else c :: stripComment cs

/-- The words of a line; `w` is the word being read, last character first. DESIGN CHOICE (log 12): spaces and commas alike part
them, any number of either, and no other character does; R117 shows operands with commas between them and says no more. -/
def lineWords (w : List Char) : List Char → List (List Char)
  | [] => if w.isEmpty then [] else [w.reverse]
  | c :: cs =>
    if c = ' ' ∨ c = ',' then (if w.isEmpty then lineWords [] cs else w.reverse :: lineWords [] cs)
    else lineWords (c :: w) cs

/-- A byte operand. -/
def byteOperand (w : List Char) : Option Byte :=
  match numberValue w with
  | some n => if n < 256 then some (BitVec.ofNat 8 n) else none
  | none => none

/-- Byte operands. -/
def byteOperands : List (List Char) → Option (List Byte)
  | [] => some []
  | w :: ws =>
    match byteOperand w, byteOperands ws with
    | some b, some bs => some (b :: bs)
    | _, _ => none

/-- TX_SEND's operand, 0..65535 (R117). -/
def lengthOperand (w : List Char) : Option Nat :=
  match numberValue w with
  | some n => if n < 65536 then some n else none
  | none => none

/-- The commands without operand, by mnemonic (R107). -/
def plainMnemonics : List (List Char × Line) :=
  [("RX_START".toList, .command .rxStart), ("RX_RECV_NEXT".toList, .command .rxRecvNext),
   ("RX_RELEASE".toList, .command .rxRelease), ("RX_RUNNING_STATE".toList, .command .rxRunningState),
   ("RX_IS_RUNNING".toList, .command .rxIsRunning), ("TX_START".toList, .command .txStart),
   ("TX_COMMIT".toList, .command .txCommit), ("TX_DEMAND_POLL".toList, .command .txDemandPoll),
   ("TX_IS_RUNNING".toList, .command .txIsRunning), ("IRQ_ENABLE".toList, .command .irqEnable),
   ("IRQ_HANDLE".toList, .command .irqHandle), ("RECV".toList, .recv), ("START".toList, .start)]

/-- A line with operands, from its mnemonic and its operands (R117). -/
def operandLine (m : List Char) (ops : List (List Char)) : Option Line :=
  match ops with
  | [] => none
  | w :: ws =>
    if m = "TX_SEND".toList ∧ ws = [] then (lengthOperand w).map fun n => .command (.txSend n)
    else if m = "READBUF".toList ∧ ws = [] then (numberValue w).map .readBuf
    else if m = "WRITEBUF".toList then
      match numberValue w, byteOperands ws with
      | some k, some [b] => some (.writeBuf k b)
      | _, _ => none
    else if m = "SEND".toList then
      match lengthOperand w, byteOperands ws with
      | some n, some bs => if bs.length = n then some (.send n bs) else none
      | _, _ => none
    else none

/-- The line a text stands for (R117), if it is one; a blank or comment line is none. -/
def parseLine (text : List Char) : Option Line :=
  match lineWords [] (stripComment text) with
  | [] => none
  | [m] => (plainMnemonics.find? fun row => row.1 = m).map (·.2)
  | m :: ops => operandLine m ops

end Sys2Proof.Machine
end

