-- ==== Sys2Proof/Safety.lean ====
section
/-! DEFINITION. What counts as a good state and a good run, in the terms claims use: the ring invariants (42_dma_schedulers.md
R230 to R232), quiescence (70_reset_and_hazards.md R285), the observation of a run (R285), the
launch premise (R284) and fair runs (R223). -/

namespace Sys2Proof.Machine

/-! ### What statements say of one step -/

/-- RES and RES_ADDR hold this outcome (R111, R112). -/
def HasResult (t : State) (code : Code) (index value : Nat) (addr : Addr) : Prop :=
  t.res = resultWord code index value ∧ t.resAddr = addr ∧ t.resUse = .unread

/-- `t` is `s` with nothing but the result registers written: the outcome `code`, every other result field 0. -/
def OnlyOutcome (s t : State) (code : Code) : Prop :=
  t = { s with res := resultWord code 0 0, resAddr := 0#32, resUse := .unread }

/-- Every byte of memory outside the `n` bytes from `a` is as before. -/
def SameOutside (s t : State) (a n : Nat) : Prop :=
  ∀ x : Addr, (x.toNat < a ∨ a + n ≤ x.toNat) → t.byteAt x = s.byteAt x

/-- Every byte of memory is as before. -/
def SameBytes (s t : State) : Prop := ∀ x : Addr, t.byteAt x = s.byteAt x

/-- Byte `x` lies in none of the descriptors of ring `r`. -/
def OutsideDescs (c : Config) (r : Ring) (x : Addr) : Prop :=
  ∀ i, i < ringSize c r → x.toNat < (descAddr c r i).toNat ∨ (descAddr c r i).toNat + 16 ≤ x.toNat

/-- Byte `a` of memory races on entry `i` of ring `r` when the CPU writes it: it lies in the entry's descriptor, in an Rx
buffer, or in a Tx buffer outside the open window (R69, R70, R294, R295). -/
def RacesOn (s : State) (r : Ring) (i a : Nat) : Prop :=
  i < ringSize s.cfg r ∧
    (((descAddr s.cfg r i).toNat ≤ a ∧ a < (descAddr s.cfg r i).toNat + 16) ∨
      ((bufAddr s.cfg r i).toNat ≤ a ∧ a < (bufAddr s.cfg r i).toNat + s.cfg.cap ∧
        (r = .tx → ∀ w, s.txToken = some w → w.index ≠ i ∨ w.len ≤ a - (bufAddr s.cfg r i).toNat)))

/-- Byte `a` of memory races when the CPU reads it: it lies in a descriptor, or in a buffer outside its ring's open window (R69,
R70, R294, R295). -/
def State.ReadRaces (s : State) (a : Nat) : Prop :=
  ∃ r i, i < ringSize s.cfg r ∧
    (((descAddr s.cfg r i).toNat ≤ a ∧ a < (descAddr s.cfg r i).toNat + 16) ∨
      ((bufAddr s.cfg r i).toNat ≤ a ∧ a < (bufAddr s.cfg r i).toNat + s.cfg.cap ∧
        ∀ w, s.window r = some w → w.index ≠ i ∨ w.len ≤ a - (bufAddr s.cfg r i).toNat))

/-- The access touches no byte of the command port. -/
def OffPort (c : Config) (a : Addr) (w : Width) : Prop :=
  a.toNat + w.bytes ≤ c.dreBase.toNat ∨ c.dreBase.toNat + 12 ≤ a.toNat

/-- The CPU agent can step: no soft reset is waited for, and it is not stuck (R65, R283). -/
def State.cpuFree (s : State) : Prop := s.boot = .done ∧ s.cpuStuck = false

/-- Byte `x` lies in the descriptor or the buffer of entry `i` of ring `r`. -/
def InEntry (c : Config) (r : Ring) (i : Nat) (x : Addr) : Prop :=
  ((descAddr c r i).toNat ≤ x.toNat ∧ x.toNat < (descAddr c r i).toNat + 16) ∨
    ((bufAddr c r i).toNat ≤ x.toNat ∧ x.toNat < (bufAddr c r i).toNat + c.cap)

/-- Sends of the given lengths, one after the other with no DMA step between them, each TX_SEND and each TX_COMMIT
answering OK, lead from `s` to `t` (R116, R180). -/
def SendsTo : List Nat → State → State → Prop
  | [], s, t => t = s
  | len :: lens, s, t =>
    ∃ u v, exec (.txSend len) s = .next u ∧ resultOk u = true ∧ exec .txCommit u = .next v ∧ resultOk v = true ∧
      SendsTo lens v t

/-- The unsuccessful checks of the completion bit, one after the other, after a request (R283). -/
def afterChecks : Nat → State → Result
  | 0, s => perform (.boot .request) s
  | n + 1, s => andThen (afterChecks n s) (perform (.boot (.check false)))

/-- The process states the block produces (R103, R200, R210), and Stopped exactly while the ring is not started (R201,
R211). -/
def State.ProcessOk (s : State) : Prop :=
  (if s.dmaomr.sr then s.dmasr.rps = psFetching ∨ s.dmasr.rps = psHolding ∨ s.dmasr.rps = rpsSuspended
    else s.dmasr.rps = psStopped) ∧
  (if s.dmaomr.st then s.dmasr.tps = psFetching ∨ s.dmasr.tps = psHolding ∨ s.dmasr.tps = tpsSuspended
    else s.dmasr.tps = psStopped)

/-- Cursors in range (R30 to R33), window indices in range and window lengths within CAP, an Rx window never empty
(R34, R35), and a window only on a started ring. -/
def State.CursorsOk (s : State) : Prop :=
  s.rxNext < ringSize s.cfg .rx ∧ s.rxDma < ringSize s.cfg .rx ∧
  s.txNext < ringSize s.cfg .tx ∧ s.txDma < ringSize s.cfg .tx ∧
  (∀ w, s.rxToken = some w →
    s.dmaomr.sr = true ∧ w.index < ringSize s.cfg .rx ∧ 1 ≤ w.len ∧ w.len ≤ s.cfg.cap) ∧
  (∀ w, s.txToken = some w → s.dmaomr.st = true ∧ w.index < ringSize s.cfg .tx ∧ w.len ≤ s.cfg.cap)

/-- Words 1 to 3 of every entry of a started ring, and the Tx control bits, are as START wrote them, TBS1 apart, which
is at most CAP (R41, R94, R96, R224). -/
def State.LinksOk (s : State) : Prop :=
  (s.dmaomr.sr = true → s.dmardlar = descAddr s.cfg .rx 0 ∧ ∀ i, i < ringSize s.cfg .rx →
    s.desc .rx i 1 = rxW1 s.cfg i ∧ s.desc .rx i 2 = bufAddr s.cfg .rx i ∧
    s.desc .rx i 3 = descAddr s.cfg .rx (nextIndex s.cfg .rx i)) ∧
  (s.dmaomr.st = true → s.dmatdlar = descAddr s.cfg .tx 0 ∧ ∀ i, i < ringSize s.cfg .tx →
    (∃ len, len ≤ s.cfg.cap ∧ s.desc .tx i 1 = txW1 s.cfg len) ∧
    s.desc .tx i 2 = bufAddr s.cfg .tx i ∧
    s.desc .tx i 3 = descAddr s.cfg .tx (nextIndex s.cfg .tx i) ∧
    s.desc .tx i 0 &&& txKeepMask s.cfg = txCtrl s.cfg i)

/-- `s` of R230: the oldest entry software has not handed back. -/
def State.rxOldest (s : State) : Nat :=
  match s.rxToken with
  | some _ => (s.rxNext + ringSize s.cfg .rx - 1) % ringSize s.cfg .rx
  | none => s.rxNext

/-- R230 with `c` CPU-owned Rx entries: they are `s, s+1, ..., s+c-1`, the window is on `s`, RXDMA stands behind them. -/
def State.RxRingAt (s : State) (c : Nat) : Prop :=
  c ≤ ringSize s.cfg .rx ∧
  (∀ k, k < ringSize s.cfg .rx →
    s.ownedByDma .rx ((s.rxOldest + k) % ringSize s.cfg .rx) = decide (c ≤ k)) ∧
  (∀ w, s.rxToken = some w → w.index = s.rxOldest ∧ 1 ≤ c) ∧
  s.rxDma = (s.rxOldest + c) % ringSize s.cfg .rx ∧
  (s.dmasr.rps = psHolding → c < ringSize s.cfg .rx) ∧
  (s.dmasr.rps = rpsSuspended → c = ringSize s.cfg .rx)

/-- The Rx ring invariant (R230). -/
def State.RxRing (s : State) : Prop := s.dmaomr.sr = true → ∃ c, s.RxRingAt c

/-- R231 with `p` DMA-owned Tx entries: they are `tx_dma, ..., tx_dma+p-1`, `tx_next` stands behind them. -/
def State.TxRingAt (s : State) (p : Nat) : Prop :=
  p ≤ ringSize s.cfg .tx ∧
  (∀ k, k < ringSize s.cfg .tx →
    s.ownedByDma .tx ((s.txDma + k) % ringSize s.cfg .tx) = decide (k < p)) ∧
  s.txNext = (s.txDma + p) % ringSize s.cfg .tx ∧
  (∀ w, s.txToken = some w → w.index = s.txNext ∧ p < ringSize s.cfg .tx) ∧
  (s.dmasr.tps = psHolding → 1 ≤ p)

/-- The Tx ring invariant (R231). -/
def State.TxRing (s : State) : Prop := s.dmaomr.st = true → ∃ p, s.TxRingAt p

/-- The whole invariant of the block: a well-formed configuration and everything above. -/
structure State.Inv (s : State) : Prop where
  config : configOk s.cfg = true
  process : s.ProcessOk
  cursors : s.CursorsOk
  links : s.LinksOk
  rxRing : s.RxRing
  txRing : s.TxRing

/-- No internal DMA step is enabled (R285). -/
def State.dmaIdle (s : State) : Bool := !s.rxFetchEnabled && !s.txFetchEnabled && !s.txCloseEnabled

/-- The CPU's moves still to be taken, in their order. -/
def State.cpuMoves (s : State) : List Move := s.agenda.filter isCpuMove

/-- The command program has ended: no access of the CPU is left, and it has read the RES of its last command (R285). A boot
that hangs or has failed, and a CPU agent that is stuck, have not ended it (R65, R283; log 9, log 10). DESIGN CHOICE (log 2): R285
names only the last command and its RES; here every access of the CPU left in the agenda, also one that comes after that read,
keeps the program from having ended. -/
def State.programEnded (s : State) : Bool := s.cpuReady && s.cpuMoves.isEmpty && decide (s.resUse ≠ .unread)

/-- The block is quiescent: the program has ended and no internal DMA step is enabled (R285). -/
def State.quiescent (s : State) : Bool := s.programEnded && s.dmaIdle

/-- The observation of a run (R285). -/
structure Observation where
  /-- the values of RES and RES_ADDR the CPU read, oldest first -/
  results : List CpuRead
  /-- the bytes the CPU read from Rx windows, oldest first -/
  rxBytes : List Byte
  /-- the TxFrame events, oldest first -/
  frames : List TxFrame
  mem : Memory
  /-- RES and RES_ADDR, unspecified before the first command -/
  result : Option (Word × Addr)
  dmardlar : Addr
  dmatdlar : Addr
  dmaomr : Word
  dmasr : Word
  dmaier : Word
  irq : Bool
  deriving DecidableEq, Repr

/-- The address is that of RES or of RES_ADDR. -/
def isResultAddr (c : Config) (a : Addr) : Bool := decide (a = c.dreBase + 4#32 ∨ a = c.dreBase + 8#32)

/-- The observation of a run that ends in `s` (R285). The cursors and the windows are no
registers (10_state.md sections 4 and 5). -/
def State.observation (s : State) : Observation where
  results := s.reads.filter fun x => isResultAddr s.cfg x.addr
  rxBytes := s.reads.flatMap CpuRead.rxBytes
  frames := s.events
  mem := s.mem
  result := if s.commandDone then some (s.res, s.resAddr) else none
  dmardlar := s.dmardlar
  dmatdlar := s.dmatdlar
  dmaomr := s.dmaomrWord
  dmasr := s.dmasrWord
  dmaier := s.dmaierWord
  irq := s.irq

/-- The reset state for a well-formed configuration, over any memory in canonical form and any agenda (R280, R284). -/
def State.Fresh (s : State) : Prop :=
  ∃ (c : Config) (mem : Memory) (agenda : List Move) (draws : Nat), configOk c = true ∧ Memory.wf mem = true ∧
    s = { State.resetFor c with mem := mem, agenda := agenda, draws := draws }

/-- Steps lead from `s` to `t`. -/
inductive Reached (s : State) : State → Prop
  | refl : Reached s s
  | step {t u : State} (h : Reached s t) (hs : Machine.step t = .next u) : Reached s u

/-- The launch premise (R284): the reset state or one reached from it, with no fault recorded. -/
def State.Launch (s : State) : Prop := (∃ s0 : State, s0.Fresh ∧ Reached s0 s) ∧ s.faults = []

/-- Steps lead from `s` to `t` through states in which entry `i` of ring `r` keeps its owner: DMA where `dma`, else the
CPU. -/
inductive OwnerKept (r : Ring) (i : Nat) (dma : Bool) (s : State) : State → Prop
  | refl (h : s.ownedByDma r i = dma) : OwnerKept r i dma s s
  | step {t u : State} (h : OwnerKept r i dma s t) (hs : Machine.step t = .next u) (ho : u.ownedByDma r i = dma) :
    OwnerKept r i dma s u

/-- The move is not the platform's soft reset (R286: the platform does not act on the block after boot). -/
def isBootMove : Move → Bool
  | .boot _ => true
  | .cpu _ => false
  | .dma _ => false

/-- An infinite run (R7, R68): each state from the one before by the named move of one agent. -/
def IsRun (run : Nat → State) (moves : Nat → Move) : Prop :=
  ∀ n, perform (moves n) (run n) = .next (run (n + 1))

/-- The internal steps that R223's weak fairness is about. -/
inductive InternalStep where
  | rxFetch
  | txFetch
  | txClose
  deriving DecidableEq, Repr

/-- The internal step is enabled. -/
def State.internalEnabled (s : State) : InternalStep → Bool
  | .rxFetch => s.rxFetchEnabled
  | .txFetch => s.txFetchEnabled
  | .txClose => s.txCloseEnabled

/-- The move takes the internal step. -/
def moveTakes : Move → InternalStep → Bool
  | .dma .rxFetch, .rxFetch => true
  | .dma .txFetch, .txFetch => true
  | .dma (.txClose _), .txClose => true
  | .dma .rxFetch, .txFetch => false
  | .dma .rxFetch, .txClose => false
  | .dma .txFetch, .rxFetch => false
  | .dma .txFetch, .txClose => false
  | .dma (.txClose _), .rxFetch => false
  | .dma (.txClose _), .txFetch => false
  | .dma (.rxDeposit _ _), _ => false
  | .cpu _, _ => false
  | .boot _, _ => false

/-- Weak fairness (R223): an internal step that stays enabled for ever is taken. -/
def WeaklyFair (run : Nat → State) (moves : Nat → Move) : Prop :=
  ∀ x n, (∀ m, n ≤ m → (run m).internalEnabled x = true) → ∃ m, n ≤ m ∧ moveTakes (moves m) x = true

end Sys2Proof.Machine
end

