-- ==== Sys2Proof/Certificates/Slice0/Obligations.lean ====
section
/-! DEFINITION. The statements for the provers, from the numbered rules of spec/. A next state is compared with the state
before it by one equation per instruction: every field not named in it is unchanged, and memory is compared byte by byte. -/

open Sys2Proof Sys2Proof.Machine

/-! ### Encoding -/

/-- R106 to R110: a word decodes to a command exactly when the command is well formed and the word is its encoding. -/
def Obligations.DecodeEncodeAgree : Prop :=
  ∀ (v : Word) (i : Instr), decode v = .command i ↔ (i.WellFormed ∧ encode i = v)

/-- R118: the word of every command, written out, decodes to the command and is what it encodes to. -/
def Obligations.CommandWords : Prop :=
  (∀ p ∈ [(0x01000000#32, Instr.rxStart), (0x02000000#32, Instr.rxRecvNext), (0x03000000#32, Instr.rxRelease),
      (0x04000000#32, Instr.rxRunningState), (0x05000000#32, Instr.rxIsRunning), (0x11000000#32, Instr.txStart),
      (0x12000040#32, Instr.txSend 64), (0x12000640#32, Instr.txSend 1600), (0x120005F2#32, Instr.txSend 1522),
      (0x13000000#32, Instr.txCommit), (0x14000000#32, Instr.txDemandPoll), (0x15000000#32, Instr.txIsRunning),
      (0x21000000#32, Instr.irqEnable), (0x22000000#32, Instr.irqHandle)],
    decode p.1 = .command p.2 ∧ encode p.2 = p.1) ∧
  ∀ len, len < 65536 → decode (0x12000000#32 + BitVec.ofNat 32 len) = .command (.txSend len) ∧
    encode (.txSend len) = 0x12000000#32 + BitVec.ofNat 32 len

/-- R109, R251: Decode is total: a word is Illegal exactly when its OP is unlisted, or its RSV is not 0, or its IMM is not 0
and its OP is not 0x12; and an Illegal word writes RES = 8 and RES_ADDR = 0 and nothing else. -/
def Obligations.IllegalWords : Prop :=
  ∀ v : Word,
    ((∃ why, decode v = .illegal why) ↔
      (opField v ∉ [0x01#8, 0x02#8, 0x03#8, 0x04#8, 0x05#8, 0x11#8, 0x12#8, 0x13#8, 0x14#8, 0x15#8, 0x21#8, 0x22#8] ∨
        rsvField v ≠ 0#8 ∨ (opField v ≠ 0x12#8 ∧ immField v ≠ 0#16))) ∧
    ∀ (why : Illegal) (s : State), decode v = .illegal why →
      execWord v s = .next { s with res := 0x00000008#32, resAddr := 0#32, resUse := .unread }

/-- R112, R113: the fields of RES, the outcome codes' numbers, and the primitive `return`. -/
def Obligations.ResultWordFields : Prop :=
  (∀ (c : Code) (i v : Nat),
    (resultWord c i v).extractLsb' 0 4 = codeBits c ∧ (resultWord c i v).extractLsb' 4 4 = 0#4 ∧
    ((resultWord c i v).extractLsb' 8 8).toNat = i % 256 ∧ ((resultWord c i v).extractLsb' 16 16).toNat = v % 65536) ∧
  (∀ (s : State) (c : Code) (i v : Nat) (a : Addr),
    reply s c i v a = .next { s with res := resultWord c i v, resAddr := a, resUse := .unread } ∧
    replyCode s c = reply s c 0 0 0#32) ∧
  (codeBits .ok).toNat = 0 ∧ (codeBits .wouldBlock).toNat = 1 ∧ (codeBits .corrupted).toNat = 2 ∧
  (codeBits .tooLong).toNat = 3 ∧ (codeBits .illegal).toNat = 8 ∧ (codeBits .state).toNat = 9 ∧
  (codeBits .busy).toNat = 10 ∧ (codeBits .noToken).toNat = 11

/-! ### The step -/

/-- R105: where the CPU's write of `v` to CMD is the next move and the CPU agent can step, the step executes Decode(v): the
command's meaning, or Illegal's. The rest of the agenda stays, so that commands run in the order the CPU writes them. That the
step starts from State.redraw, the bytes a racing write has touched drawn afresh, is the model's form of R69 (log 18); with no
fault recorded nothing is drawn. The agenda is the model's too (log 2). -/
def Obligations.StepRunsDecodedCommand : Prop :=
  ∀ (s : State) (v : Word) (rest : List Move), configOk s.cfg = true → s.cpuFree →
    s.agenda = Move.cpu (.write s.cfg.dreBase .word v) :: rest →
    (∀ i, decode v = .command i → step s = exec i (State.redraw { s with agenda := rest })) ∧
    (∀ why, decode v = .illegal why → step s = execIllegal (State.redraw { s with agenda := rest })) ∧
    (s.faults = [] → State.redraw { s with agenda := rest } = { s with agenda := rest }) ∧
    ∃ t, step s = .next t ∧ t.agenda = rest

/-- Log 2: the word placed by withFetchWord is the one the very next step executes. -/
def Obligations.PlacedWordRunsNext : Prop :=
  ∀ (s : State) (w : Nat), configOk s.cfg = true → w < 2 ^ 32 →
    step (s.withFetchWord 32 w) =
      execWord (BitVec.ofNat 32 w) (State.redraw { s with boot := .done, cpuStuck := false })

/-- R8, R9, R255: a configuration is well formed exactly when the sizes are in range and the regions are 4-aligned, inside
the address space and pairwise disjoint (the port inside the space too, log 5) and the fields of DescLayout do not overlap
(log 4); the default DescLayout never does, for any CAP of R9; any other configuration is refused. -/
def Obligations.ConfigurationCheck : Prop :=
  (∀ s : State, configOk s.cfg = false → step s = .refused .configRefused) ∧
  (∀ c : Config, c.layout = DescLayout.default → c.cap ≤ 8191 → layoutOk c = true) ∧
  ∀ c : Config, configOk c = true ↔
    ((∀ r, 1 ≤ ringSize c r ∧ ringSize c r ≤ 256) ∧ c.cap ≤ 8191 ∧ layoutOk c = true ∧
      c.dreBase.toNat % 4 = 0 ∧ c.dreBase.toNat + 12 ≤ 2 ^ 32 ∧
      (∀ r i, i < ringSize c r →
        (descAddr c r i).toNat % 4 = 0 ∧ (descAddr c r i).toNat + 16 ≤ 2 ^ 32 ∧
        (bufAddr c r i).toNat % 4 = 0 ∧ (bufAddr c r i).toNat + c.cap ≤ 2 ^ 32 ∧
        (c.dreBase.toNat + 12 ≤ (descAddr c r i).toNat ∨ (descAddr c r i).toNat + 16 ≤ c.dreBase.toNat) ∧
        (c.dreBase.toNat + 12 ≤ (bufAddr c r i).toNat ∨ (bufAddr c r i).toNat + c.cap ≤ c.dreBase.toNat)) ∧
      (∀ r q i j, i < ringSize c r → j < ringSize c q →
        ((descAddr c r i).toNat + 16 ≤ (bufAddr c q j).toNat ∨
          (bufAddr c q j).toNat + c.cap ≤ (descAddr c r i).toNat) ∧
        ((r ≠ q ∨ i ≠ j) →
          ((descAddr c r i).toNat + 16 ≤ (descAddr c q j).toNat ∨
            (descAddr c q j).toNat + 16 ≤ (descAddr c r i).toNat) ∧
          ((bufAddr c r i).toNat + c.cap ≤ (bufAddr c q j).toNat ∨
            (bufAddr c q j).toNat + c.cap ≤ (bufAddr c r i).toNat))))

/-- R250: every command completes in one step and reports its outcome as the CODE of RES; no command writes an output
event, the CPU's record, a fault, whether the CPU is stuck, the boot phase, the parameters or the model's own fields. -/
def Obligations.EveryCommandCompletes : Prop :=
  ∀ (i : Instr) (s : State), ∃ t, exec i s = .next t ∧ t.resUse = .unread ∧
    (∃ c : Code, t.res.extractLsb' 0 4 = codeBits c) ∧
    t.cfg = s.cfg ∧ t.events = s.events ∧ t.reads = s.reads ∧ t.faults = s.faults ∧
    t.cpuStuck = s.cpuStuck ∧ t.boot = s.boot ∧ t.agenda = s.agenda ∧ t.draws = s.draws

/-! ### Receive commands -/

/-- R140, R141: RX_START of a ring not started links every descriptor, hands every entry to DMA, sets the base address and
the cursors, enables the engine and leaves it fetching; no byte outside the Rx descriptors changes. RX_START of a started
ring answers STATE and changes nothing else. The descriptor words are those of the DescLayout parameter, and in the default
DescLayout the ones R94 writes out. -/
def Obligations.RxStartLinksTheRing : Prop :=
  decode 0x01000000#32 = .command .rxStart ∧
  (∀ s : State, s.dmaomr.sr = true → ∃ t, exec .rxStart s = .next t ∧ OnlyOutcome s t .state) ∧
  ∀ s : State, configOk s.cfg = true → s.dmaomr.sr = false →
    ∃ t, exec .rxStart s = .next t ∧ HasResult t .ok 0 0 0#32 ∧
      (∀ i, i < ringSize s.cfg .rx →
        t.desc .rx i 0 = rxW0Dma s.cfg ∧ t.ownedByDma .rx i = true ∧ t.desc .rx i 1 = rxW1 s.cfg i ∧
        (s.cfg.layout = DescLayout.default →
          t.desc .rx i 0 = 0x80000000#32 ∧
          t.desc .rx i 1 = 0x00004000#32 ||| BitVec.ofNat 32 s.cfg.cap |||
            (if i = ringSize s.cfg .rx - 1 then 0x00008000#32 else 0#32)) ∧
        t.desc .rx i 2 = bufAddr s.cfg .rx i ∧
        t.desc .rx i 3 = descAddr s.cfg .rx ((i + 1) % ringSize s.cfg .rx)) ∧
      (∀ x, OutsideDescs s.cfg .rx x → t.byteAt x = s.byteAt x) ∧
      t = { s with
        res := t.res, resAddr := t.resAddr, resUse := .unread, mem := t.mem, rxNext := 0, rxToken := none,
        dmardlar := descAddr s.cfg .rx 0, rxDma := 0, dmaomr := { s.dmaomr with sr := true },
        dmasr := { s.dmasr with rps := 0b001#3 } }

/-- R91, R143: the fields of an Rx word 0 and its validity, at the places DescLayout gives and, in the default DescLayout, at
those of R90 and R91 (OWN of a Tx word 0 too, R95); and validity's consequence: an OK outcome never reports a length above
CAP. -/
def Obligations.RxValidity : Prop :=
  (∀ (c : Config) (w : Word),
    frameLen c w = (w.extractLsb' c.layout.rx.frameLength.lo c.layout.rx.frameLength.width).toNat ∧
    (frameError c w = true ↔ ∃ b ∈ c.layout.rx.errors, w.getLsbD b = true) ∧
    (wholeFrame c w = true ↔
      w.getLsbD c.layout.rx.firstSegment = true ∧ w.getLsbD c.layout.rx.lastSegment = true) ∧
    (rxValid c w = true ↔
      frameError c w = false ∧ wholeFrame c w = true ∧ 1 ≤ frameLen c w ∧ frameLen c w ≤ c.cap)) ∧
  (∀ (c : Config) (w : Word), c.layout = DescLayout.default →
    frameLen c w = (w.extractLsb' 16 14).toNat ∧ (frameError c w = true ↔ w &&& 0x0000D85A#32 ≠ 0#32) ∧
    (wholeFrame c w = true ↔ w.getLsbD 9 = true ∧ w.getLsbD 8 = true) ∧
    ∀ r, ownBit c r w = w.getLsbD 31) ∧
  ∀ s t : State, exec .rxRecvNext s = .next t → t.res.extractLsb' 0 4 = 0#4 →
    (t.res.extractLsb' 16 16).toNat ≤ s.cfg.cap

/-- R142, R145, R146, R152: the outcomes of RX_RECV_NEXT, in the order checked. STATE, BUSY and WOULD_BLOCK write the
result registers and nothing else. On a CPU-owned valid entry it opens a window of the declared length, advances the
cursor by one modulo NR, and changes no byte of memory. On a CPU-owned entry that is not valid it answers CORRUPTED, gives
the entry back to DMA, un-parks a suspended receive process, advances the cursor and opens no window. -/
def Obligations.RxRecvNextOutcomes : Prop :=
  decode 0x02000000#32 = .command .rxRecvNext ∧
  (∀ s : State, s.dmaomr.sr = false → ∃ t, exec .rxRecvNext s = .next t ∧ OnlyOutcome s t .state) ∧
  (∀ s : State, s.dmaomr.sr = true → s.rxToken ≠ none → ∃ t, exec .rxRecvNext s = .next t ∧ OnlyOutcome s t .busy) ∧
  (∀ s : State, s.dmaomr.sr = true → s.rxToken = none → s.ownedByDma .rx s.rxNext = true →
    ∃ t, exec .rxRecvNext s = .next t ∧ OnlyOutcome s t .wouldBlock) ∧
  (∀ (s : State) (w0 : Word), s.dmaomr.sr = true → s.rxToken = none → s.desc .rx s.rxNext 0 = w0 →
    ownBit s.cfg .rx w0 = false → rxValid s.cfg w0 = true →
    ∃ t, exec .rxRecvNext s = .next t ∧
      HasResult t .ok s.rxNext (frameLen s.cfg w0) (bufAddr s.cfg .rx s.rxNext) ∧
      t = { s with
        res := t.res, resAddr := t.resAddr, resUse := .unread,
        rxToken := some { index := s.rxNext, len := frameLen s.cfg w0 },
        rxNext := (s.rxNext + 1) % ringSize s.cfg .rx }) ∧
  (∀ (s : State) (w0 : Word), configOk s.cfg = true → s.rxNext < ringSize s.cfg .rx →
    s.dmaomr.sr = true → s.rxToken = none → s.desc .rx s.rxNext 0 = w0 → ownBit s.cfg .rx w0 = false →
    rxValid s.cfg w0 = false →
    ∃ t, exec .rxRecvNext s = .next t ∧ HasResult t .corrupted s.rxNext 0 0#32 ∧
      t.desc .rx s.rxNext 0 = rxW0Dma s.cfg ∧ t.ownedByDma .rx s.rxNext = true ∧
      (s.cfg.layout = DescLayout.default → t.desc .rx s.rxNext 0 = 0x80000000#32) ∧
      SameOutside s t (descAddr s.cfg .rx s.rxNext).toNat 4 ∧
      t = { s with
        res := t.res, resAddr := t.resAddr, resUse := .unread, mem := t.mem,
        dmasr := { s.dmasr with rps := if s.dmasr.rps = 0b100#3 then 0b001#3 else s.dmasr.rps },
        rxNext := (s.rxNext + 1) % ringSize s.cfg .rx })

/-- R147: RX_RELEASE gives the window's entry back to DMA, un-parks a suspended receive process and closes the window; with
no window it answers NO_TOKEN and changes nothing else. -/
def Obligations.RxReleaseHandsBack : Prop :=
  decode 0x03000000#32 = .command .rxRelease ∧
  (∀ (s : State) (w : Window), configOk s.cfg = true → s.rxToken = some w → w.index < ringSize s.cfg .rx →
    ∃ t, exec .rxRelease s = .next t ∧ HasResult t .ok w.index 0 0#32 ∧
      t.desc .rx w.index 0 = rxW0Dma s.cfg ∧ t.ownedByDma .rx w.index = true ∧
      (s.cfg.layout = DescLayout.default → t.desc .rx w.index 0 = 0x80000000#32) ∧
      SameOutside s t (descAddr s.cfg .rx w.index).toNat 4 ∧
      t = { s with
        res := t.res, resAddr := t.resAddr, resUse := .unread, mem := t.mem,
        dmasr := { s.dmasr with
          rps := if s.dmaomr.sr = true ∧ s.dmasr.rps = 0b100#3 then 0b001#3 else s.dmasr.rps },
        rxToken := none }) ∧
  (∀ s : State, s.rxToken = none → ∃ t, exec .rxRelease s = .next t ∧ OnlyOutcome s t .noToken)

/-- R103, R115, R149, R150, R179: the reports of both rings, for each value of RPS or TPS, 0 to 7 in order; they change nothing
but the result registers. -/
def Obligations.RunningReports : Prop :=
  decode 0x04000000#32 = .command .rxRunningState ∧ decode 0x05000000#32 = .command .rxIsRunning ∧
  decode 0x15000000#32 = .command .txIsRunning ∧
  ∀ s : State,
    (∃ t, exec .rxRunningState s = .next t ∧
      t = { s with res := t.res, resAddr := 0#32, resUse := .unread } ∧
      [0x00000000#32, 0x00010000#32, 0x00030000#32, 0x00010000#32, 0x00020000#32, 0x00010000#32, 0x00030000#32,
        0x00010000#32][s.dmasr.rps.toNat]? = some t.res) ∧
    (∃ t, exec .rxIsRunning s = .next t ∧
      t = { s with res := t.res, resAddr := 0#32, resUse := .unread } ∧
      [0x00000000#32, 0x00010000#32, 0x00000000#32, 0x00010000#32, 0x00000000#32, 0x00010000#32, 0x00000000#32,
        0x00010000#32][s.dmasr.rps.toNat]? = some t.res) ∧
    (∃ t, exec .txIsRunning s = .next t ∧
      t = { s with res := t.res, resAddr := 0#32, resUse := .unread } ∧
      [0x00000000#32, 0x00010000#32, 0x00010000#32, 0x00010000#32, 0x00000000#32, 0x00000000#32, 0x00000000#32,
        0x00010000#32][s.dmasr.tps.toNat]? = some t.res)

/-! ### Transmit commands -/

/-- R170, R171: TX_START of a ring not started links every descriptor CPU-owned, sets the base address and the cursors,
enables the engine and leaves it fetching; no byte outside the Tx descriptors changes. TX_START of a started ring answers
STATE and changes nothing else. Word 0 is that of the DescLayout parameter, and in the default DescLayout the one R96 writes
out. -/
def Obligations.TxStartLinksTheRing : Prop :=
  decode 0x11000000#32 = .command .txStart ∧
  (∀ s : State, s.dmaomr.st = true → ∃ t, exec .txStart s = .next t ∧ OnlyOutcome s t .state) ∧
  ∀ s : State, configOk s.cfg = true → s.dmaomr.st = false →
    ∃ t, exec .txStart s = .next t ∧ HasResult t .ok 0 0 0#32 ∧
      (∀ i, i < ringSize s.cfg .tx →
        t.desc .tx i 0 = txCtrl s.cfg i ∧
        (s.cfg.layout = DescLayout.default →
          t.desc .tx i 0 = (if i = ringSize s.cfg .tx - 1 then 0x70300000#32 else 0x70100000#32)) ∧
        t.ownedByDma .tx i = false ∧ t.desc .tx i 1 = 0#32 ∧
        t.desc .tx i 2 = bufAddr s.cfg .tx i ∧
        t.desc .tx i 3 = descAddr s.cfg .tx ((i + 1) % ringSize s.cfg .tx)) ∧
      (∀ x, OutsideDescs s.cfg .tx x → t.byteAt x = s.byteAt x) ∧
      t = { s with
        res := t.res, resAddr := t.resAddr, resUse := .unread, mem := t.mem, txNext := 0, txToken := none,
        dmatdlar := descAddr s.cfg .tx 0, txDma := 0, dmaomr := { s.dmaomr with st := true },
        dmasr := { s.dmasr with tps := 0b001#3 } }

/-- R172, R173: the outcomes of TX_SEND, in the order checked. STATE, BUSY, TOO_LONG and WOULD_BLOCK change nothing but the
result registers. On a CPU-owned entry, for every length up to CAP, it opens a window of that length and changes no
descriptor, no cursor and no byte of memory. -/
def Obligations.TxSendOutcomes : Prop :=
  ∀ (s : State) (len : Nat),
    (len < 65536 → decode (0x12000000#32 ||| BitVec.ofNat 32 len) = .command (.txSend len)) ∧
    (s.dmaomr.st = false → ∃ t, exec (.txSend len) s = .next t ∧ OnlyOutcome s t .state) ∧
    (s.dmaomr.st = true → s.txToken ≠ none → ∃ t, exec (.txSend len) s = .next t ∧ OnlyOutcome s t .busy) ∧
    (s.dmaomr.st = true → s.txToken = none → s.cfg.cap < len →
      ∃ t, exec (.txSend len) s = .next t ∧ OnlyOutcome s t .tooLong) ∧
    (s.dmaomr.st = true → s.txToken = none → len ≤ s.cfg.cap → s.ownedByDma .tx s.txNext = true →
      ∃ t, exec (.txSend len) s = .next t ∧ OnlyOutcome s t .wouldBlock) ∧
    (s.dmaomr.st = true → s.txToken = none → len ≤ s.cfg.cap → s.ownedByDma .tx s.txNext = false →
      ∃ t, exec (.txSend len) s = .next t ∧ HasResult t .ok s.txNext len (bufAddr s.cfg .tx s.txNext) ∧
        t = { s with
          res := t.res, resAddr := t.resAddr, resUse := .unread,
          txToken := some { index := s.txNext, len := len } })

/-- R175: TX_COMMIT writes the length and word 0 with OWN = 1, advances the cursor and closes the window; it issues no
poll demand; with no window it answers NO_TOKEN and changes nothing else. -/
def Obligations.TxCommitHandsOver : Prop :=
  decode 0x13000000#32 = .command .txCommit ∧
  (∀ (s : State) (w : Window), configOk s.cfg = true → s.txToken = some w → w.index < ringSize s.cfg .tx →
    ∃ t, exec .txCommit s = .next t ∧ HasResult t .ok w.index w.len 0#32 ∧
      t.desc .tx w.index 1 = txW1 s.cfg w.len ∧
      t.desc .tx w.index 0 = txCtrl s.cfg w.index ||| txOwn s.cfg ∧
      (s.cfg.layout = DescLayout.default →
        t.desc .tx w.index 1 = BitVec.ofNat 32 w.len ∧
        t.desc .tx w.index 0 = (if w.index = ringSize s.cfg .tx - 1 then 0xF0300000#32 else 0xF0100000#32)) ∧
      t.ownedByDma .tx w.index = true ∧
      SameOutside s t (descAddr s.cfg .tx w.index).toNat 8 ∧
      t = { s with
        res := t.res, resAddr := t.resAddr, resUse := .unread, mem := t.mem,
        txNext := (w.index + 1) % ringSize s.cfg .tx, txToken := none }) ∧
  (∀ s : State, s.txToken = none → ∃ t, exec .txCommit s = .next t ∧ OnlyOutcome s t .noToken)

/-- R177, R221: TX_DEMAND_POLL answers OK in every state and turns Suspended into fetching on a started ring; otherwise it
changes nothing but the result registers. -/
def Obligations.TxDemandPollUnparks : Prop :=
  decode 0x14000000#32 = .command .txDemandPoll ∧
  ∀ s : State, ∃ t, exec .txDemandPoll s = .next t ∧ HasResult t .ok 0 0 0#32 ∧
    t = { s with
      res := t.res, resAddr := t.resAddr, resUse := .unread,
      dmasr := { s.dmasr with
        tps := if s.dmaomr.st = true ∧ s.dmasr.tps = 0b110#3 then 0b001#3 else s.dmasr.tps } }

/-- R178: a second TX_DEMAND_POLL with no step between the two leaves the block as the first left it; and where the entry at
the DMA cursor is CPU-owned and the transmit process suspended, a poll and TXDMA's fetch after it leave the block as it was
but for the result registers. -/
def Obligations.TxDemandPollIdempotent : Prop :=
  ∀ s t : State, exec .txDemandPoll s = .next t →
    exec .txDemandPoll t = .next t ∧
    (s.dmaomr.st = true → s.dmasr.tps = 0b110#3 → s.ownedByDma .tx s.txDma = false → s.raced .tx s.txDma = false →
      dmaStep .txFetch t = { s with res := 0x00000000#32, resAddr := 0#32, resUse := .unread })

/-- R215, R70: in a state that meets the block's invariant, a step that records no fault changes no byte of the buffer of a
DMA-owned Tx entry, and on a started ring not its word 1, which holds the length, either. -/
def Obligations.TxBufferStableWhileDmaOwns : Prop :=
  ∀ (s t : State) (i : Nat), s.Inv → step s = .next t → t.faults = [] → i < ringSize s.cfg .tx →
    s.ownedByDma .tx i = true →
    (∀ k, k < s.cfg.cap →
      t.byteAt (bufAddr s.cfg .tx i + BitVec.ofNat 32 k) = s.byteAt (bufAddr s.cfg .tx i + BitVec.ofNat 32 k)) ∧
    (s.dmaomr.st = true → t.desc .tx i 1 = s.desc .tx i 1)

/-! ### Interrupts -/

/-- R241, R104: IRQ_ENABLE sets the three enables, DMAIER = 0x0001_0041, and changes nothing else. -/
def Obligations.IrqEnableSetsEnables : Prop :=
  decode 0x21000000#32 = .command .irqEnable ∧
  ∀ s : State, ∃ t, exec .irqEnable s = .next t ∧ HasResult t .ok 0 0 0#32 ∧ t.dmaierWord = 0x00010041#32 ∧
    t.irq = (s.dmasr.rs || s.dmasr.ts) ∧
    t = { s with
      res := t.res, resAddr := t.resAddr, resUse := .unread,
      dmaier := { tie := true, rie := true, nise := true } }

/-- R243: IRQ_HANDLE clears both latches, so NIS and IRQ are 0, and changes nothing else. -/
def Obligations.IrqHandleClearsLatches : Prop :=
  decode 0x22000000#32 = .command .irqHandle ∧
  ∀ s : State, ∃ t, exec .irqHandle s = .next t ∧ HasResult t .ok 0 0 0#32 ∧ t.nis = false ∧ t.irq = false ∧
    t = { s with
      res := t.res, resAddr := t.resAddr, resUse := .unread,
      dmasr := { s.dmasr with rs := false, ts := false } }

/-- R36, R101, R102, R104: the derived signals and every bit of the register words. -/
def Obligations.RegisterWords : Prop :=
  ∀ s : State,
    (s.nis = true ↔ (s.dmasr.ts = true ∧ s.dmaier.tie = true) ∨ (s.dmasr.rs = true ∧ s.dmaier.rie = true)) ∧
    (s.irq = true ↔ s.dmaier.nise = true ∧ s.nis = true) ∧
    (∀ b, b < 32 → s.dmaomrWord.getLsbD b =
      (if b = 1 then s.dmaomr.sr else if b = 13 then s.dmaomr.st else false)) ∧
    (∀ b, b < 32 → s.dmasrWord.getLsbD b =
      (if b = 0 then s.dmasr.ts else if b = 6 then s.dmasr.rs else if b = 16 then s.nis
        else if 17 ≤ b ∧ b ≤ 19 then s.dmasr.rps.getLsbD (b - 17)
        else if 20 ≤ b ∧ b ≤ 22 then s.dmasr.tps.getLsbD (b - 20) else false)) ∧
    (∀ b, b < 32 → s.dmaierWord.getLsbD b =
      (if b = 0 then s.dmaier.tie else if b = 6 then s.dmaier.rie else if b = 16 then s.dmaier.nise else false))

/-- R27, R243, R257: with no race recorded, only IRQ_HANDLE, and the platform's soft reset, clear a latch. -/
def Obligations.OnlyIrqHandleClearsLatches : Prop :=
  ∀ (m : Move) (s t : State), s.faults = [] → perform m s = .next t →
    ((s.dmasr.rs = true ∧ t.dmasr.rs = false) ∨ (s.dmasr.ts = true ∧ t.dmasr.ts = false)) →
    m = Move.cpu (.write s.cfg.dreBase .word 0x22000000#32) ∨ m = Move.boot (.check true)

/-- R24, R25, R28: only RX_START writes DMARDLAR, only TX_START DMATDLAR, only IRQ_ENABLE DMAIER, each with the value the
rule gives; the platform's soft reset apart. That a DMA step on a raced entry, which R69 leaves unconstrained, writes none of the
three is the model's choice (log 18). -/
def Obligations.WhoWritesBasesAndEnables : Prop :=
  ∀ (m : Move) (s t : State), perform m s = .next t → m ≠ Move.boot (.check true) →
    (t.dmardlar ≠ s.dmardlar →
      m = Move.cpu (.write s.cfg.dreBase .word 0x01000000#32) ∧ t.dmardlar = descAddr s.cfg .rx 0) ∧
    (t.dmatdlar ≠ s.dmatdlar →
      m = Move.cpu (.write s.cfg.dreBase .word 0x11000000#32) ∧ t.dmatdlar = descAddr s.cfg .tx 0) ∧
    (t.dmaier ≠ s.dmaier →
      m = Move.cpu (.write s.cfg.dreBase .word 0x21000000#32) ∧
        t.dmaier = { tie := true, rie := true, nise := true })

/-! ### DMA steps -/

/-- R202, R212: RX_FETCH and TX_FETCH, enabled and on an entry with no race recorded, read OWN at the DMA cursor and write RPS,
or TPS, only. -/
def Obligations.FetchReadsOwner : Prop :=
  ∀ s : State,
    (s.dmaomr.sr = true → s.dmasr.rps = 0b001#3 → s.raced .rx s.rxDma = false →
      perform (.dma .rxFetch) s = .next { s with
        dmasr := { s.dmasr with rps := if s.ownedByDma .rx s.rxDma = true then 0b011#3 else 0b100#3 } }) ∧
    (s.dmaomr.st = true → s.dmasr.tps = 0b001#3 → s.raced .tx s.txDma = false →
      perform (.dma .txFetch) s = .next { s with
        dmasr := { s.dmasr with tps := if s.ownedByDma .tx s.txDma = true then 0b011#3 else 0b110#3 } })

/-- R205 to R207: RX_DEPOSIT of `frame`, enabled and on an entry with no race recorded, writes its first CAP bytes into the
entry's buffer and word 0 with the drawn status, the length saturated at FL's largest value (0x3FFF in the default DescLayout),
FS = LS = 1 and OWN = 0; it latches RS, advances the DMA cursor by one modulo NR, goes back to fetching, and changes nothing
else. -/
def Obligations.RxDepositWritesFrame : Prop :=
  ∀ (s : State) (frame : List Byte) (st : Word), configOk s.cfg = true → s.rxDma < ringSize s.cfg .rx →
    s.desc .rx s.rxDma 2 = bufAddr s.cfg .rx s.rxDma → s.dmaomr.sr = true → s.dmasr.rps = 0b011#3 →
    s.raced .rx s.rxDma = false →
    ∃ t, perform (.dma (.rxDeposit frame st)) s = .next t ∧
      (∀ k, k < frame.length → k < s.cfg.cap →
        some (t.byteAt (bufAddr s.cfg .rx s.rxDma + BitVec.ofNat 32 k)) = frame[k]?) ∧
      t.desc .rx s.rxDma 0 = rxDepositW0 s.cfg frame.length st ∧
      frameLen s.cfg (t.desc .rx s.rxDma 0) = min frame.length (flMax s.cfg) ∧
      wholeFrame s.cfg (t.desc .rx s.rxDma 0) = true ∧
      (s.cfg.layout = DescLayout.default → t.desc .rx s.rxDma 0 =
        (st &&& 0x4000FCFF#32) ||| (BitVec.ofNat 32 (min frame.length 0x3FFF) <<< 16) ||| 0x00000300#32) ∧
      t.ownedByDma .rx s.rxDma = false ∧
      (∀ x : Addr,
        (x.toNat < (bufAddr s.cfg .rx s.rxDma).toNat ∨
          (bufAddr s.cfg .rx s.rxDma).toNat + min frame.length s.cfg.cap ≤ x.toNat) →
        (x.toNat < (descAddr s.cfg .rx s.rxDma).toNat ∨ (descAddr s.cfg .rx s.rxDma).toNat + 4 ≤ x.toNat) →
        t.byteAt x = s.byteAt x) ∧
      t = { s with
        mem := t.mem, dmasr := { s.dmasr with rs := true, rps := 0b001#3 },
        rxDma := (s.rxDma + 1) % ringSize s.cfg .rx }

/-- R69, R255: no step clears a recorded fault; and what a race leaves unconstrained, in the model's own form (log 18): an enabled
DMA step on a raced entry is the free one; every step starts from State.redraw, in which each byte a racing write has touched
takes a fresh free value, every other byte keeping its own. Which move a step takes is the model's too (log 2, log 3): the
agenda's first that can be taken, the moves of a CPU agent that cannot step waiting in it; else a free DMA move. -/
def Obligations.FaultsAreNeverCleared : Prop :=
  (∀ s t : State, step s = .next t → ∃ l, t.faults = s.faults ++ l) ∧
  (∀ (m : Move) (s t : State), perform m s = .next t → ∃ l, t.faults = s.faults ++ l) ∧
  (∀ (s : State) (frame : List Byte) (st : Word),
    (s.raced .rx s.rxDma = true → s.dmaomr.sr = true →
      (s.dmasr.rps = 0b001#3 → perform (.dma .rxFetch) s = .next s.racedRx) ∧
      (s.dmasr.rps = 0b011#3 → perform (.dma (.rxDeposit frame st)) s = .next s.racedRx)) ∧
    (s.raced .tx s.txDma = true → s.dmaomr.st = true →
      (s.dmasr.tps = 0b001#3 → perform (.dma .txFetch) s = .next s.racedTx) ∧
      (s.dmasr.tps = 0b011#3 → perform (.dma (.txClose st)) s = .next s.racedTx))) ∧
  (∀ (s : State) (m : Move) (waiting rest : List Move), configOk s.cfg = true → s.agenda = waiting ++ m :: rest →
    ((waiting = [] ∧ s.cpuFree) ∨ ((∀ x ∈ waiting, isCpuMove x = true) ∧ ¬ s.cpuFree ∧ isCpuMove m = false) ∨
      (waiting = [] ∧ isCpuMove m = false)) →
    step s = perform m (State.redraw { s with agenda := waiting ++ rest })) ∧
  (∀ s : State, configOk s.cfg = true → (s.agenda = [] ∨ ((∀ x ∈ s.agenda, isCpuMove x = true) ∧ ¬ s.cpuFree)) →
    step s = perform (.dma (Config.freeMove s.draws)) (State.redraw { s with draws := s.draws + 1 })) ∧
  ∀ (s : State) (x : Addr),
    (x ∈ s.touched → ∃ n, s.draws ≤ n ∧ n < s.redraw.draws ∧ s.redraw.byteAt x = Config.freeByte n) ∧
    (x ∉ s.touched → s.redraw.byteAt x = s.byteAt x)

/-- R214, R216 to R218: TX_CLOSE, enabled and on an entry with no race recorded, emits the TBS1 bytes of the entry's buffer,
writes word 0 with the control bits kept, the drawn status and OWN = 0, latches TS when IC is set, advances the DMA cursor by
one modulo NT, goes back to fetching, and changes nothing else. The fields are those of the DescLayout parameter, and in the
default DescLayout those of R95 to R97. -/
def Obligations.TxCloseEmitsFrame : Prop :=
  ∀ (s : State) (st : Word), configOk s.cfg = true → s.txDma < ringSize s.cfg .tx →
    s.dmaomr.st = true → s.dmasr.tps = 0b011#3 → s.raced .tx s.txDma = false →
    ∃ t, perform (.dma (.txClose st)) s = .next t ∧
      t.events = s.events ++ [{
        entry := s.txDma
        bytes := (List.range (txLen s.cfg (s.desc .tx s.txDma 1))).map fun k =>
          s.byteAt (s.desc .tx s.txDma 2 + BitVec.ofNat 32 k) }] ∧
      t.desc .tx s.txDma 0 = txCloseW0 s.cfg (s.desc .tx s.txDma 0) st ∧
      (s.cfg.layout = DescLayout.default →
        txLen s.cfg (s.desc .tx s.txDma 1) = ((s.desc .tx s.txDma 1).extractLsb' 0 13).toNat ∧
        icBit s.cfg (s.desc .tx s.txDma 0) = (s.desc .tx s.txDma 0).getLsbD 30 ∧
        t.desc .tx s.txDma 0 = (s.desc .tx s.txDma 0 &&& 0x7FF00000#32) ||| (st &&& 0x0003FFFF#32)) ∧
      t.ownedByDma .tx s.txDma = false ∧
      SameOutside s t (descAddr s.cfg .tx s.txDma).toNat 4 ∧
      t = { s with
        mem := t.mem, events := t.events,
        dmasr := { s.dmasr with
          ts := s.dmasr.ts || icBit s.cfg (s.desc .tx s.txDma 0), tps := 0b001#3 },
        txDma := (s.txDma + 1) % ringSize s.cfg .tx }

/-- Log 2, the model's choice: a DMA move whose step is not enabled is taken and changes nothing. R201, R203, R204, R208, R211
and R213 say only that no such step is enabled: while a ring is not started, while an agent is suspended, and in every process
state but the one the step is for. -/
def Obligations.DisabledDmaStepsDoNothing : Prop :=
  ∀ (s : State) (frame : List Byte) (st : Word),
    ((s.dmaomr.sr = false ∨ s.dmasr.rps ≠ 0b001#3) → perform (.dma .rxFetch) s = .next s) ∧
    ((s.dmaomr.sr = false ∨ s.dmasr.rps ≠ 0b011#3) → perform (.dma (.rxDeposit frame st)) s = .next s) ∧
    ((s.dmaomr.st = false ∨ s.dmasr.tps ≠ 0b001#3) → perform (.dma .txFetch) s = .next s) ∧
    ((s.dmaomr.st = false ∨ s.dmasr.tps ≠ 0b011#3) → perform (.dma (.txClose st)) s = .next s)

/-- R220: an Rx poll demand turns Suspended into fetching on a started ring and has no effect otherwise, whatever value is
written. -/
def Obligations.RxPollDemandUnparks : Prop :=
  ∀ (s : State) (v : Word),
    (s.dmaomr.sr = true → s.dmasr.rps = 0b100#3 →
      s.writeDmarpdr v = { s with dmasr := { s.dmasr with rps := 0b001#3 } }) ∧
    ((s.dmaomr.sr = false ∨ s.dmasr.rps ≠ 0b100#3) → s.writeDmarpdr v = s)

/-- R100, R207, R217: on a started ring of a state that meets the block's invariant, the silicon's linkage leads from entry i
to entry (i + 1) mod N. -/
def Obligations.LinkageIsCyclic : Prop :=
  ∀ s : State, s.Inv →
    (s.dmaomr.sr = true → ∀ i, i < ringSize s.cfg .rx →
      s.linkedNext .rx i = some (descAddr s.cfg .rx ((i + 1) % ringSize s.cfg .rx))) ∧
    (s.dmaomr.st = true → ∀ i, i < ringSize s.cfg .tx →
      s.linkedNext .tx i = some (descAddr s.cfg .tx ((i + 1) % ringSize s.cfg .tx)))

/-! ### The CPU's accesses -/

/-- R21, R22, R23: the three registers of the port: CMD reads 0; RES and RES_ADDR read what the last command wrote; before the
first command a read of either records the fault ResultBeforeCommand and goes on with some value (log 8); a write to RES or
RES_ADDR is ignored. -/
def Obligations.PortRegisters : Prop :=
  ∀ (s : State) (v : Word), configOk s.cfg = true → s.cpuFree →
    perform (.cpu (.read s.cfg.dreBase .word)) s =
      .next { s with reads := s.reads ++ [{ addr := s.cfg.dreBase, width := .word, value := 0#32 }] } ∧
    (s.commandDone = true →
      perform (.cpu (.read (s.cfg.dreBase + 4#32) .word)) s =
        .next { s with
          reads := s.reads ++ [{ addr := s.cfg.dreBase + 4#32, width := .word, value := s.res }], resUse := .read } ∧
      perform (.cpu (.read (s.cfg.dreBase + 8#32) .word)) s =
        .next { s with reads := s.reads ++ [{ addr := s.cfg.dreBase + 8#32, width := .word, value := s.resAddr }] }) ∧
    (s.commandDone = false → ∀ a, (a = s.cfg.dreBase + 4#32 ∨ a = s.cfg.dreBase + 8#32) →
      ∃ u, perform (.cpu (.read a .word)) s =
        .next { s with
          reads := s.reads ++ [{ addr := a, width := .word, value := u }]
          faults := s.faults ++ [.resultBeforeCommand], draws := s.draws + 4 }) ∧
    perform (.cpu (.write (s.cfg.dreBase + 4#32) .word v)) s = .next s ∧
    perform (.cpu (.write (s.cfg.dreBase + 8#32) .word v)) s = .next s

/-- R65, in the model's form (log 9, log 2): an access that touches the port and is not an aligned 32-bit access leaves the CPU
agent without a step: nothing of the block changes but the flag cpuStuck. After it no access of the CPU has an effect, a step
leaves the CPU's moves where they are, the command program does not end, and the DMA agents step as before. -/
def Obligations.OddPortAccessIsStuck : Prop :=
  (∀ (s : State) (a : Addr) (w : Width) (v : Word), configOk s.cfg = true → s.cpuFree →
    a.toNat + w.bytes ≤ 2 ^ 32 → a.toNat < s.cfg.dreBase.toNat + 12 → s.cfg.dreBase.toNat < a.toNat + w.bytes →
    (w ≠ .word ∨ a.toNat % 4 ≠ 0) →
    perform (.cpu (.read a w)) s = .next { s with cpuStuck := true } ∧
    perform (.cpu (.write a w v)) s = .next { s with cpuStuck := true }) ∧
  (∀ s : State, s.cpuStuck = true →
    (∀ x : CpuAccess, perform (.cpu x) s = .next s) ∧ s.programEnded = false ∧
    ∀ t, step s = .next t → t.cpuStuck = true ∧ t.cpuMoves = s.cpuMoves) ∧
  ∀ (s : State) (d : DmaMove) (b : Bool),
    dmaStep d { s with cpuStuck := b } = { dmaStep d s with cpuStuck := b }

/-- R69, R70, R255, R294, R295: a CPU write of any width, one of whose bytes lies in a descriptor, in an Rx buffer, or in a Tx
buffer outside the open window, records the fault RaceOnRing of that entry and goes on; it records only entries a byte of it
races on; no byte outside the access changes. That a write that races on several entries records each is the model's choice
(log 7). -/
def Obligations.RacingWriteFaults : Prop :=
  ∀ (s : State) (a : Addr) (w : Width) (v : Word) (r : Ring) (i k : Nat), configOk s.cfg = true → s.cpuFree →
    a.toNat + w.bytes ≤ 2 ^ 32 → OffPort s.cfg a w → k < w.bytes → RacesOn s r i (a.toNat + k) →
    ∃ t, perform (.cpu (.write a w v)) s = .next t ∧
      Recorded.raceOnRing r i a w ∈ t.faults ∧ t.raced r i = true ∧
      (∀ e ∈ t.faults, e ∈ s.faults ∨
        ∃ q j m, e = Recorded.raceOnRing q j a w ∧ m < w.bytes ∧ RacesOn s q j (a.toNat + m)) ∧
      SameOutside s t a.toNat w.bytes ∧
      t = { s with mem := t.mem, faults := t.faults, draws := s.draws + w.bytes }

/-- R69, U1, U2, D41: a CPU read of any width, one of whose bytes races, gives any value: every byte of it is a free value, also
where the byte itself does not race (log 7); the bits above them are 0 (log 14). It changes nothing but the CPU's record and the
count of draws. -/
def Obligations.RacingReadDraws : Prop :=
  ∀ (s : State) (a : Addr) (w : Width) (k : Nat), configOk s.cfg = true → s.cpuFree → a.toNat + w.bytes ≤ 2 ^ 32 →
    OffPort s.cfg a w → k < w.bytes → s.ReadRaces (a.toNat + k) →
    ∃ v, perform (.cpu (.read a w)) s =
        .next { s with
          reads := s.reads ++ [{ addr := a, width := w, value := v, rxBytes := s.rxWindowBytes a w v }]
          draws := s.draws + w.bytes } ∧
      v.toNat < 2 ^ (8 * w.bytes) ∧
      ∀ m, m < w.bytes → v.extractLsb' (8 * m) 8 = Config.freeByte (s.draws + m)

/-- R35, R64, R174: while a Tx window is open the CPU may write any bytes of it, at every width, little-endian; nothing else
changes. -/
def Obligations.WindowWrite : Prop :=
  ∀ (s : State) (w : Window) (k : Nat) (d : Width) (v : Word), configOk s.cfg = true → s.cpuFree →
    s.txToken = some w → w.index < ringSize s.cfg .tx → w.len ≤ s.cfg.cap → k + d.bytes ≤ w.len →
    ∃ t, perform (.cpu (.write (bufAddr s.cfg .tx w.index + BitVec.ofNat 32 k) d v)) s = .next t ∧
      (∀ m, m < d.bytes →
        t.byteAt (bufAddr s.cfg .tx w.index + BitVec.ofNat 32 (k + m)) = v.extractLsb' (8 * m) 8) ∧
      SameOutside s t ((bufAddr s.cfg .tx w.index).toNat + k) d.bytes ∧ t = { s with mem := t.mem }

/-- R34, R35, R64, R295, R285: while a window is open the CPU may read any bytes of it, at every width, and gets the bytes of
memory, little-endian; nothing else changes, and what it read from an Rx window is recorded byte by byte. That the bits above
the access are 0 is the model's choice (log 14), as is the record (log 13). -/
def Obligations.WindowRead : Prop :=
  ∀ (s : State) (r : Ring) (w : Window) (k : Nat) (d : Width), configOk s.cfg = true → s.cpuFree →
    s.window r = some w → w.index < ringSize s.cfg r → w.len ≤ s.cfg.cap → k + d.bytes ≤ w.len →
    ∃ v, perform (.cpu (.read (bufAddr s.cfg r w.index + BitVec.ofNat 32 k) d)) s =
        .next { s with
          reads := s.reads ++ [{
            addr := bufAddr s.cfg r w.index + BitVec.ofNat 32 k, width := d, value := v
            rxBytes := if r = .rx then s.bytesAt (bufAddr s.cfg r w.index + BitVec.ofNat 32 k) d.bytes else [] }] } ∧
      v.toNat < 2 ^ (8 * d.bytes) ∧
      ∀ m, m < d.bytes → v.extractLsb' (8 * m) 8 = s.byteAt (bufAddr s.cfg r w.index + BitVec.ofNat 32 (k + m))

/-- R61, R63: with no fault recorded, a CPU write of any width outside both rings and the port writes its bytes, little-endian,
and a read of that width at that address then gives them; nothing else changes. That the bits above the access are 0 is the
model's choice (log 14). -/
def Obligations.OrdinaryMemory : Prop :=
  ∀ (s : State) (a : Addr) (d : Width) (v : Word), configOk s.cfg = true → s.faults = [] → s.cpuFree →
    a.toNat + d.bytes ≤ 2 ^ 32 → (∀ k, k < d.bytes → locate s.cfg (a.toNat + k) = .plain) → OffPort s.cfg a d →
    ∃ t, perform (.cpu (.write a d v)) s = .next t ∧
      (∀ k, k < d.bytes → t.byteAt (a + BitVec.ofNat 32 k) = v.extractLsb' (8 * k) 8) ∧
      SameOutside s t a.toNat d.bytes ∧ t = { s with mem := t.mem } ∧
      perform (.cpu (.read a d)) t =
        .next { t with
          reads := t.reads ++ [{ addr := a, width := d, value := BitVec.ofNat 32 (v.toNat % 2 ^ (8 * d.bytes)) }] }

/-! ### Reset and boot -/

/-- R42, R280: the reset state, for every configuration, with the values the spec gives; no command has been executed and no fault
is recorded; memory holds any value; no DMA step is enabled and IRQ is 0. -/
def Obligations.ResetState : Prop :=
  ∀ c : Config,
    let s := State.resetFor c
    s.cfg = c ∧ s.commandDone = false ∧ s.faults = [] ∧ (∀ x : Addr, s.byteAt x = Config.powerOnByte x.toNat) ∧
    s.dmardlar = 0#32 ∧ s.dmatdlar = 0#32 ∧ s.dmaomr.sr = false ∧ s.dmaomr.st = false ∧
    s.dmasr.ts = false ∧ s.dmasr.rs = false ∧ s.dmasr.rps = 0b000#3 ∧ s.dmasr.tps = 0b000#3 ∧
    s.dmaierWord = 0#32 ∧ s.rxNext = 0 ∧ s.txNext = 0 ∧ s.rxDma = 0 ∧ s.txDma = 0 ∧
    s.rxToken = none ∧ s.txToken = none ∧ s.events = [] ∧ s.irq = false ∧
    s.rxFetchEnabled = false ∧ s.rxDepositEnabled = false ∧ s.txFetchEnabled = false ∧ s.txCloseEnabled = false

/-- R282: before its START a ring answers STATE, NO_TOKEN or a report of Stopped, a poll demand has no effect, and nothing but
the result registers changes. -/
def Obligations.BeforeStartARingIsInert : Prop :=
  ∀ s : State, s.ProcessOk → s.CursorsOk →
    (s.dmaomr.sr = false →
      (∃ t, exec .rxRecvNext s = .next t ∧ OnlyOutcome s t .state) ∧
      (∃ t, exec .rxRelease s = .next t ∧ OnlyOutcome s t .noToken) ∧
      (∃ t, exec .rxRunningState s = .next t ∧ OnlyOutcome s t .ok) ∧
      (∃ t, exec .rxIsRunning s = .next t ∧ OnlyOutcome s t .ok)) ∧
    (s.dmaomr.st = false →
      (∀ len, ∃ t, exec (.txSend len) s = .next t ∧ OnlyOutcome s t .state) ∧
      (∃ t, exec .txCommit s = .next t ∧ OnlyOutcome s t .noToken) ∧
      (∃ t, exec .txDemandPoll s = .next t ∧ OnlyOutcome s t .ok) ∧
      (∃ t, exec .txIsRunning s = .next t ∧ OnlyOutcome s t .ok))

/-- R281, R42, R286: before the first command, the platform's soft reset, when it completes, leaves the reset state for the same
parameters; memory is untouched, and so are the recorded faults, the CPU's own state and record, and the model's own fields.
After the first command no move of the platform or the facade changes anything. -/
def Obligations.SoftResetIsReset : Prop :=
  (∀ (s : State) (n : Nat), s.commandDone = false → s.boot = .waiting n →
    ∃ t, perform (.boot (.check true)) s = .next t ∧ SameBytes s t ∧
      t = { State.resetFor s.cfg with
        mem := s.mem, reads := s.reads, faults := s.faults, cpuStuck := s.cpuStuck, agenda := s.agenda,
        draws := s.draws }) ∧
  ∀ (s : State) (b : BootMove), s.commandDone = true → perform (.boot b) s = .next s

/-- R283: before the first command, with SOFT_RESET_BOUND = none the facade still waits after any number of unsuccessful checks;
with the bound k it waits after fewer than k and has given up after k or more; that the wait is moved by the environment's two
moves is the model's form (log 10). The last clause is the model's choice (log 10, log 2), of R283 only that a hang refutes a
claim that the run ends and that neither ring is started: while the facade waits or has given up no access of the CPU has an
effect, a step leaves the CPU's moves where they are, and the command program has not ended. -/
def Obligations.SoftResetBound : Prop :=
  (∀ (s : State) (n : Nat), s.commandDone = false → s.cfg.softResetBound = none →
    afterChecks n s = .next { s with boot := .waiting n }) ∧
  (∀ (s : State) (k n : Nat), s.commandDone = false → s.cfg.softResetBound = some k →
    afterChecks n s = .next { s with boot := if n < k then .waiting n else .failed }) ∧
  ∀ s : State, s.boot ≠ .done →
    (∀ x : CpuAccess, perform (.cpu x) s = .next s) ∧ s.programEnded = false ∧ s.quiescent = false ∧
    ∀ t, step s = .next t → t.cpuMoves = s.cpuMoves

/-- R285: the block is quiescent exactly when the command program has ended and RPS is 000, 011 or 100 and TPS is 000 or 110; an
ended program has read the RES of its last command. The rest of what an ended program is, is the model's: what is left of it is
the CPU's accesses in the agenda, all of them, also those after the last RES (log 2), and it needs a CPU agent that can step,
neither stuck (log 9) nor waiting for a boot or after a failed one (log 10). -/
def Obligations.QuiescentProcessStates : Prop :=
  ∀ s : State, s.ProcessOk →
    (s.programEnded = true ↔ s.cpuFree ∧ (∀ m ∈ s.agenda, ∀ x, m ≠ Move.cpu x) ∧ s.resUse ≠ .unread) ∧
    (s.quiescent = true ↔ s.programEnded = true ∧
      (s.dmasr.rps = 0b000#3 ∨ s.dmasr.rps = 0b011#3 ∨ s.dmasr.rps = 0b100#3) ∧
      (s.dmasr.tps = 0b000#3 ∨ s.dmasr.tps = 0b110#3))

/-! ### Invariants and whole-machine rules -/

/-- Every step keeps memory in its canonical form. -/
def Obligations.StepKeepsMemoryCanonical : Prop :=
  ∀ s t : State, Memory.wf s.mem = true → step s = .next t → Memory.wf t.mem = true

/-- R103, R200, R201, R210, R211: every step that ends with no fault recorded keeps the process states among those the block
produces, Stopped exactly while the ring is not started. -/
def Obligations.StepKeepsProcessStates : Prop :=
  ∀ s t : State, s.ProcessOk → step s = .next t → t.faults = [] → t.ProcessOk

/-- R230, R231, R41, R30 to R35: every step that ends with no fault recorded keeps the ring invariants, with the cursors, the
windows, the links and the process states they rest on. -/
def Obligations.StepKeepsRingInvariants : Prop :=
  ∀ s t : State, s.Inv → step s = .next t → t.faults = [] → t.Inv

/-- R230, R231, R284: every launch state (the reset state over any canonical memory, or one that steps reach from it, with no
fault recorded) meets the block's invariant and has canonical memory; the reset state is one. -/
def Obligations.LaunchMeetsInvariants : Prop :=
  (∀ s : State, s.Launch → s.Inv ∧ Memory.wf s.mem = true) ∧ State.reset.Launch

/-- R43, R26, R201, R211: no step changes the parameters, and no step but the platform's soft reset stops a started ring. That a
DMA step on a raced entry, which R69 leaves unconstrained, keeps SR and ST is the model's choice (log 18). -/
def Obligations.StartedRingsStayStarted : Prop :=
  ∀ (m : Move) (s t : State), perform m s = .next t →
    t.cfg = s.cfg ∧
    (m ≠ Move.boot (.check true) →
      (s.dmaomr.sr = true → t.dmaomr.sr = true) ∧ (s.dmaomr.st = true → t.dmaomr.st = true))

/-- R30 to R33, R145, R175, R176, R207, R217: in a state that meets the block's invariant, with no fault recorded, only RX_START
and RX_RECV_NEXT move the Rx cursor, only RX_START and RX_DEPOSIT the Rx DMA cursor, only TX_START and TX_COMMIT the Tx cursor,
only TX_START and TX_CLOSE the Tx DMA cursor; a START to 0, each of the others by one modulo the ring size; the platform's soft
reset apart. -/
def Obligations.WhoMovesTheCursors : Prop :=
  ∀ (m : Move) (s t : State), s.Inv → s.faults = [] → perform m s = .next t → m ≠ Move.boot (.check true) →
    (t.rxNext ≠ s.rxNext →
      (m = Move.cpu (.write s.cfg.dreBase .word 0x01000000#32) ∧ t.rxNext = 0) ∨
      (m = Move.cpu (.write s.cfg.dreBase .word 0x02000000#32) ∧ t.rxNext = (s.rxNext + 1) % ringSize s.cfg .rx)) ∧
    (t.rxDma ≠ s.rxDma →
      (m = Move.cpu (.write s.cfg.dreBase .word 0x01000000#32) ∧ t.rxDma = 0) ∨
      ((∃ frame st, m = Move.dma (.rxDeposit frame st)) ∧ t.rxDma = (s.rxDma + 1) % ringSize s.cfg .rx)) ∧
    (t.txNext ≠ s.txNext →
      (m = Move.cpu (.write s.cfg.dreBase .word 0x11000000#32) ∧ t.txNext = 0) ∨
      (m = Move.cpu (.write s.cfg.dreBase .word 0x13000000#32) ∧ s.txToken ≠ none ∧
        t.txNext = (s.txNext + 1) % ringSize s.cfg .tx)) ∧
    (t.txDma ≠ s.txDma →
      (m = Move.cpu (.write s.cfg.dreBase .word 0x11000000#32) ∧ t.txDma = 0) ∨
      ((∃ st, m = Move.dma (.txClose st)) ∧ t.txDma = (s.txDma + 1) % ringSize s.cfg .tx))

/-- R34, R35, R148, R293: a window stays open through every move but the command that closes it: RX_RELEASE, TX_COMMIT; the
platform's soft reset apart. That a DMA step on a raced entry, which R69 leaves unconstrained, keeps both windows is the model's
choice (log 18). -/
def Obligations.WindowsStayOpen : Prop :=
  ∀ (m : Move) (s t : State) (w : Window), s.CursorsOk → perform m s = .next t → m ≠ Move.boot (.check true) →
    (s.rxToken = some w → t.rxToken = some w ∨
      (m = Move.cpu (.write s.cfg.dreBase .word 0x03000000#32) ∧ t.rxToken = none)) ∧
    (s.txToken = some w → t.txToken = some w ∨
      (m = Move.cpu (.write s.cfg.dreBase .word 0x13000000#32) ∧ t.txToken = none))

/-- R41, R70, R224, R225: in a state that meets the block's invariant, with no fault recorded, a DMA step changes no byte of the
descriptor or the buffer of an entry the CPU owns, of either ring. -/
def Obligations.DmaLeavesCpuEntries : Prop :=
  ∀ (s t : State) (d : DmaMove) (r : Ring) (i : Nat) (x : Addr), s.Inv → s.faults = [] →
    perform (.dma d) s = .next t → i < ringSize s.cfg r → s.ownedByDma r i = false → InEntry s.cfg r i x → t.byteAt x = s.byteAt x

/-- R151, R225, R295: while an Rx window stays open no step that ends with no fault recorded changes a byte of its entry's
buffer. -/
def Obligations.OpenRxWindowIsStable : Prop :=
  ∀ (s t : State) (w : Window) (k : Nat), s.Inv → s.rxToken = some w → step s = .next t → t.faults = [] →
    t.rxToken = some w → k < s.cfg.cap →
    t.byteAt (bufAddr s.cfg .rx w.index + BitVec.ofNat 32 k) =
      s.byteAt (bufAddr s.cfg .rx w.index + BitVec.ofNat 32 k)

/-- R41: words 1 to 3 of an Rx descriptor of a started ring, and words 2 and 3 of a Tx descriptor of a started ring, are
changed by no step that ends with no fault recorded. -/
def Obligations.LinkWordsNeverRewritten : Prop :=
  ∀ s t : State, s.Inv → step s = .next t → t.faults = [] →
    (s.dmaomr.sr = true → ∀ i k, i < ringSize s.cfg .rx → 1 ≤ k → k < 4 → t.desc .rx i k = s.desc .rx i k) ∧
    (s.dmaomr.st = true → ∀ i k, i < ringSize s.cfg .tx → 2 ≤ k → k < 4 → t.desc .tx i k = s.desc .tx i k)

/-- R230, R231: in a state that meets the block's invariant, RX_RECV_NEXT with no window open answers WOULD_BLOCK exactly
when every Rx entry is DMA-owned, TX_SEND of a length up to CAP with no window open exactly when every Tx entry is
DMA-owned, and the receive process is suspended only when the CPU owns every Rx entry. -/
def Obligations.WouldBlockMeansEmptyOrFull : Prop :=
  ∀ s : State, s.Inv →
    (s.dmaomr.sr = true → s.rxToken = none →
      ((∃ t, exec .rxRecvNext s = .next t ∧ OnlyOutcome s t .wouldBlock) ↔
        ∀ i, i < ringSize s.cfg .rx → s.ownedByDma .rx i = true)) ∧
    (s.dmaomr.st = true → s.txToken = none → ∀ len, len ≤ s.cfg.cap →
      ((∃ t, exec (.txSend len) s = .next t ∧ OnlyOutcome s t .wouldBlock) ↔
        ∀ i, i < ringSize s.cfg .tx → s.ownedByDma .tx i = true)) ∧
    (s.dmaomr.sr = true → s.dmasr.rps = 0b100#3 → ∀ i, i < ringSize s.cfg .rx → s.ownedByDma .rx i = false)

/-- R180: from a started Tx ring whose entries are all CPU-owned with no window and no fault recorded, NT sends with no DMA step
between them complete, the next TX_SEND is WOULD_BLOCK with tx_next back at tx_dma, and once TXDMA has been polled, has fetched
and has closed the oldest entry, with no step between, the next TX_SEND is OK on that entry. -/
def Obligations.BackpressureAndRecovery : Prop :=
  ∀ (s : State) (lens : List Nat), s.Inv → s.faults = [] → s.dmaomr.st = true → s.txToken = none →
    (∀ i, i < ringSize s.cfg .tx → s.ownedByDma .tx i = false) → lens.length = ringSize s.cfg .tx →
    (∀ len ∈ lens, len ≤ s.cfg.cap) →
    ∃ t, SendsTo lens s t ∧ t.txNext = t.txDma ∧
      ∀ len, len ≤ s.cfg.cap →
        (∃ u, exec (.txSend len) t = .next u ∧ OnlyOutcome t u .wouldBlock) ∧
        ∀ (st : Word) (p : State), exec .txDemandPoll t = .next p →
          ∃ u, exec (.txSend len) (dmaStep (.txClose st) (dmaStep .txFetch p)) = .next u ∧
            HasResult u .ok t.txDma len (bufAddr s.cfg .tx t.txDma)

/-- R205, R142, R151, R230: a frame of 1 to CAP bytes deposited without an error bit, however many entries wait before it and
whether or not a window is open, is the frame RX_RECV_NEXT offers when the cursor comes to its entry, after any steps through
which the entry has stayed CPU-owned and no fault has been recorded: its length, its address and its bytes. -/
def Obligations.ReceivedFrameIsOffered : Prop :=
  ∀ (s u : State) (frame : List Byte) (st : Word), s.Inv → s.dmaomr.sr = true → s.dmasr.rps = 0b011#3 →
    st &&& rxErrMask s.cfg = 0#32 → 1 ≤ frame.length → frame.length ≤ s.cfg.cap →
    OwnerKept .rx s.rxDma false (dmaStep (.rxDeposit frame st) s) u → u.faults = [] →
    u.dmaomr.sr = true → u.rxToken = none → u.rxNext = s.rxDma →
    ∃ t, exec .rxRecvNext u = .next t ∧
      HasResult t .ok s.rxDma frame.length (bufAddr s.cfg .rx s.rxDma) ∧
      t.rxToken = some { index := s.rxDma, len := frame.length } ∧
      t.bytesAt (bufAddr s.cfg .rx s.rxDma) frame.length = frame

/-- R214, R215: when TXDMA closes the entry a TX_COMMIT flipped, after any steps through which the entry has stayed DMA-owned and
no fault has been recorded, it emits exactly the bytes the buffer held at the commit, as many as the window was long. -/
def Obligations.CommittedFrameIsSent : Prop :=
  ∀ (s t u : State) (w : Window) (st : Word), s.Inv → s.txToken = some w → exec .txCommit s = .next t →
    OwnerKept .tx w.index true t u → u.faults = [] → u.txDma = w.index → u.dmasr.tps = 0b011#3 →
    (dmaStep (.txClose st) u).events =
      u.events ++ [{ entry := w.index, bytes := s.bytesAt (bufAddr s.cfg .tx w.index) w.len }]

/-- R222, R223, R231: on a weakly fair run in which the platform does not reset the block and no fault is recorded, a DMA-owned
entry that TXDMA is about to fetch is closed after finitely many steps. -/
def Obligations.CommittedEntryIsEventuallyClosed : Prop :=
  ∀ (run : Nat → State) (moves : Nat → Move) (n : Nat), IsRun run moves → WeaklyFair run moves →
    (∀ m, isBootMove (moves m) = false) → (∀ m, (run m).faults = []) → (run 0).Inv → (run n).dmaomr.st = true →
    (run n).dmasr.tps = 0b001#3 → (run n).ownedByDma .tx (run n).txDma = true →
    ∃ m st frame, n ≤ m ∧ moves m = Move.dma (.txClose st) ∧ frame.entry = (run n).txDma ∧
      (run (m + 1)).events = (run m).events ++ [frame]

/-- R116, R117: with no fault recorded, the pseudo-instruction SEND of a frame that fits, on a CPU-owned entry with no window
open, leaves the entry with DMA, the length in word 1, the frame's bytes in the buffer, and the transmit process not suspended.
Two things are the model's choice of log 12: no DMA step is taken inside a pseudo-instruction, so that the entry is still
DMA-owned at the end, where R7 lets TXDMA close it meanwhile; and the "if OK" of the line is no CPU read of RES. -/
def Obligations.SendPseudoInstruction : Prop :=
  ∀ (s : State) (bytes : List Byte), s.Inv → s.faults = [] → s.cpuFree → s.dmaomr.st = true → s.txToken = none →
    bytes.length ≤ s.cfg.cap → s.ownedByDma .tx s.txNext = false →
    ∃ t, runLine (.send bytes.length bytes) s = .next t ∧ t.ownedByDma .tx s.txNext = true ∧
      t.desc .tx s.txNext 1 = txW1 s.cfg bytes.length ∧
      t.bytesAt (bufAddr s.cfg .tx s.txNext) bytes.length = bytes ∧
      t.txNext = (s.txNext + 1) % ringSize s.cfg .tx ∧ t.txToken = none ∧ t.dmasr.tps ≠ 0b110#3

/-- R262: RXDMA and TXDMA share no state: in a state that meets the block's invariant, with canonical memory and no fault
recorded, a step of the one and a step of the other give the same state in either order. -/
def Obligations.RxAndTxStepsCommute : Prop :=
  ∀ (s : State) (frame : List Byte) (rst tst : Word) (a b : DmaMove), s.Inv → Memory.wf s.mem = true → s.faults = [] →
    (a = .rxFetch ∨ a = .rxDeposit frame rst) → (b = .txFetch ∨ b = .txClose tst) →
    dmaStep a (dmaStep b s) = dmaStep b (dmaStep a s)
end

