-- ==== Sys2Proof/Laws/State.lean ====
section
/-! SUPPORT. Every field of State after each shared update: each conjunct is a simp lemma, so no later proof unfolds a record
update. -/

namespace Sys2Proof.Machine

/-- What the last action of a command changes (R111). -/
@[simp] theorem finish_fields (s : State) (c : Code) (i v : Nat) (a : Addr) :
    (s.finish c i v a).cfg = s.cfg ∧
    (s.finish c i v a).res = resultWord c i v ∧
    (s.finish c i v a).resAddr = a ∧
    (s.finish c i v a).resUse = .unread ∧
    (s.finish c i v a).dmardlar = s.dmardlar ∧
    (s.finish c i v a).dmatdlar = s.dmatdlar ∧
    (s.finish c i v a).dmaomr = s.dmaomr ∧
    (s.finish c i v a).dmasr = s.dmasr ∧
    (s.finish c i v a).dmaier = s.dmaier ∧
    (s.finish c i v a).rxNext = s.rxNext ∧
    (s.finish c i v a).txNext = s.txNext ∧
    (s.finish c i v a).rxDma = s.rxDma ∧
    (s.finish c i v a).txDma = s.txDma ∧
    (s.finish c i v a).rxToken = s.rxToken ∧
    (s.finish c i v a).txToken = s.txToken ∧
    (s.finish c i v a).mem = s.mem ∧
    (s.finish c i v a).events = s.events ∧
    (s.finish c i v a).reads = s.reads ∧
    (s.finish c i v a).faults = s.faults ∧
    (s.finish c i v a).cpuStuck = s.cpuStuck ∧
    (s.finish c i v a).boot = s.boot ∧
    (s.finish c i v a).agenda = s.agenda ∧
    (s.finish c i v a).draws = s.draws := by
  refine ⟨rfl, rfl, rfl, rfl, rfl, rfl, rfl, rfl, rfl, rfl, rfl, rfl, rfl, rfl, rfl, rfl, rfl, rfl, rfl, rfl, rfl, rfl, rfl⟩

/-- What setting RPS changes. -/
@[simp] theorem setRps_fields (s : State) (v : BitVec 3) :
    (s.setRps v).cfg = s.cfg ∧
    (s.setRps v).res = s.res ∧
    (s.setRps v).resAddr = s.resAddr ∧
    (s.setRps v).resUse = s.resUse ∧
    (s.setRps v).dmardlar = s.dmardlar ∧
    (s.setRps v).dmatdlar = s.dmatdlar ∧
    (s.setRps v).dmaomr = s.dmaomr ∧
    (s.setRps v).dmasr = { s.dmasr with rps := v } ∧
    (s.setRps v).dmaier = s.dmaier ∧
    (s.setRps v).rxNext = s.rxNext ∧
    (s.setRps v).txNext = s.txNext ∧
    (s.setRps v).rxDma = s.rxDma ∧
    (s.setRps v).txDma = s.txDma ∧
    (s.setRps v).rxToken = s.rxToken ∧
    (s.setRps v).txToken = s.txToken ∧
    (s.setRps v).mem = s.mem ∧
    (s.setRps v).events = s.events ∧
    (s.setRps v).reads = s.reads ∧
    (s.setRps v).faults = s.faults ∧
    (s.setRps v).cpuStuck = s.cpuStuck ∧
    (s.setRps v).boot = s.boot ∧
    (s.setRps v).agenda = s.agenda ∧
    (s.setRps v).draws = s.draws := by
  refine ⟨rfl, rfl, rfl, rfl, rfl, rfl, rfl, rfl, rfl, rfl, rfl, rfl, rfl, rfl, rfl, rfl, rfl, rfl, rfl, rfl, rfl, rfl, rfl⟩

/-- What setting TPS changes. -/
@[simp] theorem setTps_fields (s : State) (v : BitVec 3) :
    (s.setTps v).cfg = s.cfg ∧
    (s.setTps v).res = s.res ∧
    (s.setTps v).resAddr = s.resAddr ∧
    (s.setTps v).resUse = s.resUse ∧
    (s.setTps v).dmardlar = s.dmardlar ∧
    (s.setTps v).dmatdlar = s.dmatdlar ∧
    (s.setTps v).dmaomr = s.dmaomr ∧
    (s.setTps v).dmasr = { s.dmasr with tps := v } ∧
    (s.setTps v).dmaier = s.dmaier ∧
    (s.setTps v).rxNext = s.rxNext ∧
    (s.setTps v).txNext = s.txNext ∧
    (s.setTps v).rxDma = s.rxDma ∧
    (s.setTps v).txDma = s.txDma ∧
    (s.setTps v).rxToken = s.rxToken ∧
    (s.setTps v).txToken = s.txToken ∧
    (s.setTps v).mem = s.mem ∧
    (s.setTps v).events = s.events ∧
    (s.setTps v).reads = s.reads ∧
    (s.setTps v).faults = s.faults ∧
    (s.setTps v).cpuStuck = s.cpuStuck ∧
    (s.setTps v).boot = s.boot ∧
    (s.setTps v).agenda = s.agenda ∧
    (s.setTps v).draws = s.draws := by
  refine ⟨rfl, rfl, rfl, rfl, rfl, rfl, rfl, rfl, rfl, rfl, rfl, rfl, rfl, rfl, rfl, rfl, rfl, rfl, rfl, rfl, rfl, rfl, rfl⟩

/-- What a descriptor write changes: memory only. -/
@[simp] theorem setDesc_fields (s : State) (r : Ring) (i k : Nat) (v : Word) :
    (s.setDesc r i k v).cfg = s.cfg ∧
    (s.setDesc r i k v).res = s.res ∧
    (s.setDesc r i k v).resAddr = s.resAddr ∧
    (s.setDesc r i k v).resUse = s.resUse ∧
    (s.setDesc r i k v).dmardlar = s.dmardlar ∧
    (s.setDesc r i k v).dmatdlar = s.dmatdlar ∧
    (s.setDesc r i k v).dmaomr = s.dmaomr ∧
    (s.setDesc r i k v).dmasr = s.dmasr ∧
    (s.setDesc r i k v).dmaier = s.dmaier ∧
    (s.setDesc r i k v).rxNext = s.rxNext ∧
    (s.setDesc r i k v).txNext = s.txNext ∧
    (s.setDesc r i k v).rxDma = s.rxDma ∧
    (s.setDesc r i k v).txDma = s.txDma ∧
    (s.setDesc r i k v).rxToken = s.rxToken ∧
    (s.setDesc r i k v).txToken = s.txToken ∧
    (s.setDesc r i k v).mem = Memory.putWord s.mem (descWordAddr s.cfg r i k) v ∧
    (s.setDesc r i k v).events = s.events ∧
    (s.setDesc r i k v).reads = s.reads ∧
    (s.setDesc r i k v).faults = s.faults ∧
    (s.setDesc r i k v).cpuStuck = s.cpuStuck ∧
    (s.setDesc r i k v).boot = s.boot ∧
    (s.setDesc r i k v).agenda = s.agenda ∧
    (s.setDesc r i k v).draws = s.draws := by
  refine ⟨rfl, rfl, rfl, rfl, rfl, rfl, rfl, rfl, rfl, rfl, rfl, rfl, rfl, rfl, rfl, rfl, rfl, rfl, rfl, rfl, rfl, rfl, rfl⟩

/-- RPS after an Rx poll demand (R220). -/
def rpsAfterPoll (s : State) : BitVec 3 :=
  if s.dmaomr.sr = true ∧ s.dmasr.rps = rpsSuspended then psFetching else s.dmasr.rps

/-- TPS after a Tx poll demand (R221). -/
def tpsAfterPoll (s : State) : BitVec 3 :=
  if s.dmaomr.st = true ∧ s.dmasr.tps = tpsSuspended then psFetching else s.dmasr.tps

/-- An Rx poll demand changes RPS only. -/
theorem rxPollDemand_eq (s : State) : s.rxPollDemand = s.setRps (rpsAfterPoll s) := by
  unfold State.rxPollDemand rpsAfterPoll
  split <;> rfl

/-- A Tx poll demand changes TPS only. -/
theorem txPollDemand_eq (s : State) : s.txPollDemand = s.setTps (tpsAfterPoll s) := by
  unfold State.txPollDemand tpsAfterPoll
  split <;> rfl

/-- The value written to DMARPDR has no effect (R29). -/
@[simp] theorem writeDmarpdr_eq (s : State) (v : Word) : s.writeDmarpdr v = s.setRps (rpsAfterPoll s) :=
  rxPollDemand_eq s

/-- The value written to DMATPDR has no effect (R29). -/
@[simp] theorem writeDmatpdr_eq (s : State) (v : Word) : s.writeDmatpdr v = s.setTps (tpsAfterPoll s) :=
  txPollDemand_eq s

/-- A descriptor write does not change what a poll demand does. -/
@[simp] theorem rpsAfterPoll_setDesc (s : State) (r : Ring) (i k : Nat) (v : Word) :
    rpsAfterPoll (s.setDesc r i k v) = rpsAfterPoll s := rfl

/-- What a read of the CPU changes: its own record only. -/
@[simp] theorem observe_fields (s : State) (r : CpuRead) :
    (s.observe r).cfg = s.cfg ∧
    (s.observe r).res = s.res ∧
    (s.observe r).resAddr = s.resAddr ∧
    (s.observe r).resUse = s.resUse ∧
    (s.observe r).dmardlar = s.dmardlar ∧
    (s.observe r).dmatdlar = s.dmatdlar ∧
    (s.observe r).dmaomr = s.dmaomr ∧
    (s.observe r).dmasr = s.dmasr ∧
    (s.observe r).dmaier = s.dmaier ∧
    (s.observe r).rxNext = s.rxNext ∧
    (s.observe r).txNext = s.txNext ∧
    (s.observe r).rxDma = s.rxDma ∧
    (s.observe r).txDma = s.txDma ∧
    (s.observe r).rxToken = s.rxToken ∧
    (s.observe r).txToken = s.txToken ∧
    (s.observe r).mem = s.mem ∧
    (s.observe r).events = s.events ∧
    (s.observe r).reads = s.reads ++ [r] ∧
    (s.observe r).faults = s.faults ∧
    (s.observe r).cpuStuck = s.cpuStuck ∧
    (s.observe r).boot = s.boot ∧
    (s.observe r).agenda = s.agenda ∧
    (s.observe r).draws = s.draws := by
  refine ⟨rfl, rfl, rfl, rfl, rfl, rfl, rfl, rfl, rfl, rfl, rfl, rfl, rfl, rfl, rfl, rfl, rfl, rfl, rfl, rfl, rfl, rfl, rfl⟩

/-- What the soft reset leaves (R281, R42). -/
@[simp] theorem softReset_fields (s : State) :
    (s.softReset).cfg = s.cfg ∧
    (s.softReset).res = 0#32 ∧
    (s.softReset).resAddr = 0#32 ∧
    (s.softReset).resUse = .never ∧
    (s.softReset).dmardlar = 0#32 ∧
    (s.softReset).dmatdlar = 0#32 ∧
    (s.softReset).dmaomr = { sr := false, st := false } ∧
    (s.softReset).dmasr = { ts := false, rs := false, rps := psStopped, tps := psStopped } ∧
    (s.softReset).dmaier = { tie := false, rie := false, nise := false } ∧
    (s.softReset).rxNext = 0 ∧
    (s.softReset).txNext = 0 ∧
    (s.softReset).rxDma = 0 ∧
    (s.softReset).txDma = 0 ∧
    (s.softReset).rxToken = none ∧
    (s.softReset).txToken = none ∧
    (s.softReset).mem = s.mem ∧
    (s.softReset).events = [] ∧
    (s.softReset).reads = s.reads ∧
    (s.softReset).faults = s.faults ∧
    (s.softReset).cpuStuck = s.cpuStuck ∧
    (s.softReset).boot = .done ∧
    (s.softReset).agenda = s.agenda ∧
    (s.softReset).draws = s.draws := by
  refine ⟨rfl, rfl, rfl, rfl, rfl, rfl, rfl, rfl, rfl, rfl, rfl, rfl, rfl, rfl, rfl, rfl, rfl, rfl, rfl, rfl, rfl, rfl, rfl⟩

/-- What placing a command changes. -/
@[simp] theorem issue_fields (s : State) (v : Word) :
    (s.issue v).cfg = s.cfg ∧
    (s.issue v).res = s.res ∧
    (s.issue v).resAddr = s.resAddr ∧
    (s.issue v).resUse = s.resUse ∧
    (s.issue v).dmardlar = s.dmardlar ∧
    (s.issue v).dmatdlar = s.dmatdlar ∧
    (s.issue v).dmaomr = s.dmaomr ∧
    (s.issue v).dmasr = s.dmasr ∧
    (s.issue v).dmaier = s.dmaier ∧
    (s.issue v).rxNext = s.rxNext ∧
    (s.issue v).txNext = s.txNext ∧
    (s.issue v).rxDma = s.rxDma ∧
    (s.issue v).txDma = s.txDma ∧
    (s.issue v).rxToken = s.rxToken ∧
    (s.issue v).txToken = s.txToken ∧
    (s.issue v).mem = s.mem ∧
    (s.issue v).events = s.events ∧
    (s.issue v).reads = s.reads ∧
    (s.issue v).faults = s.faults ∧
    (s.issue v).cpuStuck = false ∧
    (s.issue v).boot = .done ∧
    (s.issue v).agenda = commandMove s.cfg v :: s.agenda ∧
    (s.issue v).draws = s.draws := by
  refine ⟨rfl, rfl, rfl, rfl, rfl, rfl, rfl, rfl, rfl, rfl, rfl, rfl, rfl, rfl, rfl, rfl, rfl, rfl, rfl, rfl, rfl, rfl, rfl⟩

/-- What a port access the CPU has no step for changes (R65). -/
@[simp] theorem stuckCpu_fields (s : State) :
    (s.stuckCpu).cfg = s.cfg ∧
    (s.stuckCpu).res = s.res ∧
    (s.stuckCpu).resAddr = s.resAddr ∧
    (s.stuckCpu).resUse = s.resUse ∧
    (s.stuckCpu).dmardlar = s.dmardlar ∧
    (s.stuckCpu).dmatdlar = s.dmatdlar ∧
    (s.stuckCpu).dmaomr = s.dmaomr ∧
    (s.stuckCpu).dmasr = s.dmasr ∧
    (s.stuckCpu).dmaier = s.dmaier ∧
    (s.stuckCpu).rxNext = s.rxNext ∧
    (s.stuckCpu).txNext = s.txNext ∧
    (s.stuckCpu).rxDma = s.rxDma ∧
    (s.stuckCpu).txDma = s.txDma ∧
    (s.stuckCpu).rxToken = s.rxToken ∧
    (s.stuckCpu).txToken = s.txToken ∧
    (s.stuckCpu).mem = s.mem ∧
    (s.stuckCpu).events = s.events ∧
    (s.stuckCpu).reads = s.reads ∧
    (s.stuckCpu).faults = s.faults ∧
    (s.stuckCpu).cpuStuck = true ∧
    (s.stuckCpu).boot = s.boot ∧
    (s.stuckCpu).agenda = s.agenda ∧
    (s.stuckCpu).draws = s.draws := by
  refine ⟨rfl, rfl, rfl, rfl, rfl, rfl, rfl, rfl, rfl, rfl, rfl, rfl, rfl, rfl, rfl, rfl, rfl, rfl, rfl, rfl, rfl, rfl, rfl⟩

/-- What a racing CPU write changes (R69, R255). -/
@[simp] theorem raceWrite_fields (s : State) (a : Addr) (w : Width) (es : List (Ring × Nat)) :
    (s.raceWrite a w es).cfg = s.cfg ∧
    (s.raceWrite a w es).res = s.res ∧
    (s.raceWrite a w es).resAddr = s.resAddr ∧
    (s.raceWrite a w es).resUse = s.resUse ∧
    (s.raceWrite a w es).dmardlar = s.dmardlar ∧
    (s.raceWrite a w es).dmatdlar = s.dmatdlar ∧
    (s.raceWrite a w es).dmaomr = s.dmaomr ∧
    (s.raceWrite a w es).dmasr = s.dmasr ∧
    (s.raceWrite a w es).dmaier = s.dmaier ∧
    (s.raceWrite a w es).rxNext = s.rxNext ∧
    (s.raceWrite a w es).txNext = s.txNext ∧
    (s.raceWrite a w es).rxDma = s.rxDma ∧
    (s.raceWrite a w es).txDma = s.txDma ∧
    (s.raceWrite a w es).rxToken = s.rxToken ∧
    (s.raceWrite a w es).txToken = s.txToken ∧
    (s.raceWrite a w es).mem = Memory.redraw s.mem s.draws (accessBytes a w) ∧
    (s.raceWrite a w es).events = s.events ∧
    (s.raceWrite a w es).reads = s.reads ∧
    (s.raceWrite a w es).faults = s.faults ++ es.map (fun e => .raceOnRing e.1 e.2 a w) ∧
    (s.raceWrite a w es).cpuStuck = s.cpuStuck ∧
    (s.raceWrite a w es).boot = s.boot ∧
    (s.raceWrite a w es).agenda = s.agenda ∧
    (s.raceWrite a w es).draws = s.draws + w.bytes := by
  refine ⟨rfl, rfl, rfl, rfl, rfl, rfl, rfl, rfl, rfl, rfl, rfl, rfl, rfl, rfl, rfl, rfl, rfl, rfl, rfl, rfl, rfl, rfl, rfl⟩

/-- What redrawing the touched bytes changes: memory and the counter of draws (R69). -/
@[simp] theorem redraw_fields (s : State) :
    (s.redraw).cfg = s.cfg ∧
    (s.redraw).res = s.res ∧
    (s.redraw).resAddr = s.resAddr ∧
    (s.redraw).resUse = s.resUse ∧
    (s.redraw).dmardlar = s.dmardlar ∧
    (s.redraw).dmatdlar = s.dmatdlar ∧
    (s.redraw).dmaomr = s.dmaomr ∧
    (s.redraw).dmasr = s.dmasr ∧
    (s.redraw).dmaier = s.dmaier ∧
    (s.redraw).rxNext = s.rxNext ∧
    (s.redraw).txNext = s.txNext ∧
    (s.redraw).rxDma = s.rxDma ∧
    (s.redraw).txDma = s.txDma ∧
    (s.redraw).rxToken = s.rxToken ∧
    (s.redraw).txToken = s.txToken ∧
    (s.redraw).mem = Memory.redraw s.mem s.draws s.touched ∧
    (s.redraw).events = s.events ∧
    (s.redraw).reads = s.reads ∧
    (s.redraw).faults = s.faults ∧
    (s.redraw).cpuStuck = s.cpuStuck ∧
    (s.redraw).boot = s.boot ∧
    (s.redraw).agenda = s.agenda ∧
    (s.redraw).draws = s.draws + s.touched.length := by
  refine ⟨rfl, rfl, rfl, rfl, rfl, rfl, rfl, rfl, rfl, rfl, rfl, rfl, rfl, rfl, rfl, rfl, rfl, rfl, rfl, rfl, rfl, rfl, rfl⟩

/-- With no race recorded no byte is touched. -/
@[simp] theorem touched_nil {s : State} (h : s.faults = []) : s.touched = [] := by
  simp [State.touched, h]

/-- With no race recorded the step starts from the state as it is. -/
@[simp] theorem redraw_of_no_fault {s : State} (h : s.faults = []) : s.redraw = s := by
  simp [State.redraw, touched_nil h, Memory.redraw]

/-- With no race recorded no entry is raced. -/
@[simp] theorem raced_of_no_fault {s : State} (h : s.faults = []) (r : Ring) (i : Nat) : s.raced r i = false := by
  simp [State.raced, h]

/-- No operation of a command or of a DMA agent changes the parameters (R43). -/
@[simp] theorem startRx_cfg (s : State) : s.startRx.cfg = s.cfg := by simp [State.startRx]
@[simp] theorem handBackRx_cfg (s : State) (i : Nat) : (s.handBackRx i).cfg = s.cfg := by simp [State.handBackRx]
@[simp] theorem recycleRx_cfg (s : State) : s.recycleRx.cfg = s.cfg := by simp [State.recycleRx]
@[simp] theorem openRx_cfg (s : State) (len : Nat) : (s.openRx len).cfg = s.cfg := rfl
@[simp] theorem startTx_cfg (s : State) : s.startTx.cfg = s.cfg := rfl
@[simp] theorem openTx_cfg (s : State) (len : Nat) : (s.openTx len).cfg = s.cfg := rfl
@[simp] theorem commitTx_cfg (s : State) (w : Window) : (s.commitTx w).cfg = s.cfg := rfl
@[simp] theorem rxFetch_cfg (s : State) : s.rxFetch.cfg = s.cfg := rfl
@[simp] theorem rxDeposit_cfg (s : State) (frame : List Byte) (st : Word) : (s.rxDeposit frame st).cfg = s.cfg := rfl
@[simp] theorem txFetch_cfg (s : State) : s.txFetch.cfg = s.cfg := rfl
@[simp] theorem txClose_cfg (s : State) (st : Word) : (s.txClose st).cfg = s.cfg := rfl
@[simp] theorem racedRx_cfg (s : State) : s.racedRx.cfg = s.cfg := rfl
@[simp] theorem racedTx_cfg (s : State) : s.racedTx.cfg = s.cfg := rfl

/-- `reply` always goes on. -/
@[simp] theorem reply_eq (s : State) (c : Code) (i v : Nat) (a : Addr) :
    reply s c i v a = .next (s.finish c i v a) := rfl

/-- `replyCode` always goes on, with every other field of the result 0. -/
@[simp] theorem replyCode_eq (s : State) (c : Code) : replyCode s c = .next (s.finish c 0 0 0#32) := rfl

/-- The operands a command reads are fields of State. -/
@[simp] theorem window_rx (s : State) : s.window .rx = s.rxToken := rfl
@[simp] theorem window_tx (s : State) : s.window .tx = s.txToken := rfl
@[simp] theorem listBase_rx (s : State) : s.listBase .rx = s.dmardlar := rfl
@[simp] theorem listBase_tx (s : State) : s.listBase .tx = s.dmatdlar := rfl

/-- A byte, a word and a descriptor depend on memory and the parameters only. -/
theorem byteAt_congr {s t : State} (h : t.mem = s.mem) : t.byteAt = s.byteAt := by
  funext a; simp only [State.byteAt, h]

theorem wordAt_congr {s t : State} (h : t.mem = s.mem) : t.wordAt = s.wordAt := by
  funext a; simp only [State.wordAt, byteAt_congr h]

theorem desc_congr {s t : State} (h : t.mem = s.mem) (hc : t.cfg = s.cfg) : t.desc = s.desc := by
  funext r i k; simp only [State.desc, wordAt_congr h, hc]

theorem ownedByDma_congr {s t : State} (h : t.mem = s.mem) (hc : t.cfg = s.cfg) :
    t.ownedByDma = s.ownedByDma := by
  funext r i; simp only [State.ownedByDma, desc_congr h hc, hc]

end Sys2Proof.Machine
end

