-- ==== Sys2Proof/Laws/Memory.lean ====
section
/-! SUPPORT. Memory: reads after writes, and the canonical form every write keeps. -/

namespace Sys2Proof.Machine

/-- A byte written is read back; every other address keeps what it had. -/
theorem get?_put (m : Memory) (a x : Nat) (b : Byte) :
    Memory.get? (Memory.put m a b) x = if x = a then some b else Memory.get? m x := by
  induction m with
  | nil => simp [Memory.put, Memory.get?]
  | cons c m ih =>
    obtain ⟨k, v⟩ := c
    simp only [Memory.put]
    split_ifs <;> simp_all [Memory.get?]

/-- A write keeps the canonical form, with the lower bound it had. -/
theorem risingFrom_put (m : Memory) (low a : Nat) (b : Byte) (hlow : low ≤ a) (ha : a < 2 ^ 32)
    (h : Memory.risingFrom low m = true) : Memory.risingFrom low (Memory.put m a b) = true := by
  induction m generalizing low with
  | nil => simp [Memory.put, Memory.risingFrom]; omega
  | cons c m ih =>
    obtain ⟨k, v⟩ := c
    simp only [Memory.risingFrom, Bool.and_eq_true, decide_eq_true_eq] at h
    simp only [Memory.put]
    split_ifs with h1 h2
    · simp only [Memory.risingFrom, Bool.and_eq_true, decide_eq_true_eq]
      exact ⟨⟨hlow, ha⟩, ⟨by omega, h.1.2⟩, h.2⟩
    · simp only [Memory.risingFrom, Bool.and_eq_true, decide_eq_true_eq]
      exact ⟨⟨hlow, ha⟩, h2 ▸ h.2⟩
    · simp only [Memory.risingFrom, Bool.and_eq_true, decide_eq_true_eq]
      exact ⟨h.1, ih _ (by omega) h.2⟩

/-- Writing one byte keeps the canonical form. -/
theorem wf_put (m : Memory) (a : Addr) (b : Byte) (h : Memory.wf m = true) :
    Memory.wf (Memory.put m a.toNat b) = true :=
  risingFrom_put m 0 a.toNat b (Nat.zero_le _) a.isLt h

/-- Writing bytes keeps the canonical form. -/
theorem wf_putBytes (m : Memory) (a : Addr) (bs : List Byte) (h : Memory.wf m = true) :
    Memory.wf (Memory.putBytes m a bs) = true := by
  induction bs generalizing m a with
  | nil => exact h
  | cons b bs ih => exact ih _ _ (wf_put m a b h)

/-- Writing a word keeps the canonical form. -/
theorem wf_putWord (m : Memory) (a : Addr) (v : Word) (h : Memory.wf m = true) :
    Memory.wf (Memory.putWord m a v) = true := wf_putBytes m a _ h

/-- Writing words keeps the canonical form. -/
theorem wf_putWords (m : Memory) (ws : List (Addr × Word)) (h : Memory.wf m = true) :
    Memory.wf (Memory.putWords m ws) = true := by
  induction ws generalizing m with
  | nil => exact h
  | cons w ws ih => exact ih _ (wf_putWord m _ _ h)

/-- Giving bytes free values keeps the canonical form. -/
theorem wf_redraw (m : Memory) (n : Nat) (as : List Addr) (h : Memory.wf m = true) :
    Memory.wf (Memory.redraw m n as) = true := by
  induction as generalizing m n with
  | nil => exact h
  | cons a as ih => exact ih _ _ (wf_put m a _ h)

/-- Writing single bytes keeps the canonical form. -/
theorem wf_putEach (m : Memory) (ws : List (Addr × Byte)) (h : Memory.wf m = true) :
    Memory.wf (Memory.putEach m ws) = true := by
  induction ws generalizing m with
  | nil => exact h
  | cons w ws ih => exact ih _ (wf_put m w.1 w.2 h)

/-- Giving bytes free values leaves every other byte. -/
theorem get?_redraw_outside (m : Memory) (n : Nat) (as : List Addr) (x : Addr) (hx : x ∉ as) :
    Memory.get? (Memory.redraw m n as) x.toNat = Memory.get? m x.toNat := by
  induction as generalizing m n with
  | nil => rfl
  | cons a as ih =>
    simp only [List.mem_cons, not_or] at hx
    have hne : x.toNat ≠ a.toNat := fun h => hx.1 (BitVec.eq_of_toNat_eq h)
    rw [Memory.redraw, ih _ _ hx.2, get?_put, if_neg hne]

/-- The bytes written are read back at their offsets from `a`; every other address keeps what it had. -/
theorem get?_putBytes (m : Memory) (a x : Addr) (bs : List Byte) (hlen : bs.length ≤ 2 ^ 32) :
    Memory.get? (Memory.putBytes m a bs) x.toNat =
      if (x - a).toNat < bs.length then bs[(x - a).toNat]? else Memory.get? m x.toNat := by
  induction bs generalizing m a with
  | nil => simp [Memory.putBytes]
  | cons b bs ih =>
    simp only [List.length_cons] at hlen
    have hx := x.isLt
    have ha := a.isLt
    rw [Memory.putBytes, ih _ _ (by omega), get?_put]
    by_cases hxa : x = a
    · subst hxa
      have h1 : (x - (x + 1#32)).toNat = 2 ^ 32 - 1 := by
        simp only [BitVec.toNat_sub, BitVec.toNat_add, BitVec.toNat_ofNat]; omega
      rw [if_neg (by omega)]
      simp
    · have hne : x.toNat ≠ a.toNat := fun h => hxa (BitVec.eq_of_toNat_eq h)
      have h1 : (x - a).toNat = (x - (a + 1#32)).toNat + 1 := by
        simp only [BitVec.toNat_sub, BitVec.toNat_add, BitVec.toNat_ofNat]; omega
      rw [h1, if_neg hne]
      simp

/-- Bytes outside the addresses written keep what they had. -/
theorem get?_putBytes_outside (m : Memory) (a x : Addr) (bs : List Byte) (ha : a.toNat + bs.length ≤ 2 ^ 32)
    (hx : x.toNat < a.toNat ∨ a.toNat + bs.length ≤ x.toNat) :
    Memory.get? (Memory.putBytes m a bs) x.toNat = Memory.get? m x.toNat := by
  have hxl := x.isLt
  have hal := a.isLt
  rw [get?_putBytes _ _ _ _ (by omega), if_neg]
  simp only [BitVec.toNat_sub]
  omega

/-- The bytes written are read back. -/
theorem get?_putBytes_inside (m : Memory) (a : Addr) (bs : List Byte) (k : Nat) (hk : k < bs.length)
    (ha : a.toNat + bs.length ≤ 2 ^ 32) :
    Memory.get? (Memory.putBytes m a bs) (a + BitVec.ofNat 32 k).toNat = some bs[k] := by
  have hal := a.isLt
  have h1 : (a + BitVec.ofNat 32 k - a).toNat = k := by
    simp only [BitVec.toNat_sub, BitVec.toNat_add, BitVec.toNat_ofNat]; omega
  rw [get?_putBytes _ _ _ _ (by omega), if_pos (by omega), h1]
  simp [hk]

/-- The reset memory is canonical. -/
theorem wf_reset (c : Config) : Memory.wf (State.resetFor c).mem = true := rfl

/-- A byte of `s` as a function of memory. -/
theorem byteAt_def (s : State) (x : Addr) :
    s.byteAt x = (Memory.get? s.mem x.toNat).getD (Config.powerOnByte x.toNat) := by
  unfold State.byteAt
  cases Memory.get? s.mem x.toNat <;> rfl

/-- Memory that lists the same byte at `x` reads the same at `x`. -/
theorem byteAt_of_get? {s t : State} {x : Addr} (h : Memory.get? t.mem x.toNat = Memory.get? s.mem x.toNat) :
    t.byteAt x = s.byteAt x := by
  rw [byteAt_def, byteAt_def, h]

@[simp] theorem wordBytes_length (v : Word) : (wordBytes v).length = 4 := rfl

/-- A word is its four bytes. -/
theorem wordOfBytes_wordBytes (v : Word) :
    wordOfBytes (v.extractLsb' 0 8) (v.extractLsb' 8 8) (v.extractLsb' 16 8) (v.extractLsb' 24 8) = v := by
  apply BitVec.eq_of_getLsbD_eq
  intro i hi
  simp only [wordOfBytes, BitVec.getLsbD_append, BitVec.getLsbD_extractLsb']
  interval_cases i <;> simp

/-- A word write is read back whole (R66). -/
theorem wordAt_putWord_same (s t : State) (a : Addr) (v : Word) (ha : a.toNat + 4 ≤ 2 ^ 32)
    (h : t.mem = Memory.putWord s.mem a v) : t.wordAt a = v := by
  have hb : ∀ k (hk : k < 4), t.byteAt (a + BitVec.ofNat 32 k) = (wordBytes v)[k] := by
    intro k hk
    rw [byteAt_def, h, Memory.putWord, get?_putBytes_inside _ _ _ _ (by simpa using hk) (by simpa using ha)]
    rfl
  have h0 := hb 0 (by omega)
  have h1 := hb 1 (by omega)
  have h2 := hb 2 (by omega)
  have h3 := hb 3 (by omega)
  simp only [BitVec.add_zero] at h0 h1 h2 h3
  unfold State.wordAt
  rw [h0, h1, h2, h3]
  exact wordOfBytes_wordBytes v

/-- The addresses of the bytes of a word that does not wrap. -/
theorem toNat_add_small (a : Addr) (k : Nat) (h : a.toNat + k < 2 ^ 32) :
    (a + BitVec.ofNat 32 k).toNat = a.toNat + k := by
  simp only [BitVec.toNat_add, BitVec.toNat_ofNat]
  have := a.isLt
  omega

/-- Words that agree bytewise are equal. -/
theorem wordAt_of_bytes {s t : State} (a : Addr) (ha : a.toNat + 4 ≤ 2 ^ 32)
    (h : ∀ x : Addr, a.toNat ≤ x.toNat → x.toNat < a.toNat + 4 → t.byteAt x = s.byteAt x) :
    t.wordAt a = s.wordAt a := by
  have hk : ∀ k, k < 4 → t.byteAt (a + BitVec.ofNat 32 k) = s.byteAt (a + BitVec.ofNat 32 k) := by
    intro k hk
    have := toNat_add_small a k (by omega)
    exact h _ (by omega) (by omega)
  have h0 := hk 0 (by omega)
  have h1 := hk 1 (by omega)
  have h2 := hk 2 (by omega)
  have h3 := hk 3 (by omega)
  simp only [BitVec.add_zero] at h0 h1 h2 h3
  simp only [State.wordAt, h0, h1, h2, h3]

/-- A word write leaves every byte outside its four bytes. -/
theorem byteAt_putWord_outside (s t : State) (a x : Addr) (v : Word) (ha : a.toNat + 4 ≤ 2 ^ 32)
    (hx : x.toNat < a.toNat ∨ a.toNat + 4 ≤ x.toNat) (h : t.mem = Memory.putWord s.mem a v) :
    t.byteAt x = s.byteAt x := by
  apply byteAt_of_get?
  rw [h, Memory.putWord]
  exact get?_putBytes_outside _ _ _ _ (by simpa using ha) (by simpa using hx)

/-- Word writes leave every byte outside all their words. -/
theorem byteAt_putWords_outside (ws : List (Addr × Word)) (x : Addr) (m : Memory)
    (hx : ∀ w ∈ ws, w.1.toNat + 4 ≤ 2 ^ 32 ∧ (x.toNat < w.1.toNat ∨ w.1.toNat + 4 ≤ x.toNat)) :
    Memory.get? (Memory.putWords m ws) x.toNat = Memory.get? m x.toNat := by
  induction ws generalizing m with
  | nil => rfl
  | cons w ws ih =>
    have hw := hx w (List.mem_cons_self ..)
    have := ih (Memory.putWord m w.1 w.2) (fun v hv => hx v (List.mem_cons_of_mem _ hv))
    simp only [Memory.putWords, List.foldl_cons] at this ⊢
    rw [this, Memory.putWord]
    exact get?_putBytes_outside _ _ _ _ (by simpa using hw.1) (by simpa using hw.2)

end Sys2Proof.Machine
end

