-- ==== Sys2Proof/Laws/Regions.lean ====
section
/-! SUPPORT. What WF(cfg) gives (00_scope.md R9): sizes, bounds, alignment and disjointness of the regions. -/

namespace Sys2Proof.Machine

/-- The two regions of an entry. -/
abbrev regionsOf (cap : Nat) (e : EntryAddr) : List Region :=
  [{ start := e.desc.toNat, len := descBytes }, { start := e.buf.toNat, len := cap }]

theorem disjointRegions_iff (x y : Region) :
    disjointRegions x y = true ↔ x.start + x.len ≤ y.start ∨ y.start + y.len ≤ x.start := by
  simp [disjointRegions]

theorem disjointRegions_symm {x y : Region} (h : disjointRegions x y = true) : disjointRegions y x = true := by
  simp only [disjointRegions, decide_eq_true_eq] at *
  omega

theorem pairwiseDisjoint_iff (l : List Region) :
    pairwiseDisjoint l = true ↔ l.Pairwise (fun x y => disjointRegions x y = true) := by
  induction l with
  | nil => simp [pairwiseDisjoint]
  | cons x xs ih => simp [pairwiseDisjoint, ih]

/-- An index of the ring names an entry, whose addresses `descAddr` and `bufAddr` are. -/
theorem entry_at {c : Config} {r : Ring} {i : Nat} (h : i < ringSize c r) :
    ∃ e, (ringOf c r)[i]? = some e ∧ descAddr c r i = e.desc ∧ bufAddr c r i = e.buf := by
  have h1 : (ringOf c r)[i]? = some ((ringOf c r)[i]'h) := List.getElem?_eq_getElem h
  exact ⟨_, h1, by simp [descAddr, h1], by simp [bufAddr, h1]⟩

section
variable {c : Config} (hc : configOk c = true)
include hc

theorem config_sizes : 1 ≤ c.rx.length ∧ c.rx.length ≤ 256 ∧ 1 ≤ c.tx.length ∧ c.tx.length ≤ 256 ∧ c.cap ≤ 8191 := by
  simp only [configOk, Bool.and_eq_true, decide_eq_true_eq] at hc
  exact hc.1.1.1

theorem ringSize_pos (r : Ring) : 1 ≤ ringSize c r := by
  have := config_sizes hc
  cases r <;> simp [ringSize, ringOf] <;> omega

theorem ringSize_le (r : Ring) : ringSize c r ≤ 256 := by
  have := config_sizes hc
  cases r <;> simp [ringSize, ringOf] <;> omega

theorem cap_le : c.cap ≤ 8191 := (config_sizes hc).2.2.2.2

theorem nextIndex_lt (r : Ring) (i : Nat) : nextIndex c r i < ringSize c r :=
  Nat.mod_lt _ (ringSize_pos hc r)

theorem regions_ok : ∀ x ∈ allRegions c, regionOk x = true := by
  simp only [configOk, Bool.and_eq_true, List.all_eq_true] at hc
  exact hc.1.1.2

theorem regions_pairwise : (allRegions c).Pairwise (fun x y => disjointRegions x y = true) := by
  simp only [configOk, Bool.and_eq_true] at hc
  exact (pairwiseDisjoint_iff _).1 hc.1.2

theorem layout_ok : layoutOk c = true := by
  simp only [configOk, Bool.and_eq_true] at hc
  exact hc.2

omit hc in
theorem entry_regions_mem {r : Ring} {i : Nat} {e : EntryAddr} (he : (ringOf c r)[i]? = some e) {x : Region}
    (hx : x ∈ regionsOf c.cap e) : x ∈ entryRegions c.cap c.rx ++ entryRegions c.cap c.tx := by
  have := List.mem_of_getElem? he
  cases r
  · exact List.mem_append_left _ (List.mem_flatMap.2 ⟨e, this, hx⟩)
  · exact List.mem_append_right _ (List.mem_flatMap.2 ⟨e, this, hx⟩)

/-- Regions of two entries of one ring are disjoint. -/
theorem same_ring_disjoint {r : Ring} {i j : Nat} {e f : EntryAddr} (hi : (ringOf c r)[i]? = some e)
    (hj : (ringOf c r)[j]? = some f) (hij : i < j) {x y : Region} (hx : x ∈ regionsOf c.cap e)
    (hy : y ∈ regionsOf c.cap f) : disjointRegions x y = true := by
  have hp := (List.pairwise_cons.1 (regions_pairwise hc)).2
  have hp : (entryRegions c.cap (ringOf c r)).Pairwise (fun x y => disjointRegions x y = true) := by
    have := List.pairwise_append.1 hp
    cases r
    · exact this.1
    · exact this.2.1
  have hp := (List.pairwise_flatMap.1 hp).2
  obtain ⟨hil, rfl⟩ := List.getElem?_eq_some_iff.1 hi
  obtain ⟨hjl, rfl⟩ := List.getElem?_eq_some_iff.1 hj
  exact (List.pairwise_iff_getElem.1 hp) i j hil hjl hij x hx y hy

/-- Regions of different entries are disjoint. -/
theorem entries_disjoint {r q : Ring} {i j : Nat} {e f : EntryAddr} (hi : (ringOf c r)[i]? = some e)
    (hj : (ringOf c q)[j]? = some f) (hne : r ≠ q ∨ i ≠ j) {x y : Region} (hx : x ∈ regionsOf c.cap e)
    (hy : y ∈ regionsOf c.cap f) : disjointRegions x y = true := by
  have hp := (List.pairwise_append.1 (List.pairwise_cons.1 (regions_pairwise hc)).2).2.2
  cases r <;> cases q
  · rcases Nat.lt_trichotomy i j with h | h | h
    · exact same_ring_disjoint hc hi hj h hx hy
    · simp_all
    · exact disjointRegions_symm (same_ring_disjoint hc hj hi h hy hx)
  · exact hp x (List.mem_flatMap.2 ⟨e, List.mem_of_getElem? hi, hx⟩) y
      (List.mem_flatMap.2 ⟨f, List.mem_of_getElem? hj, hy⟩)
  · exact disjointRegions_symm (hp y (List.mem_flatMap.2 ⟨f, List.mem_of_getElem? hj, hy⟩) x
      (List.mem_flatMap.2 ⟨e, List.mem_of_getElem? hi, hx⟩))
  · rcases Nat.lt_trichotomy i j with h | h | h
    · exact same_ring_disjoint hc hi hj h hx hy
    · simp_all
    · exact disjointRegions_symm (same_ring_disjoint hc hj hi h hy hx)

/-- An entry's descriptor and buffer are disjoint. -/
theorem own_regions_disjoint {r : Ring} {i : Nat} {e : EntryAddr} (hi : (ringOf c r)[i]? = some e) :
    disjointRegions { start := e.desc.toNat, len := descBytes } { start := e.buf.toNat, len := c.cap } = true := by
  have hp := (List.pairwise_cons.1 (regions_pairwise hc)).2
  have hp : (entryRegions c.cap (ringOf c r)).Pairwise (fun x y => disjointRegions x y = true) := by
    have := List.pairwise_append.1 hp
    cases r
    · exact this.1
    · exact this.2.1
  have := (List.pairwise_flatMap.1 hp).1 e (List.mem_of_getElem? hi)
  simpa using this

/-- The command port is disjoint from every region of an entry. -/
theorem port_disjoint {r : Ring} {i : Nat} {e : EntryAddr} (hi : (ringOf c r)[i]? = some e) {x : Region}
    (hx : x ∈ regionsOf c.cap e) :
    disjointRegions { start := c.dreBase.toNat, len := portBytes } x = true :=
  (List.pairwise_cons.1 (regions_pairwise hc)).1 x (entry_regions_mem hi hx)

/-- A descriptor lies inside the address space, 4-aligned. -/
theorem desc_bounds {r : Ring} {i : Nat} (hi : i < ringSize c r) :
    (descAddr c r i).toNat % 4 = 0 ∧ (descAddr c r i).toNat + 16 ≤ 2 ^ 32 := by
  obtain ⟨e, he, hd, -⟩ := entry_at hi
  have := regions_ok hc _ (List.mem_cons_of_mem _ (entry_regions_mem he (List.mem_cons_self ..)))
  simpa [hd, regionOk, descBytes] using this

/-- A buffer lies inside the address space, 4-aligned. -/
theorem buf_bounds {r : Ring} {i : Nat} (hi : i < ringSize c r) :
    (bufAddr c r i).toNat % 4 = 0 ∧ (bufAddr c r i).toNat + c.cap ≤ 2 ^ 32 := by
  obtain ⟨e, he, -, hb⟩ := entry_at hi
  have := regions_ok hc _
    (List.mem_cons_of_mem _ (entry_regions_mem he (List.mem_cons_of_mem _ (List.mem_cons_self ..))))
  simpa [hb, regionOk] using this

/-- Descriptors of different entries share no byte. -/
theorem desc_desc {r q : Ring} {i j : Nat} (hi : i < ringSize c r) (hj : j < ringSize c q) (hne : r ≠ q ∨ i ≠ j) :
    (descAddr c r i).toNat + 16 ≤ (descAddr c q j).toNat ∨
      (descAddr c q j).toNat + 16 ≤ (descAddr c r i).toNat := by
  obtain ⟨e, he, hd, -⟩ := entry_at hi
  obtain ⟨f, hf, hd', -⟩ := entry_at hj
  have := entries_disjoint hc he hf hne (List.mem_cons_self ..) (List.mem_cons_self ..)
  simpa only [hd, hd', disjointRegions_iff, descBytes] using this

/-- A descriptor and a buffer share no byte. -/
theorem desc_buf {r q : Ring} {i j : Nat} (hi : i < ringSize c r) (hj : j < ringSize c q) :
    (descAddr c r i).toNat + 16 ≤ (bufAddr c q j).toNat ∨
      (bufAddr c q j).toNat + c.cap ≤ (descAddr c r i).toNat := by
  obtain ⟨e, he, hd, -⟩ := entry_at hi
  obtain ⟨f, hf, -, hb⟩ := entry_at hj
  by_cases hne : r ≠ q ∨ i ≠ j
  · have := entries_disjoint hc he hf hne (List.mem_cons_self ..) (List.mem_cons_of_mem _ (List.mem_cons_self ..))
    simpa only [hd, hb, disjointRegions_iff, descBytes] using this
  · obtain ⟨rfl, rfl⟩ : r = q ∧ i = j := by
      constructor <;> by_contra h
      · exact hne (.inl h)
      · exact hne (.inr h)
    obtain rfl : e = f := by simpa [he] using hf
    have := own_regions_disjoint hc he
    simpa only [hd, hb, disjointRegions_iff, descBytes] using this

/-- Buffers of different entries share no byte. -/
theorem buf_buf {r q : Ring} {i j : Nat} (hi : i < ringSize c r) (hj : j < ringSize c q) (hne : r ≠ q ∨ i ≠ j) :
    (bufAddr c r i).toNat + c.cap ≤ (bufAddr c q j).toNat ∨
      (bufAddr c q j).toNat + c.cap ≤ (bufAddr c r i).toNat := by
  obtain ⟨e, he, -, hb⟩ := entry_at hi
  obtain ⟨f, hf, -, hb'⟩ := entry_at hj
  have := entries_disjoint hc he hf hne (List.mem_cons_of_mem _ (List.mem_cons_self ..))
    (List.mem_cons_of_mem _ (List.mem_cons_self ..))
  simpa only [hb, hb', disjointRegions_iff] using this

end

/-- `locateIn` answers a location whose entry holds the byte. -/
theorem locateIn_sound {r : Ring} {cap a : Nat} {es : List EntryAddr} {n : Nat} {l : Location}
    (h : locateIn r cap a n es = some l) :
    ∃ i e, es[i]? = some e ∧
      ((l = .desc r (n + i) ∧ e.desc.toNat ≤ a ∧ a < e.desc.toNat + descBytes) ∨
       (l = .buf r (n + i) (a - e.buf.toNat) ∧ e.buf.toNat ≤ a ∧ a < e.buf.toNat + cap)) := by
  induction es generalizing n with
  | nil => simp [locateIn] at h
  | cons e es ih =>
    simp only [locateIn] at h
    split_ifs at h with h1 h2
    · exact ⟨0, e, rfl, .inl ⟨by simpa using h.symm, h1⟩⟩
    · exact ⟨0, e, rfl, .inr ⟨by simpa using h.symm, h2⟩⟩
    · obtain ⟨i, f, hf, hl⟩ := ih h
      refine ⟨i + 1, f, by simpa using hf, ?_⟩
      rw [show n + (i + 1) = n + 1 + i by omega]
      exact hl

/-- Where `locateIn` answers nothing, no entry holds the byte. -/
theorem locateIn_none {r : Ring} {cap a : Nat} {es : List EntryAddr} {n : Nat}
    (h : locateIn r cap a n es = none) {i : Nat} {e : EntryAddr} (he : es[i]? = some e) :
    ¬(e.desc.toNat ≤ a ∧ a < e.desc.toNat + descBytes) ∧ ¬(e.buf.toNat ≤ a ∧ a < e.buf.toNat + cap) := by
  induction es generalizing n i with
  | nil => simp at he
  | cons f es ih =>
    simp only [locateIn] at h
    split_ifs at h with h1 h2
    cases i with
    | zero => obtain rfl : f = e := by simpa using he
              exact ⟨h1, h2⟩
    | succ i => exact ih h (by simpa using he)

/-- A byte located in a descriptor is a byte of that descriptor. -/
theorem locate_desc {c : Config} {a : Nat} {r : Ring} {i : Nat} (h : locate c a = .desc r i) :
    i < ringSize c r ∧ (descAddr c r i).toNat ≤ a ∧ a < (descAddr c r i).toNat + 16 := by
  have key : ∀ q : Ring, locateIn q c.cap a 0 (ringOf c q) = some (.desc r i) →
      i < ringSize c r ∧ (descAddr c r i).toNat ≤ a ∧ a < (descAddr c r i).toNat + 16 := by
    intro q hq
    obtain ⟨j, e, he, hl⟩ := locateIn_sound hq
    rcases hl with ⟨hl, h1, h2⟩ | ⟨hl, -, -⟩
    · obtain ⟨rfl, rfl⟩ : r = q ∧ i = j := by simpa using hl
      refine ⟨(List.getElem?_eq_some_iff.1 he).1, ?_⟩
      simpa [descAddr, he] using ⟨h1, h2⟩
    · simp at hl
  unfold locate at h
  split at h
  · next l hl => exact key .rx (by rw [← h]; exact hl)
  · split at h
    · next l hl => exact key .tx (by rw [← h]; exact hl)
    · simp at h

/-- A byte located in a buffer is that byte of that buffer. -/
theorem locate_buf {c : Config} {a : Nat} {r : Ring} {i k : Nat} (h : locate c a = .buf r i k) :
    i < ringSize c r ∧ a = (bufAddr c r i).toNat + k ∧ k < c.cap := by
  have key : ∀ q : Ring, locateIn q c.cap a 0 (ringOf c q) = some (.buf r i k) →
      i < ringSize c r ∧ a = (bufAddr c r i).toNat + k ∧ k < c.cap := by
    intro q hq
    obtain ⟨j, e, he, hl⟩ := locateIn_sound hq
    rcases hl with ⟨hl, -, -⟩ | ⟨hl, h1, h2⟩
    · simp at hl
    · obtain ⟨rfl, hi, hk⟩ : r = q ∧ i = j ∧ k = a - e.buf.toNat := by simpa using hl
      subst hi
      refine ⟨(List.getElem?_eq_some_iff.1 he).1, ?_⟩
      simp only [bufAddr, he]
      omega
  unfold locate at h
  split at h
  · next l hl => exact key .rx (by rw [← h]; exact hl)
  · split at h
    · next l hl => exact key .tx (by rw [← h]; exact hl)
    · simp at h

/-- A byte located in ordinary memory is in no region of an entry. -/
theorem locate_plain {c : Config} {a : Nat} (h : locate c a = .plain) {r : Ring} {i : Nat}
    (hi : i < ringSize c r) :
    ¬((descAddr c r i).toNat ≤ a ∧ a < (descAddr c r i).toNat + 16) ∧
      ¬((bufAddr c r i).toNat ≤ a ∧ a < (bufAddr c r i).toNat + c.cap) := by
  obtain ⟨e, he, hd, hb⟩ := entry_at hi
  rw [hd, hb]
  unfold locate at h
  split at h
  · next l hl =>
    subst h
    obtain ⟨j, f, -, hf⟩ := locateIn_sound hl
    rcases hf with ⟨hf, -⟩ | ⟨hf, -⟩ <;> simp at hf
  · next h1 =>
    split at h
    · next l hl =>
      subst h
      obtain ⟨j, f, -, hf⟩ := locateIn_sound hl
      rcases hf with ⟨hf, -⟩ | ⟨hf, -⟩ <;> simp at hf
    · next h2 =>
      cases r
      · exact locateIn_none h1 he
      · exact locateIn_none h2 he

/-- Every byte of a descriptor is located in it. -/
theorem locate_of_desc {c : Config} (hc : configOk c = true) {r : Ring} {i a : Nat} (hi : i < ringSize c r)
    (h1 : (descAddr c r i).toNat ≤ a) (h2 : a < (descAddr c r i).toNat + 16) :
    locate c a = .desc r i := by
  cases h : locate c a with
  | plain => have := (locate_plain h hi).1; omega
  | buf q j m =>
    obtain ⟨hj, h3, h4⟩ := locate_buf h
    have := desc_buf hc hi hj
    omega
  | desc q j =>
    obtain ⟨hj, h3, h4⟩ := locate_desc h
    by_cases hne : r ≠ q ∨ i ≠ j
    · have := desc_desc hc hi hj hne; omega
    · obtain ⟨rfl, rfl⟩ : r = q ∧ i = j := by
        constructor <;> by_contra hx
        · exact hne (.inl hx)
        · exact hne (.inr hx)
      rfl

/-- Every byte of a buffer is located in it. -/
theorem locate_of_buf {c : Config} (hc : configOk c = true) {r : Ring} {i k : Nat} (hi : i < ringSize c r) (hk : k < c.cap) :
    locate c ((bufAddr c r i).toNat + k) = .buf r i k := by
  cases h : locate c ((bufAddr c r i).toNat + k) with
  | plain => have := (locate_plain h hi).2; omega
  | desc q j =>
    obtain ⟨hj, h1, h2⟩ := locate_desc h
    have := desc_buf hc hj hi
    omega
  | buf q j m =>
    obtain ⟨hj, h1, h2⟩ := locate_buf h
    by_cases hne : r ≠ q ∨ i ≠ j
    · have := buf_buf hc hi hj hne; omega
    · obtain ⟨rfl, rfl⟩ : r = q ∧ i = j := by
        constructor <;> by_contra hx
        · exact hne (.inl hx)
        · exact hne (.inr hx)
      congr 1; omega

/-- The address of a buffer's byte does not wrap. -/
theorem bufByte_toNat {c : Config} (hc : configOk c = true) {r : Ring} {i k : Nat} (hi : i < ringSize c r) (hk : k < c.cap) :
    (bufAddr c r i + BitVec.ofNat 32 k).toNat = (bufAddr c r i).toNat + k := by
  have := (buf_bounds hc hi).2
  exact toNat_add_small _ _ (by omega)

end Sys2Proof.Machine
end

