-- ==== Sys2Proof/Laws/Layout.lean ====
section
/-! SUPPORT. What a well-formed DescLayout gives: the bits of the descriptor words the model writes, and OWN in each of them
(30_encoding.md R90 to R97). -/

namespace Sys2Proof.Machine

/-! ### Bits -/

theorem getLsbD_bitMask (n : Nat) {b : Nat} (hb : b < 32) : (bitMask n).getLsbD b = decide (b = n) := by
  simp only [bitMask, BitVec.getLsbD_shiftLeft, hb, decide_true, Bool.true_and]
  by_cases h : b < n
  · simp [h]; omega
  · simp only [h, decide_false, Bool.not_false, Bool.true_and, BitVec.getLsbD_one]
    by_cases h2 : b = n
    · simp [h2]
    · simp [h2]; omega

theorem getLsbD_maskOf (bits : List Nat) {b : Nat} (hb : b < 32) :
    (maskOf bits).getLsbD b = decide (b ∈ bits) := by
  induction bits with
  | nil => simp [maskOf]
  | cons n ns ih =>
    simp only [maskOf, List.foldr_cons, BitVec.getLsbD_or] at ih ⊢
    rw [ih, getLsbD_bitMask n hb]
    simp

theorem mem_rangeBits {f : BitRange} {b : Nat} : b ∈ rangeBits f ↔ f.lo ≤ b ∧ b < f.lo + f.width := by
  simp only [rangeBits, List.mem_map, List.mem_range]
  constructor
  · rintro ⟨k, hk, rfl⟩; omega
  · rintro ⟨h1, h2⟩; exact ⟨b - f.lo, by omega, by omega⟩

theorem getLsbD_fieldAt (f : BitRange) {v b : Nat} (hv : v < 2 ^ f.width) (hb : b < 32) :
    (fieldAt f v).getLsbD b = (decide (b ∈ rangeBits f) && v.testBit (b - f.lo)) := by
  simp only [fieldAt, BitVec.getLsbD_shiftLeft, BitVec.getLsbD_ofNat, hb, decide_true, Bool.true_and, mem_rangeBits]
  by_cases h : b < f.lo
  · simp [h]
  · by_cases h2 : b < f.lo + f.width
    · have h3 : b - f.lo < 32 := by omega
      simp [h, h2, h3, Nat.le_of_not_lt h]
    · have : v.testBit (b - f.lo) = false :=
        Nat.testBit_lt_two_pow (lt_of_lt_of_le hv (Nat.pow_le_pow_right (by omega) (by omega)))
      simp [this]

/-- A number that fits a field is read back from it, whatever the other bits of the word are. -/
theorem fieldOf_eq (f : BitRange) {v : Nat} {w : Word} (hv : v < 2 ^ f.width)
    (h : ∀ k, k < f.width → w.getLsbD (f.lo + k) = v.testBit k) : fieldOf f w = v := by
  apply Nat.eq_of_testBit_eq
  intro k
  rw [fieldOf, BitVec.testBit_toNat, BitVec.getLsbD_extractLsb']
  by_cases hk : k < f.width
  · simp [hk, h k hk]
  · have : v.testBit k = false := Nat.testBit_lt_two_pow (lt_of_lt_of_le hv (Nat.pow_le_pow_right (by omega) (by omega)))
    simp [hk, this]

theorem bitsOk_iff (bits : List Nat) : bitsOk bits = true ↔ (∀ b ∈ bits, b < 32) ∧ bits.Nodup := by
  simp [bitsOk]

/-! ### The places a well-formed layout gives -/

section
variable {c : Config} (hl : layoutOk c = true)
include hl

theorem layout_parts :
    bitsOk (rxWord0Bits c.layout.rx) = true ∧ bitsOk (rxWord1Bits c.layout.rx) = true ∧ bitsOk (txWord0Bits c) = true ∧
      bitsOk (rangeBits c.layout.tx.bufferSize) = true ∧ c.cap < 2 ^ c.layout.rx.bufferSize.width ∧
      c.cap < 2 ^ c.layout.tx.bufferSize.width ∧ c.cap < flMax c := by
  simp only [layoutOk, Bool.and_eq_true, decide_eq_true_eq] at hl
  tauto

/-- OWN is a bit of the word. -/
theorem ownPos_lt (r : Ring) : ownPos c r < 32 := by
  obtain ⟨h0, -, h1, -⟩ := layout_parts hl
  cases r
  · exact ((bitsOk_iff _).1 h0).1 _ (List.mem_cons_self ..)
  · exact ((bitsOk_iff _).1 h1).1 _ (List.mem_cons_self ..)

/-- Rx OWN is none of the other bits of word 0. -/
theorem rx_own_alone :
    c.layout.rx.own ≠ c.layout.rx.firstSegment ∧ c.layout.rx.own ≠ c.layout.rx.lastSegment ∧
      c.layout.rx.own ∉ c.layout.rx.errors ++ c.layout.rx.drawn ∧
      c.layout.rx.own ∉ rangeBits c.layout.rx.frameLength := by
  have h := ((bitsOk_iff _).1 (layout_parts hl).1).2
  simp only [rxWord0Bits, List.nodup_cons, List.mem_cons, List.mem_append, not_or] at h ⊢
  tauto

/-- Tx OWN is none of the other bits of word 0. -/
theorem tx_own_alone : c.layout.tx.own ∉ txControlBits c ∧ c.layout.tx.own ∉ c.layout.tx.status := by
  have h := ((bitsOk_iff _).1 (layout_parts hl).2.2.1).2
  simp only [txWord0Bits, List.nodup_cons, List.mem_append, not_or] at h
  exact h.1

/-- A status bit of Tx word 0 is no control bit. -/
theorem tx_status_not_control {b : Nat} (hb : b ∈ c.layout.tx.status) : b ∉ txControlBits c := by
  have h := ((bitsOk_iff _).1 (layout_parts hl).2.2.1).2
  simp only [txWord0Bits, List.nodup_cons] at h
  exact fun hc => (List.disjoint_of_nodup_append h.2) hc hb

/-! ### OWN in the words written (R39, R94, R96, R205, R214) -/

/-- RX_W0_DMA has OWN = 1 (R94). -/
theorem own_rxW0Dma : ownBit c .rx (rxW0Dma c) = true := by
  have := ownPos_lt hl .rx
  rw [ownBit, rxW0Dma, getLsbD_bitMask _ this]
  simp [ownPos]

/-- A deposit leaves OWN = 0 (R205). -/
theorem own_deposit (n : Nat) (st : Word) : ownBit c .rx (rxDepositW0 c n st) = false := by
  have hb := ownPos_lt hl .rx
  obtain ⟨h1, h2, h3, h4⟩ := rx_own_alone hl
  have hv : min n (flMax c) < 2 ^ c.layout.rx.frameLength.width := by
    have := Nat.two_pow_pos c.layout.rx.frameLength.width
    unfold flMax
    omega
  simp only [ownBit, rxDepositW0, rxDrawMask, BitVec.getLsbD_or, BitVec.getLsbD_and, getLsbD_maskOf _ hb,
    getLsbD_fieldAt _ hv hb]
  simp only [ownPos] at *
  simp [h1, h2, h4]
  simp at h3
  simp [h3]

/-- A close leaves OWN = 0 (R214). -/
theorem own_close (w st : Word) : ownBit c .tx (txCloseW0 c w st) = false := by
  have hb := ownPos_lt hl .tx
  obtain ⟨h1, h2⟩ := tx_own_alone hl
  simp only [ownBit, txCloseW0, txKeepMask, txStatusMask, BitVec.getLsbD_or, BitVec.getLsbD_and, getLsbD_maskOf _ hb]
  simp only [ownPos] at *
  simp [h1, h2]

omit hl in
/-- The bits of TX_CTRL (R96). -/
theorem getLsbD_txCtrl (i : Nat) {b : Nat} (hb : b < 32) :
    (txCtrl c i).getLsbD b =
      (decide (b ∈ txSetBits c) || (decide (i + 1 = c.tx.length) && decide (b = c.layout.tx.ringEnd))) := by
  unfold txCtrl
  rw [BitVec.getLsbD_or, getLsbD_maskOf _ hb]
  split_ifs with h <;> simp [h, getLsbD_bitMask _ hb]

/-- TX_START leaves OWN = 0 (R170). -/
theorem own_ctrl (i : Nat) : ownBit c .tx (txCtrl c i) = false := by
  have hb := ownPos_lt hl .tx
  have h1 := (tx_own_alone hl).1
  simp only [txControlBits, List.mem_cons, List.mem_append, not_or] at h1
  rw [ownBit, getLsbD_txCtrl i hb]
  simp only [ownPos] at *
  simp [h1]

/-- A commit sets OWN (R175). -/
theorem own_commit (i : Nat) : ownBit c .tx (txCtrl c i ||| txOwn c) = true := by
  have hb := ownPos_lt hl .tx
  rw [ownBit, BitVec.getLsbD_or, txOwn, getLsbD_bitMask _ hb]
  simp [ownPos]

/-! ### The control bits of a Tx word 0 (R96, R214) -/

omit hl in
/-- TX_KEEP_MASK keeps the control bits. -/
theorem txCtrl_keep (i : Nat) : txCtrl c i &&& txKeepMask c = txCtrl c i := by
  apply BitVec.eq_of_getLsbD_eq
  intro b hb
  rw [BitVec.getLsbD_and, getLsbD_txCtrl i hb, txKeepMask, getLsbD_maskOf _ hb]
  simp only [txControlBits, List.mem_cons, List.mem_append]
  by_cases h1 : b ∈ txSetBits c <;> by_cases h2 : b = c.layout.tx.ringEnd <;> simp [h1, h2]

/-- TX_KEEP_MASK drops OWN. -/
theorem txCtrl_own_keep (i : Nat) : (txCtrl c i ||| txOwn c) &&& txKeepMask c = txCtrl c i := by
  apply BitVec.eq_of_getLsbD_eq
  intro b hb
  have h := congrArg (fun w => w.getLsbD b) (txCtrl_keep (c := c) i)
  simp only [BitVec.getLsbD_and] at h
  simp only [BitVec.getLsbD_and, BitVec.getLsbD_or, txOwn, getLsbD_bitMask _ hb]
  by_cases ho : b = c.layout.tx.own
  · have hk : (txKeepMask c).getLsbD b = false := by
      rw [txKeepMask, getLsbD_maskOf _ hb, ho]
      simpa using (tx_own_alone hl).1
    have hz : (txCtrl c i).getLsbD b = false := by rw [← h, hk, Bool.and_false]
    rw [hk, hz, Bool.and_false]
  · rw [decide_eq_false ho, Bool.or_false, h]

/-- A close keeps the control bits. -/
theorem txClose_keep (w st : Word) : txCloseW0 c w st &&& txKeepMask c = w &&& txKeepMask c := by
  apply BitVec.eq_of_getLsbD_eq
  intro b hb
  simp only [txCloseW0, BitVec.getLsbD_and, BitVec.getLsbD_or, txKeepMask, txStatusMask, getLsbD_maskOf _ hb]
  by_cases h1 : b ∈ c.layout.tx.status
  · simp [h1, tx_status_not_control hl h1]
  · simp [h1]

/-! ### Numbers in fields -/

/-- A length up to CAP is read back from TBS1 (R97, R175). -/
theorem txLen_txW1 {len : Nat} (h : len ≤ c.cap) : txLen c (txW1 c len) = len := by
  obtain ⟨-, -, -, hr, -, hcap, -⟩ := layout_parts hl
  have hv : len < 2 ^ c.layout.tx.bufferSize.width := by omega
  refine fieldOf_eq _ hv fun k hk => ?_
  have hm : c.layout.tx.bufferSize.lo + k ∈ rangeBits c.layout.tx.bufferSize := mem_rangeBits.2 ⟨by omega, by omega⟩
  have hb := ((bitsOk_iff _).1 hr).1 _ hm
  rw [txW1, getLsbD_fieldAt _ hv hb]
  simp [hm]

end

/-- The default layout is well formed for every CAP of R9. -/
theorem layoutOk_default {c : Config} (h : c.layout = DescLayout.default) (hcap : c.cap ≤ 8191) : layoutOk c = true := by
  obtain ⟨rx, tx, cap, base, layout, bound⟩ := c
  subst h
  have key : ∀ n : Nat, n ≤ 8191 → decide (n < 2 ^ 13 ∧ n < 2 ^ 13 ∧ n < 2 ^ 14 - 1) = true := by
    intro n hn; simp; omega
  simp only [layoutOk, Bool.and_eq_true]
  refine ⟨⟨⟨⟨by decide, by decide⟩, ?_⟩, by decide⟩, key cap hcap⟩
  show bitsOk
    [31, 21, 30, 29, 28, 20, 27, 26, 25, 24, 23, 22, 0, 1, 2, 3, 4, 5, 6, 7, 8, 9, 10, 11, 12, 13, 14, 15, 16, 17] = true
  decide

/-- The masks of the default layout, as R91, R94 and R96 write them. -/
theorem default_masks {c : Config} (h : c.layout = DescLayout.default) :
    rxErrMask c = 0x0000D85A#32 ∧ rxDrawMask c = 0x4000FCFF#32 ∧ txKeepMask c = 0x7FF00000#32 ∧
      txStatusMask c = 0x0003FFFF#32 ∧ rxW0Dma c = 0x80000000#32 ∧ txOwn c = 0x80000000#32 ∧ flMax c = 0x3FFF := by
  simp only [rxErrMask, rxDrawMask, txKeepMask, txControlBits, txSetBits, txStatusMask, rxW0Dma, txOwn, flMax, h]
  decide

/-- The words 1 and 0 of the default layout, as R94, R96 and R175 write them. -/
theorem default_words {c : Config} (h : c.layout = DescLayout.default) :
    (∀ i, rxW1 c i = 0x00004000#32 ||| BitVec.ofNat 32 c.cap |||
      (if i + 1 = c.rx.length then 0x00008000#32 else 0#32)) ∧
    (∀ i, txCtrl c i = if i + 1 = c.tx.length then 0x70300000#32 else 0x70100000#32) ∧
    ∀ len, txW1 c len = BitVec.ofNat 32 len := by
  have field : ∀ v, fieldAt { lo := 0, width := 13 } v = BitVec.ofNat 32 v := fun v => by simp [fieldAt]
  refine ⟨fun i => ?_, fun i => ?_, fun len => ?_⟩
  · simp only [rxW1, h]
    rw [show DescLayout.default.rx.bufferSize = { lo := 0, width := 13 } from rfl, field]
    rfl
  · simp only [txCtrl, txSetBits, h]
    split <;> decide
  · simp only [txW1, h]
    exact field len

end Sys2Proof.Machine
end

