-- ==== Sys2Proof/Laws/Descriptor.lean ====
section
/-! SUPPORT. Descriptor words after descriptor writes, buffer writes and the START commands, for a well-formed
configuration. -/

namespace Sys2Proof.Machine

section
variable {s t : State} (hc : configOk s.cfg = true)
include hc

/-- The address of a descriptor word does not wrap. -/
theorem descWordAddr_toNat {r : Ring} {i k : Nat} (hi : i < ringSize s.cfg r) (hk : k < 4) :
    (descWordAddr s.cfg r i k).toNat = (descAddr s.cfg r i).toNat + 4 * k := by
  have := (desc_bounds hc hi).2
  exact toNat_add_small _ _ (by omega)

/-- A descriptor whose bytes are as before reads as before. -/
theorem desc_of_bytes (hcfg : t.cfg = s.cfg) {r : Ring} {i k : Nat} (hi : i < ringSize s.cfg r) (hk : k < 4)
    (h : ∀ x : Addr, (descAddr s.cfg r i).toNat + 4 * k ≤ x.toNat →
      x.toNat < (descAddr s.cfg r i).toNat + 4 * k + 4 → t.byteAt x = s.byteAt x) :
    t.desc r i k = s.desc r i k := by
  have hb := (desc_bounds hc hi).2
  have ha := descWordAddr_toNat hc hi hk
  unfold State.desc
  rw [hcfg]
  apply wordAt_of_bytes _ (by omega)
  intro x h1 h2
  exact h x (by omega) (by omega)

/-- A descriptor word written is read back. -/
theorem desc_setDesc_same {r : Ring} {i k : Nat} (hi : i < ringSize s.cfg r) (hk : k < 4) (v : Word) :
    (s.setDesc r i k v).desc r i k = v := by
  have hb := (desc_bounds hc hi).2
  have ha := descWordAddr_toNat hc hi hk
  exact wordAt_putWord_same s _ _ v (by simp only [setDesc_fields]; omega) rfl

/-- A descriptor write leaves every byte outside its word. -/
theorem byteAt_setDesc_outside {r : Ring} {i k : Nat} (hi : i < ringSize s.cfg r) (hk : k < 4) (v : Word) (x : Addr)
    (hx : x.toNat < (descAddr s.cfg r i).toNat + 4 * k ∨ (descAddr s.cfg r i).toNat + 4 * k + 4 ≤ x.toNat) :
    (s.setDesc r i k v).byteAt x = s.byteAt x := by
  have hb := (desc_bounds hc hi).2
  have ha := descWordAddr_toNat hc hi hk
  exact byteAt_putWord_outside s _ _ x v (by omega) (by omega) rfl

/-- A descriptor write leaves every other descriptor word. -/
theorem desc_setDesc_ne {r q : Ring} {i k j l : Nat} (hi : i < ringSize s.cfg r) (hk : k < 4)
    (hj : j < ringSize s.cfg q) (hl : l < 4) (v : Word) (hne : r ≠ q ∨ i ≠ j ∨ k ≠ l) :
    (s.setDesc r i k v).desc q j l = s.desc q j l := by
  apply desc_of_bytes (t := s.setDesc r i k v) hc rfl hj hl
  intro x h1 h2
  apply byteAt_setDesc_outside hc hi hk
  by_cases h : r ≠ q ∨ i ≠ j
  · have := desc_desc hc hi hj h
    omega
  · obtain ⟨rfl, rfl⟩ : r = q ∧ i = j := by
      constructor <;> by_contra h'
      · exact h (.inl h')
      · exact h (.inr h')
    have hkl : k ≠ l := by simpa using hne
    omega

/-- Bytes written inside a buffer leave every descriptor word. -/
theorem desc_putBytes_buf (hcfg : t.cfg = s.cfg) {q : Ring} {j off : Nat} (hj : j < ringSize s.cfg q)
    {bs : List Byte} {a : Addr} (ha : a.toNat = (bufAddr s.cfg q j).toNat + off) (hlen : off + bs.length ≤ s.cfg.cap)
    (hm : t.mem = Memory.putBytes s.mem a bs) {r : Ring} {i k : Nat} (hi : i < ringSize s.cfg r) (hk : k < 4) :
    t.desc r i k = s.desc r i k := by
  apply desc_of_bytes hc hcfg hi hk
  intro x h1 h2
  have h3 := desc_buf hc hi hj
  have h4 := (buf_bounds hc hj).2
  apply byteAt_of_get?
  rw [hm]
  exact get?_putBytes_outside _ _ _ _ (by omega) (by omega)

end

/-- Descriptor writes of one ring in order: entry, word, value. -/
def State.setDescs (s : State) (r : Ring) : List (Nat × Nat × Word) → State
  | [] => s
  | x :: xs => State.setDescs (s.setDesc r x.1 x.2.1 x.2.2) r xs

theorem setDescs_eq (s : State) (r : Ring) (xs : List (Nat × Nat × Word)) :
    s.setDescs r xs =
      { s with mem := Memory.putWords s.mem (xs.map fun x => (descWordAddr s.cfg r x.1 x.2.1, x.2.2)) } := by
  induction xs generalizing s with
  | nil => rfl
  | cons x xs ih => rw [State.setDescs, ih]; rfl

/-- After descriptor writes that agree wherever two name one word, a word written holds its value and a word not
written what it had. -/
theorem desc_setDescs {s : State} (hc : configOk s.cfg = true) {r : Ring} {xs : List (Nat × Nat × Word)}
    (hxs : ∀ x ∈ xs, x.1 < ringSize s.cfg r ∧ x.2.1 < 4)
    (hfun : ∀ x ∈ xs, ∀ y ∈ xs, x.1 = y.1 → x.2.1 = y.2.1 → x.2.2 = y.2.2)
    {i k : Nat} (hi : i < ringSize s.cfg r) (hk : k < 4) :
    (∀ v, (i, k, v) ∈ xs → (s.setDescs r xs).desc r i k = v) ∧
      ((∀ v, (i, k, v) ∉ xs) → (s.setDescs r xs).desc r i k = s.desc r i k) := by
  induction xs generalizing s with
  | nil => simp [State.setDescs]
  | cons x xs ih =>
    obtain ⟨hx1, hx2⟩ := hxs x (List.mem_cons_self ..)
    have hih := ih (s := s.setDesc r x.1 x.2.1 x.2.2) hc
      (fun y hy => hxs y (List.mem_cons_of_mem _ hy))
      (fun y hy z hz => hfun y (List.mem_cons_of_mem _ hy) z (List.mem_cons_of_mem _ hz)) hi
    rw [State.setDescs]
    constructor
    · intro v hv
      by_cases hin : ∃ w, (i, k, w) ∈ xs
      · obtain ⟨w, hw⟩ := hin
        rw [hih.1 w hw]
        exact hfun _ (List.mem_cons_of_mem _ hw) _ hv rfl rfl
      · have hout : ∀ w, (i, k, w) ∉ xs := fun w hw => hin ⟨w, hw⟩
        rw [hih.2 hout]
        rcases List.mem_cons.1 hv with rfl | hv
        · exact desc_setDesc_same hc hi hk v
        · exact absurd hv (hout v)
    · intro hout
      rw [hih.2 (fun v hv => hout v (List.mem_cons_of_mem _ hv))]
      apply desc_setDesc_ne hc hx1 hx2 hi hk
      by_contra h
      push Not at h
      obtain ⟨-, h1, h2⟩ := h
      refine hout x.2.2 ?_
      rw [← h1, ← h2]
      exact List.mem_cons_self ..

/-- The writes of RX_START as entry, word, value (R140). -/
def rxStartSlots (c : Config) : List (Nat × Nat × Word) :=
  ((List.range (ringSize c .rx)).flatMap fun i =>
    [(i, 1, rxW1 c i), (i, 2, bufAddr c .rx i), (i, 3, descAddr c .rx (nextIndex c .rx i))]) ++
  (List.range (ringSize c .rx)).map fun i => (i, 0, rxW0Dma c)

/-- The writes of TX_START as entry, word, value (R170). -/
def txStartSlots (c : Config) : List (Nat × Nat × Word) :=
  (List.range (ringSize c .tx)).flatMap fun i =>
    [(i, 1, 0#32), (i, 2, bufAddr c .tx i), (i, 3, descAddr c .tx (nextIndex c .tx i)), (i, 0, txCtrl c i)]

theorem rxStart_writes (c : Config) :
    rxLinkWrites c ++ rxOwnWrites c =
      (rxStartSlots c).map fun x => (descWordAddr c .rx x.1 x.2.1, x.2.2) := by
  simp [rxLinkWrites, rxOwnWrites, rxStartSlots, List.map_flatMap]

theorem txStart_writes (c : Config) :
    txLinkWrites c = (txStartSlots c).map fun x => (descWordAddr c .tx x.1 x.2.1, x.2.2) := by
  simp [txLinkWrites, txStartSlots, List.map_flatMap]

theorem mem_rxStartSlots {c : Config} {x : Nat × Nat × Word} :
    x ∈ rxStartSlots c ↔ x.1 < ringSize c .rx ∧
      ((x.2.1 = 0 ∧ x.2.2 = rxW0Dma c) ∨ (x.2.1 = 1 ∧ x.2.2 = rxW1 c x.1) ∨
        (x.2.1 = 2 ∧ x.2.2 = bufAddr c .rx x.1) ∨
        (x.2.1 = 3 ∧ x.2.2 = descAddr c .rx (nextIndex c .rx x.1))) := by
  obtain ⟨i, k, v⟩ := x
  simp only [rxStartSlots, List.mem_append, List.mem_flatMap, List.mem_range, List.mem_map, List.mem_cons,
    List.not_mem_nil, or_false, Prod.mk.injEq]
  constructor
  · rintro (⟨j, hj, ⟨rfl, rfl, rfl⟩ | ⟨rfl, rfl, rfl⟩ | ⟨rfl, rfl, rfl⟩⟩ | ⟨j, hj, rfl, rfl, rfl⟩) <;> simp [hj]
  · rintro ⟨hi, ⟨rfl, rfl⟩ | ⟨rfl, rfl⟩ | ⟨rfl, rfl⟩ | ⟨rfl, rfl⟩⟩
    · exact .inr ⟨i, hi, rfl, rfl, rfl⟩
    all_goals exact .inl ⟨i, hi, by simp⟩

theorem mem_txStartSlots {c : Config} {x : Nat × Nat × Word} :
    x ∈ txStartSlots c ↔ x.1 < ringSize c .tx ∧
      ((x.2.1 = 0 ∧ x.2.2 = txCtrl c x.1) ∨ (x.2.1 = 1 ∧ x.2.2 = 0#32) ∨
        (x.2.1 = 2 ∧ x.2.2 = bufAddr c .tx x.1) ∨
        (x.2.1 = 3 ∧ x.2.2 = descAddr c .tx (nextIndex c .tx x.1))) := by
  obtain ⟨i, k, v⟩ := x
  simp only [txStartSlots, List.mem_flatMap, List.mem_range, List.mem_cons, List.not_mem_nil, or_false,
    Prod.mk.injEq]
  constructor
  · rintro ⟨j, hj, ⟨rfl, rfl, rfl⟩ | ⟨rfl, rfl, rfl⟩ | ⟨rfl, rfl, rfl⟩ | ⟨rfl, rfl, rfl⟩⟩ <;> simp [hj]
  · rintro ⟨hi, ⟨rfl, rfl⟩ | ⟨rfl, rfl⟩ | ⟨rfl, rfl⟩ | ⟨rfl, rfl⟩⟩
    all_goals exact ⟨i, hi, by simp⟩

/-- A descriptor depends on memory and the parameters only. -/
theorem startRx_desc_eq (s : State) : s.startRx.desc = (s.setDescs .rx (rxStartSlots s.cfg)).desc := by
  rw [setDescs_eq, ← rxStart_writes]
  unfold State.startRx
  rw [writeDmarpdr_eq]
  exact desc_congr rfl rfl

theorem startTx_desc_eq (s : State) : s.startTx.desc = (s.setDescs .tx (txStartSlots s.cfg)).desc := by
  rw [setDescs_eq, ← txStart_writes]
  exact desc_congr rfl rfl

/-- Every word of every Rx descriptor after RX_START (R140). -/
theorem startRx_desc {s : State} (hc : configOk s.cfg = true) {i : Nat} (hi : i < ringSize s.cfg .rx) :
    s.startRx.desc .rx i 0 = rxW0Dma s.cfg ∧ s.startRx.desc .rx i 1 = rxW1 s.cfg i ∧
      s.startRx.desc .rx i 2 = bufAddr s.cfg .rx i ∧
      s.startRx.desc .rx i 3 = descAddr s.cfg .rx (nextIndex s.cfg .rx i) := by
  rw [startRx_desc_eq]
  have key : ∀ k v, k < 4 → (i, k, v) ∈ rxStartSlots s.cfg →
      (s.setDescs .rx (rxStartSlots s.cfg)).desc .rx i k = v := by
    intro k v hk hv
    refine (desc_setDescs hc ?_ ?_ hi hk).1 v hv
    · intro x hx
      obtain ⟨h1, h2⟩ := mem_rxStartSlots.1 hx
      exact ⟨h1, by omega⟩
    · intro x hx y hy h1 h2
      have hx := (mem_rxStartSlots.1 hx).2
      have hy := (mem_rxStartSlots.1 hy).2
      rw [h1, h2] at hx
      rcases hx with ⟨a, b⟩ | ⟨a, b⟩ | ⟨a, b⟩ | ⟨a, b⟩ <;> rcases hy with ⟨c, d⟩ | ⟨c, d⟩ | ⟨c, d⟩ | ⟨c, d⟩ <;>
        first | omega | (rw [b, d])
  exact ⟨key 0 _ (by omega) (mem_rxStartSlots.2 ⟨hi, by simp⟩), key 1 _ (by omega) (mem_rxStartSlots.2 ⟨hi, by simp⟩),
    key 2 _ (by omega) (mem_rxStartSlots.2 ⟨hi, by simp⟩), key 3 _ (by omega) (mem_rxStartSlots.2 ⟨hi, by simp⟩)⟩

/-- Every word of every Tx descriptor after TX_START (R170). -/
theorem startTx_desc {s : State} (hc : configOk s.cfg = true) {i : Nat} (hi : i < ringSize s.cfg .tx) :
    s.startTx.desc .tx i 0 = txCtrl s.cfg i ∧ s.startTx.desc .tx i 1 = 0#32 ∧
      s.startTx.desc .tx i 2 = bufAddr s.cfg .tx i ∧
      s.startTx.desc .tx i 3 = descAddr s.cfg .tx (nextIndex s.cfg .tx i) := by
  rw [startTx_desc_eq]
  have key : ∀ k v, k < 4 → (i, k, v) ∈ txStartSlots s.cfg →
      (s.setDescs .tx (txStartSlots s.cfg)).desc .tx i k = v := by
    intro k v hk hv
    refine (desc_setDescs hc ?_ ?_ hi hk).1 v hv
    · intro x hx
      obtain ⟨h1, h2⟩ := mem_txStartSlots.1 hx
      exact ⟨h1, by omega⟩
    · intro x hx y hy h1 h2
      have hx := (mem_txStartSlots.1 hx).2
      have hy := (mem_txStartSlots.1 hy).2
      rw [h1, h2] at hx
      rcases hx with ⟨a, b⟩ | ⟨a, b⟩ | ⟨a, b⟩ | ⟨a, b⟩ <;> rcases hy with ⟨c, d⟩ | ⟨c, d⟩ | ⟨c, d⟩ | ⟨c, d⟩ <;>
        first | omega | (rw [b, d])
  exact ⟨key 0 _ (by omega) (mem_txStartSlots.2 ⟨hi, by simp⟩), key 1 _ (by omega) (mem_txStartSlots.2 ⟨hi, by simp⟩),
    key 2 _ (by omega) (mem_txStartSlots.2 ⟨hi, by simp⟩), key 3 _ (by omega) (mem_txStartSlots.2 ⟨hi, by simp⟩)⟩

/-- Bytes after descriptor writes of one ring, outside all the ring's descriptors. -/
theorem byteAt_setDescs_outside {s : State} (hc : configOk s.cfg = true) {r : Ring} {xs : List (Nat × Nat × Word)}
    (hxs : ∀ x ∈ xs, x.1 < ringSize s.cfg r ∧ x.2.1 < 4) (x : Addr)
    (hx : ∀ i, i < ringSize s.cfg r →
      x.toNat < (descAddr s.cfg r i).toNat ∨ (descAddr s.cfg r i).toNat + 16 ≤ x.toNat) :
    (s.setDescs r xs).byteAt x = s.byteAt x := by
  induction xs generalizing s with
  | nil => rfl
  | cons y xs ih =>
    obtain ⟨h1, h2⟩ := hxs y (List.mem_cons_self ..)
    rw [State.setDescs, ih (s := s.setDesc r y.1 y.2.1 y.2.2) hc (fun z hz => hxs z (List.mem_cons_of_mem _ hz)) hx]
    apply byteAt_setDesc_outside hc h1 h2
    have := hx y.1 h1
    omega

/-- RX_START writes no byte outside the Rx descriptors (R140). -/
theorem startRx_byteAt {s : State} (hc : configOk s.cfg = true) (x : Addr)
    (hx : ∀ i, i < ringSize s.cfg .rx →
      x.toNat < (descAddr s.cfg .rx i).toNat ∨ (descAddr s.cfg .rx i).toNat + 16 ≤ x.toNat) :
    s.startRx.byteAt x = s.byteAt x := by
  have h : s.startRx.byteAt = (s.setDescs .rx (rxStartSlots s.cfg)).byteAt := by
    rw [setDescs_eq, ← rxStart_writes]
    unfold State.startRx
    rw [writeDmarpdr_eq]
    exact byteAt_congr rfl
  rw [h]
  refine byteAt_setDescs_outside hc ?_ x hx
  intro y hy
  obtain ⟨h1, h2⟩ := mem_rxStartSlots.1 hy
  exact ⟨h1, by omega⟩

/-- TX_START writes no byte outside the Tx descriptors (R170). -/
theorem startTx_byteAt {s : State} (hc : configOk s.cfg = true) (x : Addr)
    (hx : ∀ i, i < ringSize s.cfg .tx →
      x.toNat < (descAddr s.cfg .tx i).toNat ∨ (descAddr s.cfg .tx i).toNat + 16 ≤ x.toNat) :
    s.startTx.byteAt x = s.byteAt x := by
  have h : s.startTx.byteAt = (s.setDescs .tx (txStartSlots s.cfg)).byteAt := by
    rw [setDescs_eq, ← txStart_writes]
    exact byteAt_congr rfl
  rw [h]
  refine byteAt_setDescs_outside hc ?_ x hx
  intro y hy
  obtain ⟨h1, h2⟩ := mem_txStartSlots.1 hy
  exact ⟨h1, by omega⟩

end Sys2Proof.Machine
end

