-- ==== Sys2Proof/Laws/Effects.lean ====
section
/-! SUPPORT. What a step can do, said once: every next state of a command, a move and a step is one of the effects below. -/

namespace Sys2Proof.Machine

/-- One effect of a move on the state, with the conditions it happens under. -/
inductive Effect (s : State) : State → Prop
  /-- a command that changes the result registers only -/
  | result (c : Code) (i v : Nat) (a : Addr) : Effect s (s.finish c i v a)
  /-- RX_START of a ring not started -/
  | startRx (h : s.dmaomr.sr = false) : Effect s (s.startRx.finish .ok 0 0 0#32)
  /-- RX_RECV_NEXT, CORRUPTED -/
  | recycleRx (hsr : s.dmaomr.sr = true) (htok : s.rxToken = none) (hown : s.ownedByDma .rx s.rxNext = false)
      (hbad : rxValid s.cfg (s.desc .rx s.rxNext 0) = false) :
      Effect s (s.recycleRx.finish .corrupted s.rxNext 0 0#32)
  /-- RX_RECV_NEXT, OK -/
  | openRx (hsr : s.dmaomr.sr = true) (htok : s.rxToken = none) (hown : s.ownedByDma .rx s.rxNext = false)
      (hok : rxValid s.cfg (s.desc .rx s.rxNext 0) = true) :
      Effect s ((s.openRx (frameLen s.cfg (s.desc .rx s.rxNext 0))).finish .ok s.rxNext
        (frameLen s.cfg (s.desc .rx s.rxNext 0)) (bufAddr s.cfg .rx s.rxNext))
  /-- RX_RELEASE, OK -/
  | release (w : Window) (htok : s.rxToken = some w) :
      Effect s (State.finish { s.handBackRx w.index with rxToken := none } .ok w.index 0 0#32)
  /-- TX_START of a ring not started -/
  | startTx (h : s.dmaomr.st = false) : Effect s (s.startTx.finish .ok 0 0 0#32)
  /-- TX_SEND, OK -/
  | openTx (len : Nat) (hst : s.dmaomr.st = true) (htok : s.txToken = none) (hlen : len ≤ s.cfg.cap)
      (hown : s.ownedByDma .tx s.txNext = false) :
      Effect s ((s.openTx len).finish .ok s.txNext len (bufAddr s.cfg .tx s.txNext))
  /-- TX_COMMIT, OK -/
  | commitTx (w : Window) (htok : s.txToken = some w) :
      Effect s (State.finish { s.commitTx w with txNext := nextIndex s.cfg .tx w.index, txToken := none }
        .ok w.index w.len 0#32)
  /-- TX_DEMAND_POLL -/
  | pollTx : Effect s ((s.writeDmatpdr 0#32).finish .ok 0 0 0#32)
  /-- IRQ_ENABLE -/
  | irqEnable : Effect s (State.finish { s with dmaier := { tie := true, rie := true, nise := true } } .ok 0 0 0#32)
  /-- IRQ_HANDLE -/
  | irqHandle : Effect s (State.finish { s with dmasr := { s.dmasr with ts := false, rs := false } } .ok 0 0 0#32)
  /-- RX_FETCH -/
  | rxFetch (h : s.rxFetchEnabled = true) (hr : s.raced .rx s.rxDma = false) : Effect s s.rxFetch
  /-- RX_DEPOSIT -/
  | rxDeposit (frame : List Byte) (st : Word) (h : s.rxDepositEnabled = true) (hr : s.raced .rx s.rxDma = false) :
      Effect s (s.rxDeposit frame st)
  /-- TX_FETCH -/
  | txFetch (h : s.txFetchEnabled = true) (hr : s.raced .tx s.txDma = false) : Effect s s.txFetch
  /-- TX_CLOSE -/
  | txClose (st : Word) (h : s.txCloseEnabled = true) (hr : s.raced .tx s.txDma = false) : Effect s (s.txClose st)
  /-- a step of RXDMA on a raced entry -/
  | racedRx (hr : s.raced .rx s.rxDma = true) : Effect s s.racedRx
  /-- a step of TXDMA on a raced entry -/
  | racedTx (hr : s.raced .tx s.txDma = true) : Effect s s.racedTx
  /-- a CPU write to memory that races on nothing -/
  | store (a : Addr) (w : Width) (v : Word) (hin : insideSpace a w = true) (hport : touchesPort s.cfg a w = false)
      (hrace : s.racedEntries a w = []) :
      Effect s { s with mem := Memory.putBytes s.mem a ((wordBytes v).take w.bytes) }
  /-- a CPU write that races on the entries `es` -/
  | raceWrite (a : Addr) (w : Width) (es : List (Ring × Nat)) (hes : es ≠ []) : Effect s (s.raceWrite a w es)
  /-- a CPU read; of RES, it marks the result as read -/
  | observe (r : CpuRead) (u : ResUse) (n : Nat) (hu : u = s.resUse ∨ (u = .read ∧ s.commandDone = true)) :
      Effect s { s.observe r with resUse := u, draws := n }
  /-- a CPU read of a result register before the first command -/
  | earlyRead (r : CpuRead) (h : s.commandDone = false) :
      Effect s { s.observe r with faults := s.faults ++ [.resultBeforeCommand], draws := s.draws + 4 }
  /-- a CPU access that leaves the CPU agent without a step -/
  | stuck : Effect s s.stuckCpu
  /-- the soft reset's completion bit has cleared, before the first command -/
  | softReset (h : s.commandDone = false) (n : Nat) (hb : s.boot = .waiting n) : Effect s s.softReset
  /-- the facade starts, goes on with or gives up its wait, before the first command -/
  | wait (b : Boot) (h : s.commandDone = false) : Effect s { s with boot := b }
  /-- a move that is not enabled, or a write the port ignores -/
  | same : Effect s s

/-- RX_RECV_NEXT answers a next state, one of its five outcomes (R142). -/
theorem execRxRecvNext_effect (s : State) : ∃ t, execRxRecvNext s = .next t ∧ Effect s t := by
  unfold execRxRecvNext
  split_ifs with h1 h2 h3 h4
  · exact ⟨_, rfl, .result ..⟩
  · exact ⟨_, rfl, .result ..⟩
  · exact ⟨_, rfl, .result ..⟩
  · exact ⟨_, rfl, .openRx (by simpa using h1) (by simpa using h2) (by simpa using h3) h4⟩
  · exact ⟨_, rfl, .recycleRx (by simpa using h1) (by simpa using h2) (by simpa using h3) (by simpa using h4)⟩

/-- TX_SEND answers a next state, one of its five outcomes (R172). -/
theorem execTxSend_effect (len : Nat) (s : State) : ∃ t, execTxSend len s = .next t ∧ Effect s t := by
  unfold execTxSend
  split_ifs with h1 h2 h3 h4
  · exact ⟨_, rfl, .result ..⟩
  · exact ⟨_, rfl, .result ..⟩
  · exact ⟨_, rfl, .result ..⟩
  · exact ⟨_, rfl, .result ..⟩
  · exact ⟨_, rfl, .openTx len (by simpa using h1) (by simpa using h2) (by simpa [lengthFits] using h3)
      (by simpa using h4)⟩

/-- The effect of a command: every command answers a next state (R250). -/
theorem exec_effect (i : Instr) (s : State) : ∃ t, exec i s = .next t ∧ Effect s t := by
  cases i with
  | rxStart =>
    simp only [exec, execRxStart]
    split_ifs with h
    · exact ⟨_, rfl, .result ..⟩
    · exact ⟨_, rfl, .startRx (by simpa using h)⟩
  | rxRecvNext => exact execRxRecvNext_effect s
  | rxRelease =>
    simp only [exec, execRxRelease]
    split
    · exact ⟨_, rfl, .result ..⟩
    · next w h => exact ⟨_, rfl, .release w h⟩
  | rxRunningState => exact ⟨_, rfl, .result ..⟩
  | rxIsRunning => exact ⟨_, rfl, .result ..⟩
  | txStart =>
    simp only [exec, execTxStart]
    split_ifs with h
    · exact ⟨_, rfl, .result ..⟩
    · exact ⟨_, rfl, .startTx (by simpa using h)⟩
  | txSend len => exact execTxSend_effect len s
  | txCommit =>
    simp only [exec, execTxCommit]
    split
    · exact ⟨_, rfl, .result ..⟩
    · next w h => exact ⟨_, rfl, .commitTx w h⟩
  | txDemandPoll => exact ⟨_, rfl, .pollTx⟩
  | txIsRunning => exact ⟨_, rfl, .result ..⟩
  | irqEnable => exact ⟨_, rfl, .irqEnable⟩
  | irqHandle => exact ⟨_, rfl, .irqHandle⟩

/-- Writing any word to CMD answers a next state (R105, R251). -/
theorem execWord_effect (v : Word) (s : State) : ∃ t, execWord v s = .next t ∧ Effect s t := by
  unfold execWord
  split
  · exact exec_effect _ s
  · exact ⟨_, rfl, .result ..⟩

/-- The effect of a DMA agent's move. -/
theorem dmaStep_effect (m : DmaMove) (s : State) : Effect s (dmaStep m s) := by
  cases m <;> simp only [dmaStep, State.rxStep, State.txStep] <;> split_ifs with h hr
  · exact .racedRx hr
  · exact .rxFetch h (by simpa using hr)
  · exact .same
  · exact .racedRx hr
  · exact .rxDeposit _ _ h (by simpa using hr)
  · exact .same
  · exact .racedTx hr
  · exact .txFetch h (by simpa using hr)
  · exact .same
  · exact .racedTx hr
  · exact .txClose _ h (by simpa using hr)
  · exact .same

/-- The effect of a CPU write that goes on. -/
theorem cpuWrite_effect {a : Addr} {w : Width} {v : Word} {s t : State} (h : cpuWrite a w v s = .next t) :
    Effect s t := by
  unfold cpuWrite at h
  split_ifs at h with h1 h2 h3 h4
  · obtain ⟨u, hu, he⟩ := execWord_effect v s
    rw [hu] at h
    cases h
    exact he
  · cases h
    exact .same
  · cases h
    exact .stuck
  · split at h
    · next hr =>
      cases h
      exact .store a w v (by simpa using h1) (by simpa using h2) hr
    · next es hr =>
      cases h
      exact .raceWrite a w _ hr

/-- The effect of a read of a result register. -/
theorem readResult_effect (s : State) (a : Addr) (v : Word) (u : ResUse) (hu : u = s.resUse ∨ u = .read) :
    Effect s (readResult s a v u) := by
  unfold readResult
  split_ifs with h
  · exact .observe _ u s.draws (hu.imp id fun hr => ⟨hr, h⟩)
  · exact .earlyRead _ (by simpa using h)

/-- The effect of a CPU read that goes on. -/
theorem cpuRead_effect {a : Addr} {w : Width} {s t : State} (h : cpuRead a w s = .next t) : Effect s t := by
  unfold cpuRead at h
  split_ifs at h with h1 h2 h3 h4 h5 h6 <;> cases h
  · exact .observe _ s.resUse s.draws (.inl rfl)
  · exact readResult_effect s a _ _ (.inr rfl)
  · exact readResult_effect s a _ _ (.inl rfl)
  · exact .stuck
  · exact .observe _ s.resUse s.draws (.inl rfl)
  · exact .observe _ s.resUse _ (.inl rfl)

/-- The effect of a move of the platform or the facade. -/
theorem bootStep_effect (b : BootMove) (s : State) : Effect s (bootStep b s) := by
  unfold bootStep
  split_ifs with h
  · exact .same
  · have h : s.commandDone = false := by simpa using h
    split
    · exact .wait _ h
    · next n hb => exact .softReset h n hb
    · exact .wait _ h
    · exact .same
    · exact .same

/-- The effect of a move that goes on. -/
theorem perform_effect {m : Move} {s t : State} (h : perform m s = .next t) : Effect s t := by
  cases m with
  | cpu x =>
    simp only [perform, cpuAccess] at h
    split_ifs at h
    · cases x with
      | read a w => exact cpuRead_effect h
      | write a w v => exact cpuWrite_effect h
    · cases h; exact .same
  | dma d => cases h; exact dmaStep_effect d s
  | boot b =>
    cases h; exact bootStep_effect b s

/-- No effect clears a recorded fault (R255). -/
theorem faults_effect {s t : State} (he : Effect s t) : ∃ l, t.faults = s.faults ++ l := by
  cases he
  case startRx => exact ⟨[], by simp [State.startRx]⟩
  case recycleRx => exact ⟨[], by simp [State.recycleRx, State.handBackRx]⟩
  case release => exact ⟨[], by simp [State.handBackRx]⟩
  case pollTx => exact ⟨[], by simp⟩
  case raceWrite => exact ⟨_, rfl⟩
  case earlyRead => exact ⟨_, rfl⟩
  all_goals exact ⟨[], (List.append_nil _).symm⟩

/-- The CPU agent can step. -/
theorem cpuReady_iff {s : State} : s.cpuReady = true ↔ s.cpuFree := by simp [State.cpuReady, State.cpuFree]

/-- Choosing the next move changes the agenda and the counter only. -/
theorem choose_eq (s : State) : ∃ agenda draws, s.choose.2 = { s with agenda := agenda, draws := draws } := by
  unfold State.choose
  split
  · exact ⟨_, s.draws, rfl⟩
  · exact ⟨s.agenda, _, rfl⟩

/-- A move that can be taken is taken first. -/
theorem takeMove_head {ready : Bool} {m : Move} (rest : List Move) (h : isCpuMove m = false ∨ ready = true) :
    takeMove ready (m :: rest) = some (m, rest) := by
  rcases h with h | h <;> simp [takeMove, h]

/-- A CPU agent that cannot step keeps all its moves, in their order (R65, R283). -/
theorem takeMove_keeps {agenda others : List Move} {m : Move} (h : takeMove false agenda = some (m, others)) :
    isCpuMove m = false ∧ others.filter isCpuMove = agenda.filter isCpuMove := by
  induction agenda generalizing others with
  | nil => cases h
  | cons x rest ih =>
    by_cases hx : isCpuMove x = true
    · simp only [takeMove, hx, Bool.not_false, Bool.and_self, if_true] at h
      split at h
      · next y ys hy =>
        cases h
        obtain ⟨h1, h2⟩ := ih hy
        exact ⟨h1, by simp [hx, h2]⟩
      · cases h
    · have hx : isCpuMove x = false := by simpa using hx
      rw [takeMove_head rest (.inl hx)] at h
      cases h
      exact ⟨hx, by simp [hx]⟩

/-- What a step does: the chosen move's effect once the touched bytes are redrawn, under a well-formed configuration. -/
theorem step_effect {s t : State} (h : step s = .next t) :
    configOk s.cfg = true ∧ ∃ agenda draws, Effect (State.redraw { s with agenda := agenda, draws := draws }) t := by
  unfold step at h
  split_ifs at h with hc
  obtain ⟨agenda, draws, he⟩ := choose_eq s
  exact ⟨hc, agenda, draws, he ▸ perform_effect h⟩

/-- No step clears a recorded fault (R255). -/
theorem faults_step {s t : State} (h : step s = .next t) : ∃ l, t.faults = s.faults ++ l := by
  obtain ⟨-, agenda, draws, he⟩ := step_effect h
  obtain ⟨l, hl⟩ := faults_effect he
  exact ⟨l, hl⟩

/-- What a step does when no fault is recorded after it: the chosen move's effect, and none was recorded before. -/
theorem step_effect_of_no_fault {s t : State} (h : step s = .next t) (hf : t.faults = []) :
    configOk s.cfg = true ∧ s.faults = [] ∧ ∃ agenda draws, Effect { s with agenda := agenda, draws := draws } t := by
  obtain ⟨l, hl⟩ := faults_step h
  obtain ⟨hc, agenda, draws, he⟩ := step_effect h
  have hs : s.faults = [] := (List.append_eq_nil_iff.1 (hl.symm.trans hf)).1
  refine ⟨hc, hs, agenda, draws, ?_⟩
  rwa [redraw_of_no_fault (s := { s with agenda := agenda, draws := draws }) hs] at he

/-- A step of a state with a move placed next that can be taken is that move, the touched bytes redrawn. -/
theorem step_agenda {s : State} {m : Move} {rest : List Move} (hc : configOk s.cfg = true) (h : s.agenda = m :: rest)
    (hm : isCpuMove m = false ∨ s.cpuFree) : step s = perform m (State.redraw { s with agenda := rest }) := by
  simp only [step, hc, if_true, State.choose, h, takeMove_head rest (hm.imp_right cpuReady_iff.2)]

end Sys2Proof.Machine
end

