-- ==== Sys2Proof/Laws/Operations.lean ====
section
/-! SUPPORT. What each shared operation does to the descriptors and to memory, and what each effect keeps. -/

namespace Sys2Proof.Machine

/-- An access names no entry exactly when no byte of it races. -/
theorem racedEntries_nil {s : State} {a : Addr} {w : Width} :
    s.racedEntries a w = [] ↔ ∀ k, k < w.bytes → s.writeRace (a.toNat + k) = none := by
  have key : ∀ l : List (Ring × Nat), l.eraseDups = [] ↔ l = [] := by
    intro l
    cases l <;> simp [List.eraseDups_cons]
  rw [State.racedEntries, key, List.filterMap_eq_nil_iff]
  simp

/-- A CPU write that does not race lies outside every descriptor (R70). -/
theorem writeRace_none {s : State} {a : Nat} (h : s.writeRace a = none) {r : Ring} {i : Nat} (hi : i < ringSize s.cfg r)
    (hc : configOk s.cfg = true) : ¬ ((descAddr s.cfg r i).toNat ≤ a ∧ a < (descAddr s.cfg r i).toNat + 16) := by
  unfold State.writeRace at h
  split at h
  · next hp => exact (locate_plain hp hi).1
  · cases h
  · cases h
  · next j k hb =>
    obtain ⟨h1, h2, h3⟩ := locate_buf hb
    have := desc_buf hc hi h1
    omega

/-- The bytes a CPU write of a width writes. -/
theorem take_len (v : Word) (w : Width) : ((wordBytes v).take w.bytes).length = w.bytes := by
  cases w <;> rfl

/-- A CPU write leaves every byte outside the access. -/
theorem store_byte {s : State} {a : Addr} {w : Width} {v : Word} (hin : insideSpace a w = true) (x : Addr)
    (hx : x.toNat < a.toNat ∨ a.toNat + w.bytes ≤ x.toNat) :
    ({ s with mem := Memory.putBytes s.mem a ((wordBytes v).take w.bytes) } : State).byteAt x = s.byteAt x := by
  apply byteAt_of_get?
  simp only [insideSpace, decide_eq_true_eq] at hin
  exact get?_putBytes_outside _ _ _ _ (by rw [take_len]; exact hin) (by rw [take_len]; exact hx)

/-- A CPU write that races on nothing leaves every descriptor word (R70, R294). -/
theorem store_desc {s : State} (hc : configOk s.cfg = true) {a : Addr} {w : Width} {v : Word} (hin : insideSpace a w = true)
    (hrace : s.racedEntries a w = []) {r : Ring} {i k : Nat} (hi : i < ringSize s.cfg r) (hk : k < 4) :
    ({ s with mem := Memory.putBytes s.mem a ((wordBytes v).take w.bytes) } : State).desc r i k = s.desc r i k := by
  refine desc_of_bytes (s := s) hc ?_ hi hk ?_
  · rfl
  intro x h1 h2
  apply store_byte hin
  by_contra hn
  have := writeRace_none (racedEntries_nil.1 hrace (x.toNat - a.toNat) (by omega)) hi hc
  omega

/-- No effect changes the parameters (R43). -/
theorem cfg_effect {s t : State} (he : Effect s t) : t.cfg = s.cfg := by
  cases he
  case startRx => simp [State.startRx]
  case recycleRx => simp [State.recycleRx, State.handBackRx]
  case release => simp [State.handBackRx]
  case pollTx => simp
  all_goals rfl

/-- RX_DEPOSIT writes word 0 of the entry at the DMA cursor and no other descriptor word (R205). -/
theorem rxDeposit_desc {s : State} (hc : configOk s.cfg = true) (hd : s.rxDma < ringSize s.cfg .rx)
    (hl : s.desc .rx s.rxDma 2 = bufAddr s.cfg .rx s.rxDma) (f : List Byte) (st : Word) :
    (s.rxDeposit f st).desc .rx s.rxDma 0 = rxDepositW0 s.cfg f.length st ∧
    ∀ r i k, i < ringSize s.cfg r → k < 4 → (r ≠ .rx ∨ i ≠ s.rxDma ∨ k ≠ 0) →
      (s.rxDeposit f st).desc r i k = s.desc r i k := by
  unfold State.rxDeposit
  generalize hu : ({ s with mem := _, dmasr := _, rxDma := _ } : State) = u
  have hcfg : u.cfg = s.cfg := by rw [← hu]
  have hum : u.mem = Memory.putBytes s.mem (s.desc .rx s.rxDma 2) (f.take s.cfg.cap) := by rw [← hu]
  rw [← hcfg] at hc
  constructor
  · exact desc_setDesc_same hc (by rw [hcfg]; exact hd) (by omega) _
  · intro r i k hi hk hne
    rw [desc_setDesc_ne hc (by rw [hcfg]; exact hd) (by omega) (by rw [hcfg]; exact hi) hk _ (by tauto)]
    rw [hcfg] at hc
    exact desc_putBytes_buf hc hcfg hd (off := 0) (by rw [hl]; omega) (by simp) hum hi hk

/-- TX_CLOSE writes word 0 of the entry at the DMA cursor and no other descriptor word (R214). -/
theorem txClose_desc {s : State} (hc : configOk s.cfg = true) (hd : s.txDma < ringSize s.cfg .tx) (st : Word) :
    (s.txClose st).desc .tx s.txDma 0 = txCloseW0 s.cfg (s.desc .tx s.txDma 0) st ∧
    ∀ r i k, i < ringSize s.cfg r → k < 4 → (r ≠ .tx ∨ i ≠ s.txDma ∨ k ≠ 0) →
      (s.txClose st).desc r i k = s.desc r i k := by
  unfold State.txClose
  generalize hu : ({ s with events := _, dmasr := _, txDma := _ } : State) = u
  have hcfg : u.cfg = s.cfg := by rw [← hu]
  have hum : u.mem = s.mem := by rw [← hu]
  rw [← hcfg] at hc
  constructor
  · exact desc_setDesc_same hc (by rw [hcfg]; exact hd) (by omega) _
  · intro r i k hi hk hne
    rw [desc_setDesc_ne hc (by rw [hcfg]; exact hd) (by omega) (by rw [hcfg]; exact hi) hk _ (by tauto)]
    rw [desc_congr hum hcfg]

/-- TX_COMMIT writes words 0 and 1 of the window's entry and no other descriptor word (R175). -/
theorem commitTx_desc {s : State} (hc : configOk s.cfg = true) (w : Window) (hd : w.index < ringSize s.cfg .tx) :
    (s.commitTx w).desc .tx w.index 0 = (txCtrl s.cfg w.index ||| txOwn s.cfg) ∧
    (s.commitTx w).desc .tx w.index 1 = txW1 s.cfg w.len ∧
    ∀ r i k, i < ringSize s.cfg r → k < 4 → (r ≠ .tx ∨ i ≠ w.index ∨ (k ≠ 0 ∧ k ≠ 1)) →
      (s.commitTx w).desc r i k = s.desc r i k := by
  unfold State.commitTx
  refine ⟨?_, ?_, ?_⟩
  · exact desc_setDesc_same (s := s.setDesc .tx w.index 1 (txW1 s.cfg w.len)) hc hd (by omega) _
  · exact (desc_setDesc_ne (s := s.setDesc .tx w.index 1 (txW1 s.cfg w.len)) hc hd (by omega) hd (by omega) _ (by simp)).trans
      (desc_setDesc_same hc hd (by omega) _)
  · intro r i k hi hk hne
    exact (desc_setDesc_ne (s := s.setDesc .tx w.index 1 (txW1 s.cfg w.len)) hc hd (by omega) hi hk _ (by tauto)).trans
      (desc_setDesc_ne hc hd (by omega) hi hk _ (by
        rcases hne with h | h | h
        · exact .inl (Ne.symm h)
        · exact .inr (.inl (Ne.symm h))
        · exact .inr (.inr (Ne.symm h.2))))

/-- Handing an Rx entry back writes its word 0 and no other descriptor word (R142, R147). -/
theorem handBack_desc {s : State} (hc : configOk s.cfg = true) (j : Nat) (hd : j < ringSize s.cfg .rx) :
    (s.handBackRx j).desc .rx j 0 = rxW0Dma s.cfg ∧
    ∀ r i k, i < ringSize s.cfg r → k < 4 → (r ≠ .rx ∨ i ≠ j ∨ k ≠ 0) →
      (s.handBackRx j).desc r i k = s.desc r i k := by
  have h : (s.handBackRx j).desc = (s.setDesc .rx j 0 (rxW0Dma s.cfg)).desc := by
    unfold State.handBackRx; rw [writeDmarpdr_eq]; exact desc_congr rfl rfl
  rw [h]
  exact ⟨desc_setDesc_same hc hd (by omega) _, fun r i k hi hk hne => desc_setDesc_ne hc hd (by omega) hi hk _ (by tauto)⟩

/-- RX_START leaves the Tx descriptors. -/
theorem start_other_rx {s : State} (hc : configOk s.cfg = true) {i k : Nat} (hi : i < ringSize s.cfg .tx) (hk : k < 4) :
    s.startRx.desc .tx i k = s.desc .tx i k := by
  apply desc_of_bytes (t := s.startRx) hc (by simp [State.startRx]) hi hk
  intro x h1 h2
  apply startRx_byteAt hc
  intro j hj
  have := desc_desc hc hi hj (.inl (by simp))
  omega

/-- TX_START leaves the Rx descriptors. -/
theorem start_other_tx {s : State} (hc : configOk s.cfg = true) {i k : Nat} (hi : i < ringSize s.cfg .rx) (hk : k < 4) :
    s.startTx.desc .rx i k = s.desc .rx i k := by
  apply desc_of_bytes (t := s.startTx) hc (by simp [State.startTx]) hi hk
  intro x h1 h2
  apply startTx_byteAt hc
  intro j hj
  have := desc_desc hc hi hj (.inl (by simp))
  omega

/-- Ownership is a bit of word 0 (R39). -/
theorem owned_of_desc {s t : State} {r : Ring} {i : Nat} (hc : t.cfg = s.cfg) (h : t.desc r i 0 = s.desc r i 0) :
    t.ownedByDma r i = s.ownedByDma r i := by
  unfold State.ownedByDma; rw [h, hc]

/-- Offsets below N name different entries. -/
theorem mod_inj {N h a b : Nat} (ha : a < N) (hb : b < N) (he : (h + a) % N = (h + b) % N) : a = b := by
  have := (Nat.ModEq.add_left_cancel' h (show h + a ≡ h + b [MOD N] from he))
  unfold Nat.ModEq at this
  rwa [Nat.mod_eq_of_lt ha, Nat.mod_eq_of_lt hb] at this

/-- The entry after the one before x is x. -/
theorem pred_succ {N x : Nat} (hx : x < N) : ((x + N - 1) % N + 1) % N = x := by
  rw [Nat.mod_add_mod, show x + N - 1 + 1 = x + N by omega, Nat.add_mod_right, Nat.mod_eq_of_lt hx]

/-- The entry before the one after x is x. -/
theorem succ_pred {N x : Nat} (hx : x < N) : ((x + 1) % N + N - 1) % N = x := by
  by_cases h : x + 1 = N
  · subst h; simp
  · rw [Nat.mod_eq_of_lt (show x + 1 < N by omega), show x + 1 + N - 1 = x + N by omega, Nat.add_mod_right, Nat.mod_eq_of_lt hx]

end Sys2Proof.Machine
end

