-- ==== Sys2Proof/Laws/Access.lean ====
section
/-! SUPPORT. What an access of the CPU agent does, said once: which bytes race, what a write leaves and what a read gives,
at every width. -/

namespace Sys2Proof.Machine

/-- Every width names one to four bytes. -/
theorem bytes_bounds (w : Width) : 1 ≤ w.bytes ∧ w.bytes ≤ 4 := by cases w <;> decide

theorem insideSpace_iff {a : Addr} {w : Width} : insideSpace a w = true ↔ a.toNat + w.bytes ≤ 2 ^ 32 := by
  simp [insideSpace]

theorem touchesPort_iff {c : Config} {a : Addr} {w : Width} : touchesPort c a w = false ↔ OffPort c a w := by
  rw [touchesPort, decide_eq_false_iff_not]
  unfold OffPort portBytes
  omega

theorem inWindow_iff {s : State} {r : Ring} {i k : Nat} :
    s.inWindow r i k = true ↔ ∃ w, s.window r = some w ∧ w.index = i ∧ k < w.len := by
  unfold State.inWindow
  cases s.window r <;> simp

/-! ### Which bytes race (R69, R70) -/

/-- A byte races on an entry when the CPU writes it exactly where R70 says so. -/
theorem writeRace_iff {s : State} (hc : configOk s.cfg = true) {a : Nat} {r : Ring} {i : Nat} :
    s.writeRace a = some (r, i) ↔ RacesOn s r i a := by
  unfold RacesOn
  constructor
  · intro h
    unfold State.writeRace at h
    split at h
    · cases h
    · next q j hl =>
      cases h
      obtain ⟨hj, h1, h2⟩ := locate_desc hl
      exact ⟨hj, .inl ⟨h1, h2⟩⟩
    · next j k hl =>
      cases h
      obtain ⟨hj, h1, h2⟩ := locate_buf hl
      exact ⟨hj, .inr ⟨by omega, by omega, by intro h; cases h⟩⟩
    · next j k hl =>
      split at h
      · cases h
      · next hw =>
        cases h
        obtain ⟨hj, h1, h2⟩ := locate_buf hl
        refine ⟨hj, .inr ⟨by omega, by omega, fun _ w hw' => ?_⟩⟩
        by_contra hn
        apply hw
        rw [inWindow_iff]
        exact ⟨w, hw', by omega, by omega⟩
  · rintro ⟨hi, ⟨h1, h2⟩ | ⟨h1, h2, h3⟩⟩
    · rw [State.writeRace, locate_of_desc hc hi h1 h2]
    · have hl := locate_of_buf hc hi (k := a - (bufAddr s.cfg r i).toNat) (by omega)
      rw [show (bufAddr s.cfg r i).toNat + (a - (bufAddr s.cfg r i).toNat) = a by omega] at hl
      cases r
      · simp only [State.writeRace, hl]
      · simp only [State.writeRace, hl]
        rw [if_neg]
        rw [inWindow_iff]
        rintro ⟨w, hw, h4, h5⟩
        have := h3 rfl w hw
        omega

/-- The entries an access races on are those a byte of it races on. -/
theorem mem_racedEntries {s : State} (hc : configOk s.cfg = true) {a : Addr} {w : Width} {r : Ring} {i : Nat} :
    (r, i) ∈ s.racedEntries a w ↔ ∃ k, k < w.bytes ∧ RacesOn s r i (a.toNat + k) := by
  simp only [State.racedEntries, List.mem_eraseDups, List.mem_filterMap, List.mem_range, writeRace_iff hc]

/-- The discipline lets the CPU read a byte exactly where it does not race. -/
theorem mayRead_iff {s : State} (hc : configOk s.cfg = true) {a : Nat} : s.mayRead a = true ↔ ¬ s.ReadRaces a := by
  rw [← Bool.not_eq_false, not_iff_not]
  unfold State.ReadRaces
  constructor
  · intro h
    unfold State.mayRead at h
    split at h
    · cases h
    · next q j hl =>
      obtain ⟨hj, h1, h2⟩ := locate_desc hl
      exact ⟨q, j, hj, .inl ⟨h1, h2⟩⟩
    · next q j k hl =>
      obtain ⟨hj, h1, h2⟩ := locate_buf hl
      refine ⟨q, j, hj, .inr ⟨by omega, by omega, fun w hw' => ?_⟩⟩
      by_contra hn
      rw [← Bool.not_eq_true, inWindow_iff] at h
      exact h ⟨w, hw', by omega, by omega⟩
  · rintro ⟨r, i, hi, ⟨h1, h2⟩ | ⟨h1, h2, h3⟩⟩
    · rw [State.mayRead, locate_of_desc hc hi h1 h2]
    · have hl := locate_of_buf hc hi (k := a - (bufAddr s.cfg r i).toNat) (by omega)
      rw [show (bufAddr s.cfg r i).toNat + (a - (bufAddr s.cfg r i).toNat) = a by omega] at hl
      simp only [State.mayRead, hl]
      rw [← Bool.not_eq_true, inWindow_iff]
      rintro ⟨w, hw, h4, h5⟩
      have := h3 w hw
      omega

/-! ### Values read (R63, R64) -/

/-- The bytes of a word put together from bytes. -/
theorem extract_wordOfBytes (b0 b1 b2 b3 : Byte) :
    (wordOfBytes b0 b1 b2 b3).extractLsb' 0 8 = b0 ∧ (wordOfBytes b0 b1 b2 b3).extractLsb' 8 8 = b1 ∧
      (wordOfBytes b0 b1 b2 b3).extractLsb' 16 8 = b2 ∧ (wordOfBytes b0 b1 b2 b3).extractLsb' 24 8 = b3 := by
  refine ⟨?_, ?_, ?_, ?_⟩ <;> apply BitVec.eq_of_getLsbD_eq <;> intro i hi <;>
    simp only [wordOfBytes, BitVec.getLsbD_extractLsb', BitVec.getLsbD_append] <;> interval_cases i <;> simp

/-- Byte `m` of a value read is byte `m` of the access. -/
theorem valueOf_byte (w : Width) (f : Nat → Byte) {m : Nat} (hm : m < w.bytes) :
    (valueOf w f).extractLsb' (8 * m) 8 = f m := by
  have := bytes_bounds w
  cases w <;> simp only [valueOf, Width.bytes] at * <;> interval_cases m <;> simp [extract_wordOfBytes]

/-- The bits of a value read above the access are 0. -/
theorem valueOf_lt (w : Width) (f : Nat → Byte) : (valueOf w f).toNat < 2 ^ (8 * w.bytes) := by
  have h : ∀ b : Byte, b.toNat < 256 := fun b => b.isLt
  have h0 := h (f 0)
  have h1 := h (f 1)
  cases w
  · simp only [valueOf, wordOfBytes, Width.bytes, BitVec.toNat_append, BitVec.toNat_ofNat]
    simp
    omega
  · simp only [valueOf, wordOfBytes, Width.bytes, BitVec.toNat_append, BitVec.toNat_ofNat]
    simp only [Nat.zero_mod, Nat.zero_shiftLeft, Nat.zero_or]
    exact Nat.or_lt_two_pow (by rw [Nat.shiftLeft_eq]; omega) (by omega)
  · exact (valueOf .word f).isLt

/-- Every byte of the open Rx window lies in it (R34). -/
theorem inRxWindow_of_window {s : State} (hc : configOk s.cfg = true) {w : Window} (hw : s.rxToken = some w)
    (hi : w.index < ringSize s.cfg .rx) (hl : w.len ≤ s.cfg.cap) {k : Nat} (hk : k < w.len) :
    s.inRxWindow ((bufAddr s.cfg .rx w.index).toNat + k) = true := by
  rw [State.inRxWindow, locate_of_buf hc hi (k := k) (by omega)]
  exact inWindow_iff.2 ⟨w, hw, rfl, hk⟩

/-- Byte `m` of the bytes a write writes. -/
theorem wordBytes_getElem (v : Word) {m : Nat} (hm : m < 4) :
    (wordBytes v)[m]'(by simpa using hm) = v.extractLsb' (8 * m) 8 := by
  interval_cases m <;> rfl

/-! ### What an access does -/

/-- A write off the port that races on nothing stores its bytes (R61, R70). -/
theorem cpuWrite_plain {s : State} {a : Addr} {w : Width} (v : Word) (hin : a.toNat + w.bytes ≤ 2 ^ 32)
    (hoff : OffPort s.cfg a w) (hr : s.racedEntries a w = []) :
    cpuWrite a w v s = .next { s with mem := Memory.putBytes s.mem a ((wordBytes v).take w.bytes) } := by
  simp [cpuWrite, insideSpace_iff.2 hin, touchesPort_iff.2 hoff, hr]

/-- A write off the port that races on some entry is recorded (R69, R255). -/
theorem cpuWrite_racing {s : State} {a : Addr} {w : Width} (v : Word) (hin : a.toNat + w.bytes ≤ 2 ^ 32)
    (hoff : OffPort s.cfg a w) (hr : s.racedEntries a w ≠ []) :
    cpuWrite a w v s = .next (s.raceWrite a w (s.racedEntries a w)) := by
  simp [cpuWrite, insideSpace_iff.2 hin, touchesPort_iff.2 hoff]

/-- A read off the port gives what memory holds, and where a byte of it races any value (R61, R69, R70). -/
theorem cpuRead_memory {s : State} {a : Addr} {w : Width} (hin : a.toNat + w.bytes ≤ 2 ^ 32) (hoff : OffPort s.cfg a w) :
    cpuRead a w s =
      if s.allReadable a w then .next (s.observe (s.memoryRead a w (s.cpuValue a w)))
      else .next { s.observe (s.memoryRead a w (s.freeValue w)) with draws := s.draws + w.bytes } := by
  simp [cpuRead, insideSpace_iff.2 hin, touchesPort_iff.2 hoff]

/-- The bytes a plain write leaves. -/
theorem store_bytes {s : State} {a : Addr} {w : Width} (v : Word) (hin : a.toNat + w.bytes ≤ 2 ^ 32) {m : Nat}
    (hm : m < w.bytes) :
    ({ s with mem := Memory.putBytes s.mem a ((wordBytes v).take w.bytes) } : State).byteAt (a + BitVec.ofNat 32 m) =
      v.extractLsb' (8 * m) 8 := by
  have hb := bytes_bounds w
  rw [byteAt_def]
  simp only [get?_putBytes_inside s.mem a ((wordBytes v).take w.bytes) m (by rw [take_len]; exact hm)
    (by rw [take_len]; exact hin)]
  simp [wordBytes_getElem v (show m < 4 by omega)]

/-- A byte outside an access is none of those it touches. -/
theorem notMem_accessBytes {a x : Addr} {w : Width} (ha : a.toNat + w.bytes ≤ 2 ^ 32)
    (hx : x.toNat < a.toNat ∨ a.toNat + w.bytes ≤ x.toNat) : x ∉ accessBytes a w := by
  simp only [accessBytes, List.mem_map, List.mem_range]
  rintro ⟨k, hk, rfl⟩
  have := toNat_add_small a k (by omega)
  omega

/-- A racing write leaves every byte outside the access (R69). -/
theorem raceWrite_byteAt {s : State} {a x : Addr} {w : Width} (es : List (Ring × Nat)) (ha : a.toNat + w.bytes ≤ 2 ^ 32)
    (hx : x.toNat < a.toNat ∨ a.toNat + w.bytes ≤ x.toNat) : (s.raceWrite a w es).byteAt x = s.byteAt x := by
  apply byteAt_of_get?
  simp only [raceWrite_fields]
  exact get?_redraw_outside _ _ _ _ (notMem_accessBytes ha hx)

end Sys2Proof.Machine
end

