-- ==== Sys2Proof/Laws/PerInstr.lean ====
section
/-! SUPPORT. One lemma per command about its word's fields (30_encoding.md R106). -/

namespace Sys2Proof

/-- The fields of a word put together from its fields (R106). -/
theorem fields_append (op : BitVec 8) (imm : BitVec 16) :
    opField (op ++ 0#8 ++ imm) = op ∧ rsvField (op ++ 0#8 ++ imm) = 0#8 ∧ immField (op ++ 0#8 ++ imm) = imm := by
  refine ⟨?_, ?_, ?_⟩ <;> apply BitVec.eq_of_getLsbD_eq <;> intro i hi <;>
    simp only [opField, rsvField, immField, BitVec.getLsbD_extractLsb', BitVec.getLsbD_append] <;>
    interval_cases i <;> simp

end Sys2Proof

namespace Sys2Proof.Laws.EncodedFields

/-- The word of `i` carries its operation code in OP, zero in RSV, and its operand in IMM (R106, R107, R108). -/
def Statement (i : Instr) : Prop :=
  opField (encode i) = opcode i ∧ rsvField (encode i) = 0#8 ∧ immField (encode i) = immediate i

theorem rxStart : Statement .rxStart := fields_append _ _

theorem rxRecvNext : Statement .rxRecvNext := fields_append _ _

theorem rxRelease : Statement .rxRelease := fields_append _ _

theorem rxRunningState : Statement .rxRunningState := fields_append _ _

theorem rxIsRunning : Statement .rxIsRunning := fields_append _ _

theorem txStart : Statement .txStart := fields_append _ _

theorem txSend (len : Nat) : Statement (.txSend len) := fields_append _ _

theorem txCommit : Statement .txCommit := fields_append _ _

theorem txDemandPoll : Statement .txDemandPoll := fields_append _ _

theorem txIsRunning : Statement .txIsRunning := fields_append _ _

theorem irqEnable : Statement .irqEnable := fields_append _ _

theorem irqHandle : Statement .irqHandle := fields_append _ _

end Sys2Proof.Laws.EncodedFields
end

