-- ==== Sys2Proof/Tests/Slice0.lean ====
section
/-! SUPPORT. Tests of the model against the spec's own vectors (95_test_vectors.md), and for each statement with
hypotheses a named theorem that meets them together, at boundary values. Expected values are the spec's. -/

open Sys2Proof Sys2Proof.Machine

namespace Sys2Proof.Tests

-- The theorems are checked one after the other: many at once ask for more threads than the sandbox gives.
set_option Elab.async false

/-! ### Helpers: small states -/

/-- The state a step goes on with. -/
def after (o : Result) : State :=
  match o with
  | .next s => s
  | .fault _ => State.reset
  | .refused _ => State.reset

/-- The fault a step stops with. -/
def faultOf (o : Result) : Option Fault :=
  match o with
  | .next _ => none
  | .fault e => some e
  | .refused _ => none

/-- The refusal a step stops with. -/
def refusalOf (o : Result) : Option Refusal :=
  match o with
  | .next _ => none
  | .fault _ => none
  | .refused e => some e

/-- The step goes on. -/
def goes (o : Result) : Bool :=
  match o with
  | .next _ => true
  | .fault _ => false
  | .refused _ => false

/-- After one command. -/
def cmd (i : Instr) (s : State) : State := after (exec i s)

/-- RES and RES_ADDR after one command. -/
def results (i : Instr) (s : State) : Word × Addr := ((cmd i s).res, (cmd i s).resAddr)

/-- "Rx started": RX_START on a fresh block. -/
def rxStarted : State := cmd .rxStart State.reset

/-- TX_START on a fresh block. -/
def txStarted : State := cmd .txStart State.reset

/-- "Started" (95_test_vectors.md section 0). -/
def started : State := cmd .txStart rxStarted

/-- The 64 bytes 0x00 to 0x3F. -/
def frame64 : List Byte := (List.range 64).map (BitVec.ofNat 8)

/-- RXDMA waits on entry 0 (V-DMA-1). -/
def rxWaiting : State := dmaStep .rxFetch started

/-- The frame lies in entry 0 (V-DMA-2). -/
def rxOffered : State := dmaStep (.rxDeposit frame64 0#32) rxWaiting

/-- An open Rx window (0, 64) (V-RX-6). -/
def rxOpen : State := cmd .rxRecvNext rxOffered

/-- An open Tx window (0, 64). -/
def txOpen : State := cmd (.txSend 64) started

/-- Entry 0 committed, TXDMA about to fetch it. -/
def txCommitted : State := cmd .txCommit txOpen

/-- Rx word 0 of entry `i` set to `w0`, the cursor on it: the start states of V-RX-9 to V-RX-17. -/
def rxEntry (i : Nat) (w0 : Word) : State := State.setDesc { started with rxNext := i } .rx i 0 w0

/-- The configuration with one entry in each ring (95_test_vectors.md, NR = 1 and NT = 1). -/
def oneEntry : State := State.resetFor (Config.layoutOf 1 1)

/-- Entry 0's four words. -/
def words (s : State) (r : Ring) (i : Nat) : List Word := (List.range 4).map (s.desc r i)

/-! ### Well-formedness and decoding -/

theorem test_send_operand_bound : (Instr.txSend 65536).wellFormed = false ∧ (Instr.txSend 65535).wellFormed = true := by
  decide

theorem test_wellFormed_agrees (i : Instr) : i.wellFormed = true ↔ i.WellFormed := by
  cases i <;> simp [Instr.wellFormed]

/-- R118, bit by bit: OP, RSV = 0, IMM = 0. -/
theorem test_decode_rx_family :
    decode 0b00000001_00000000_0000000000000000#32 = .command .rxStart ∧
    decode 0b00000010_00000000_0000000000000000#32 = .command .rxRecvNext ∧
    decode 0b00000011_00000000_0000000000000000#32 = .command .rxRelease ∧
    decode 0b00000100_00000000_0000000000000000#32 = .command .rxRunningState ∧
    decode 0b00000101_00000000_0000000000000000#32 = .command .rxIsRunning := by decide

/-- R118, bit by bit; TX_SEND 64, 1600, 1522 and 65535 (V-DEC-12). -/
theorem test_decode_tx_family :
    decode 0b00010001_00000000_0000000000000000#32 = .command .txStart ∧
    decode 0b00010010_00000000_0000000001000000#32 = .command (.txSend 64) ∧
    decode 0b00010010_00000000_0000011001000000#32 = .command (.txSend 1600) ∧
    decode 0b00010010_00000000_0000010111110010#32 = .command (.txSend 1522) ∧
    decode 0b00010010_00000000_1111111111111111#32 = .command (.txSend 65535) ∧
    decode 0b00010011_00000000_0000000000000000#32 = .command .txCommit ∧
    decode 0b00010100_00000000_0000000000000000#32 = .command .txDemandPoll ∧
    decode 0b00010101_00000000_0000000000000000#32 = .command .txIsRunning := by decide

theorem test_decode_irq_family :
    decode 0b00100001_00000000_0000000000000000#32 = .command .irqEnable ∧
    decode 0b00100010_00000000_0000000000000000#32 = .command .irqHandle := by decide

/-- V-DEC-1 to V-DEC-11. -/
theorem test_decode_illegal :
    decode 0x00000000#32 = .illegal (.unlistedOpcode 0x00#8) ∧
    decode 0x06000000#32 = .illegal (.unlistedOpcode 0x06#8) ∧
    decode 0x10000000#32 = .illegal (.unlistedOpcode 0x10#8) ∧
    decode 0x16000000#32 = .illegal (.unlistedOpcode 0x16#8) ∧
    decode 0x20000000#32 = .illegal (.unlistedOpcode 0x20#8) ∧
    decode 0x23000000#32 = .illegal (.unlistedOpcode 0x23#8) ∧
    decode 0xFF000000#32 = .illegal (.unlistedOpcode 0xFF#8) ∧
    decode 0x01010000#32 = .illegal (.reservedField 1#8) ∧
    decode 0x02000001#32 = .illegal (.immediateNotZero 0x02#8 1#16) ∧
    decode 0x21000001#32 = .illegal (.immediateNotZero 0x21#8 1#16) ∧
    decode 0x12010040#32 = .illegal (.reservedField 1#8) := by decide

/-- A command is one 32-bit word, its bytes little-endian (R63, R110). -/
theorem test_decode_bytes :
    decodeBytes [0x40#8, 0x00#8, 0x00#8, 0x12#8] = .command (.txSend 64) ∧
    decodeBytes [0x40#8, 0x00#8] = .illegal (.notOneWord 2) ∧
    decodeTableWord 32 0x120005F2 = some (.txSend 1522) ∧ decodeTableWord 32 0x16000000 = none := by decide

/-- The illegal word 0xFF000000, then RX_START (95_test_vectors.md 2.1). -/
theorem test_illegal_then_start :
    (after (execWord 0xFF000000#32 State.reset)).res = 0x00000008#32 ∧
    (after (execWord 0x01000000#32 (after (execWord 0xFF000000#32 State.reset)))).res = 0#32 := by decide +kernel

/-! ### Receive commands (95_test_vectors.md 2.2) -/

/-- V-RX-3: the descriptors and registers RX_START leaves. -/
theorem test_rx_start :
    words rxStarted .rx 0 = [0x80000000#32, 0x000045F2#32, 0x20000010#32, 0x20000604#32] ∧
    words rxStarted .rx 1 = [0x80000000#32, 0x000045F2#32, 0x20000614#32, 0x20000C08#32] ∧
    words rxStarted .rx 2 = [0x80000000#32, 0x000045F2#32, 0x20000C18#32, 0x2000120C#32] ∧
    words rxStarted .rx 3 = [0x80000000#32, 0x0000C5F2#32, 0x2000121C#32, 0x20000000#32] ∧
    rxStarted.dmardlar = 0x20000000#32 ∧ rxStarted.dmasrWord = 0x00020000#32 ∧
    rxStarted.dmaomrWord = 0x00000002#32 := by decide +kernel

/-- NR = 1: entry 0 is first and last. -/
theorem test_rx_start_one_entry :
    words (cmd .rxStart oneEntry) .rx 0 = [0x80000000#32, 0x0000C5F2#32, 0x20000010#32, 0x20000000#32] := by
  decide +kernel

/-- V-RX-5, V-RX-6, V-RX-7 and the boundary lengths of V-RX-9 and V-RX-11. -/
theorem test_rx_recv_next_outcomes :
    results .rxRecvNext rxStarted = (0x00000001#32, 0#32) ∧
    results .rxRecvNext rxOffered = (0x00400000#32, 0x20000010#32) ∧
    rxOpen.rxToken = some { index := 0, len := 64 } ∧ rxOpen.rxNext = 1 ∧
    results .rxRecvNext rxOpen = (0x0000000A#32, 0#32) ∧
    results .rxRecvNext (rxEntry 2 0x05F20300#32) = (0x05F20200#32, 0x20000C18#32) ∧
    results .rxRecvNext (rxEntry 1 0x05F30300#32) = (0x00000102#32, 0#32) := by decide +kernel

/-- V-RX-13, V-RX-15, V-RX-17, V-RX-19: corrupted and drawn status bits. -/
theorem test_rx_recv_next_corrupted :
    results .rxRecvNext (rxEntry 3 0x00000300#32) = (0x00000302#32, 0#32) ∧
    (cmd .rxRecvNext (rxEntry 3 0x00408300#32)).desc .rx 3 0 = 0x80000000#32 ∧
    (cmd .rxRecvNext (rxEntry 3 0x00408300#32)).rxNext = 0 ∧
    results .rxRecvNext (rxEntry 2 0x404027A5#32) = (0x00400200#32, 0x20000C18#32) ∧
    (cmd .rxRecvNext ((rxEntry 0 0x00400302#32).setRps 0b100#3)).dmasr.rps = 0b001#3 := by decide +kernel

/-- V-RX-8, V-RX-8b, V-RX-18, V-RX-20. -/
theorem test_rx_release :
    results .rxRelease rxOpen = (0#32, 0#32) ∧ (cmd .rxRelease rxOpen).desc .rx 0 0 = 0x80000000#32 ∧
    results .rxRelease (cmd .rxRelease rxOpen) = (0x0000000B#32, 0#32) ∧
    (cmd .rxRelease (rxOpen.setRps 0b100#3)).dmasr.rps = 0b001#3 ∧
    (cmd .rxRelease { rxOpen.setRps 0b011#3 with rxToken := some { index := 1, len := 64 } }).dmasr.rps = 0b011#3 := by
  decide +kernel

/-- The report table by RPS (R103, R115). -/
theorem test_rx_running_state :
    (List.range 8).map (fun n => (cmd .rxRunningState (rxStarted.setRps (BitVec.ofNat 3 n))).res) =
      [0x00000000#32, 0x00010000#32, 0x00030000#32, 0x00010000#32, 0x00020000#32, 0x00010000#32, 0x00030000#32,
        0x00010000#32] := by decide +kernel

theorem test_rx_is_running :
    (List.range 8).map (fun n => (cmd .rxIsRunning (rxStarted.setRps (BitVec.ofNat 3 n))).res) =
      [0x00000000#32, 0x00010000#32, 0x00000000#32, 0x00010000#32, 0x00000000#32, 0x00010000#32, 0x00000000#32,
        0x00010000#32] := by decide +kernel

/-- The validity table of 95_test_vectors.md 2.2, rows 1 to 15. -/
theorem test_rx_valid :
    [0x00400300#32, 0x00010300#32, 0x05F20300#32, 0x05F30300#32, 0x00000300#32, 0x00400302#32, 0x00400200#32,
      0x00400100#32, 0x00400308#32, 0x00400310#32, 0x00400340#32, 0x00400B00#32, 0x00401300#32, 0x00404300#32,
      0x00400304#32].map (rxValid Config.default) =
      [true, true, true, false, false, false, false, false, false, false, false, false, false, false, true] := by
  decide

/-! ### Transmit commands (95_test_vectors.md 2.3) -/

/-- V-TX-5. -/
theorem test_tx_start :
    words txStarted .tx 0 = [0x70100000#32, 0#32, 0x20004010#32, 0x20004604#32] ∧
    words txStarted .tx 1 = [0x70100000#32, 0#32, 0x20004614#32, 0x20004C08#32] ∧
    words txStarted .tx 2 = [0x70100000#32, 0#32, 0x20004C18#32, 0x2000520C#32] ∧
    words txStarted .tx 3 = [0x70300000#32, 0#32, 0x2000521C#32, 0x20004000#32] ∧
    txStarted.dmatdlar = 0x20004000#32 ∧ txStarted.dmasrWord = 0x00100000#32 ∧
    txStarted.dmaomrWord = 0x00002000#32 := by decide +kernel

/-- NT = 1. -/
theorem test_tx_start_one_entry :
    words (cmd .txStart oneEntry) .tx 0 = [0x70300000#32, 0#32, 0x20004010#32, 0x20004000#32] := by decide +kernel

/-- V-TX-1, V-TX-9, V-TX-10, V-TX-11, V-TX-12, V-TX-20 and V-EXC-2. -/
theorem test_tx_send_outcomes :
    results (.txSend 64) State.reset = (0x00000009#32, 0#32) ∧
    results (.txSend 1600) txStarted = (0x00000003#32, 0#32) ∧
    results (.txSend 1523) txStarted = (0x00000003#32, 0#32) ∧
    results (.txSend 1522) txStarted = (0x05F20000#32, 0x20004010#32) ∧
    results (.txSend 64) (cmd (.txSend 1522) txStarted) = (0x0000000A#32, 0#32) ∧
    results (.txSend 65535) txStarted = (0x00000003#32, 0#32) ∧
    results (.txSend 1600) txOpen = (0x0000000A#32, 0#32) := by decide +kernel

/-- V-TX-18 and V-TX-19: entry 3, and the empty frame. -/
theorem test_tx_send_then_commit :
    results (.txSend 64) { txStarted with txNext := 3 } = (0x00400300#32, 0x2000521C#32) ∧
    (cmd .txCommit (cmd (.txSend 64) { txStarted with txNext := 3 })).desc .tx 3 0 = 0xF0300000#32 ∧
    (cmd .txCommit (cmd (.txSend 64) { txStarted with txNext := 3 })).txNext = 0 ∧
    results (.txSend 0) txStarted = (0#32, 0x20004010#32) := by decide +kernel

/-- V-TX-13. -/
theorem test_tx_commit :
    results .txCommit (cmd (.txSend 1522) txStarted) = (0x05F20000#32, 0#32) ∧
    (cmd .txCommit (cmd (.txSend 1522) txStarted)).desc .tx 0 1 = 0x000005F2#32 ∧
    (cmd .txCommit (cmd (.txSend 1522) txStarted)).desc .tx 0 0 = 0xF0100000#32 ∧
    (cmd .txCommit (cmd (.txSend 1522) txStarted)).txNext = 1 ∧
    (cmd .txCommit (cmd (.txSend 1522) txStarted)).txToken = none := by decide +kernel

/-- V-TX-2 and V-TX-14. -/
theorem test_tx_commit_no_token :
    results .txCommit State.reset = (0x0000000B#32, 0#32) ∧
    results .txCommit txCommitted = (0x0000000B#32, 0#32) := by decide +kernel

/-- V-POLL-4 to V-POLL-7. -/
theorem test_tx_demand_poll :
    [0b110#3, 0b001#3, 0b011#3].map (fun p => (cmd .txDemandPoll (txStarted.setTps p)).dmasr.tps) =
      [0b001#3, 0b001#3, 0b011#3] ∧
    (cmd .txDemandPoll State.reset).dmasr.tps = 0b000#3 ∧ (cmd .txDemandPoll State.reset).res = 0#32 := by
  decide +kernel

/-- The report table by TPS (R103). -/
theorem test_tx_is_running :
    (List.range 8).map (fun n => (cmd .txIsRunning (txStarted.setTps (BitVec.ofNat 3 n))).res) =
      [0x00000000#32, 0x00010000#32, 0x00010000#32, 0x00010000#32, 0x00000000#32, 0x00000000#32, 0x00000000#32,
        0x00010000#32] := by decide +kernel

/-! ### DMA steps (95_test_vectors.md 2.4) -/

/-- V-DMA-1, V-DMA-2. -/
theorem test_rx_deposit :
    rxWaiting.dmasr.rps = 0b011#3 ∧ rxOffered.bytesAt 0x20000010#32 64 = frame64 ∧
    rxOffered.desc .rx 0 0 = 0x00400300#32 ∧ rxOffered.dmasr.rs = true ∧ rxOffered.rxDma = 1 ∧
    rxOffered.dmasr.rps = 0b001#3 := by decide +kernel

/-- V-DMA-5, V-DMA-6, V-DMA-7, V-DMA-8: the word 0 of a deposit. -/
theorem test_rx_deposit_word0 :
    rxDepositW0 Config.default 20000 0#32 = 0x3FFF0300#32 ∧ rxDepositW0 Config.default 0 0#32 = 0x00000300#32 ∧
    rxDepositW0 Config.default 64 0xFFFFFFFF#32 = 0x4040FFFF#32 ∧
    rxDepositW0 Config.default 64 0x400024A5#32 = 0x404027A5#32 ∧
    rxDepositW0 Config.default 1600 0#32 = 0x06400300#32 := by decide

/-- V-DMA-9: four deposits starve the ring. -/
def starved : State :=
  (List.range 4).foldl (fun s _ => dmaStep (.rxDeposit [0x55#8] 0#32) (dmaStep .rxFetch s)) started

theorem test_rx_fetch_suspends :
    (dmaStep .rxFetch starved).dmasr.rps = 0b100#3 ∧ starved.rxDma = 0 ∧
    (cmd .rxRunningState (dmaStep .rxFetch starved)).res = 0x00020000#32 := by decide +kernel

/-- V-DMA-10, V-DMA-11. -/
theorem test_tx_fetch :
    (dmaStep .txFetch started).dmasr.tps = 0b110#3 ∧ (dmaStep .txFetch txCommitted).dmasr.tps = 0b011#3 := by
  decide +kernel

/-- V-DMA-13: a close of entry 3 with an underflow status. -/
theorem test_tx_close :
    let s := dmaStep .txFetch (cmd .txCommit (cmd (.txSend 0) { txStarted with txNext := 3, txDma := 3 }))
    let t := dmaStep (.txClose 0x00000002#32) s
    t.events = [{ entry := 3, bytes := [] }] ∧ t.desc .tx 3 0 = 0x70300002#32 ∧ t.dmasr.ts = true ∧ t.txDma = 0 ∧
      t.dmasr.tps = 0b001#3 := by decide +kernel

/-- V-DMA-14: the status draw is masked. -/
theorem test_tx_close_word0 : txCloseW0 Config.default 0xF0100000#32 0xFFFFFFFF#32 = 0x7013FFFF#32 := by decide

/-- The masks of 30_encoding.md R91, R94 and R96. -/
theorem test_masks :
    rxErrMask Config.default = 0x0000D85A#32 ∧ rxDrawMask Config.default = 0x4000FCFF#32 ∧
    txKeepMask Config.default = 0x7FF00000#32 ∧ txStatusMask Config.default = 0x0003FFFF#32 := by decide

/-! ### Interrupts (95_test_vectors.md 2.5) -/

/-- V-IRQ-1, V-IRQ-5. -/
theorem test_irq_enable :
    (cmd .irqEnable State.reset).dmaierWord = 0x00010041#32 ∧ (cmd .irqEnable State.reset).irq = false ∧
    rxOffered.irq = false ∧ (cmd .irqEnable rxOffered).irq = true := by decide +kernel

/-- V-IRQ-4: no data drained. -/
theorem test_irq_handle :
    (cmd .irqHandle (cmd .irqEnable rxOffered)).irq = false ∧
    (cmd .irqHandle (cmd .irqEnable rxOffered)).dmasr.rs = false ∧
    (cmd .irqHandle (cmd .irqEnable rxOffered)).desc .rx 0 0 = 0x00400300#32 := by decide +kernel

/-! ### The CPU's accesses (95_test_vectors.md 2.6) and the assembler (R117) -/

/-- V-EXC-4, V-EXC-5, V-EXC-6. -/
theorem test_faults :
    (after (perform (.cpu (.write 0x20000000#32 .word 0#32)) started)).faults =
      [.raceOnRing .rx 0 0x20000000#32 .word] ∧
    (after (perform (.cpu (.read 0x40029004#32 .word)) State.reset)).faults = [.resultBeforeCommand] ∧
    (after (perform (.cpu (.write 0x40029000#32 .half 0#32)) State.reset)).cpuStuck = true ∧
    faultOf (perform (.cpu (.read 0xFFFFFFFE#32 .word)) State.reset) = some .outsideAddressSpace := by
  decide +kernel

/-- A window byte is written and read back; the byte behind the window is a race. -/
theorem test_window :
    (after (perform (.cpu (.write 0x2000404F#32 .byte 0xA5#32)) txOpen)).byteAt 0x2000404F#32 = 0xA5#8 ∧
    (after (perform (.cpu (.write 0x20004050#32 .byte 0xA5#32)) txOpen)).faults =
      [.raceOnRing .tx 0 0x20004050#32 .byte] ∧
    (after (perform (.cpu (.read 0x2000004F#32 .byte)) rxOpen)).reads =
      [{ addr := 0x2000004F#32, width := .byte, value := 0x3F#32, rxBytes := [0x3F#8] }] := by decide +kernel

/-- After a race on entry 0 the CPU's commands go on (R255). -/
theorem test_race_goes_on :
    let s := after (perform (.cpu (.write 0x20000000#32 .word 0#32)) started)
    (cmd .txIsRunning s).res = 0x00010000#32 ∧ s.raced .rx 0 = true ∧ s.raced .rx 1 = false ∧ s.raced .tx 0 = false := by
  decide +kernel

/-- R117: the text of a line. -/
theorem test_parse_line :
    parseLine "TX_SEND 0x640 ; too long".toList = some (.command (.txSend 1600)) ∧
    parseLine "TX_SEND 65536".toList = none ∧ parseLine "WRITEBUF 0, 0xA0".toList = some (.writeBuf 0 0xA0#8) ∧
    parseLine "SEND 2, 0xA0, 0xA1".toList = some (.send 2 [0xA0#8, 0xA1#8]) ∧
    parseLine "RX_RECV_NEXT".toList = some (.command .rxRecvNext) := by decide +kernel

/-- P2, lines 3 to 5, with the poll: a frame sent. -/
theorem test_send_line :
    let t := after (runLine (.send 2 [0xA0#8, 0xA1#8]) (dmaStep .txFetch txStarted))
    t.bytesAt 0x20004010#32 2 = [0xA0#8, 0xA1#8] ∧ t.desc .tx 0 1 = 2#32 ∧ t.desc .tx 0 0 = 0xF0100000#32 ∧
      t.txNext = 1 ∧ t.dmasr.tps = 0b001#3 := by decide +kernel

/-! ### The block's invariant on small states -/

/-- CursorsOk, evaluated. -/
def cursorsCheck (s : State) : Bool :=
  decide (s.rxNext < ringSize s.cfg .rx ∧ s.rxDma < ringSize s.cfg .rx ∧ s.txNext < ringSize s.cfg .tx ∧
    s.txDma < ringSize s.cfg .tx) &&
  s.rxToken.all (fun w => decide (s.dmaomr.sr = true ∧ w.index < ringSize s.cfg .rx ∧ 1 ≤ w.len ∧ w.len ≤ s.cfg.cap)) &&
  s.txToken.all (fun w => decide (s.dmaomr.st = true ∧ w.index < ringSize s.cfg .tx ∧ w.len ≤ s.cfg.cap))

/-- LinksOk, evaluated. -/
def linksCheck (s : State) : Bool :=
  (!s.dmaomr.sr || (decide (s.dmardlar = descAddr s.cfg .rx 0) && (List.range (ringSize s.cfg .rx)).all fun i =>
    decide (s.desc .rx i 1 = rxW1 s.cfg i ∧ s.desc .rx i 2 = bufAddr s.cfg .rx i ∧
      s.desc .rx i 3 = descAddr s.cfg .rx (nextIndex s.cfg .rx i)))) &&
  (!s.dmaomr.st || (decide (s.dmatdlar = descAddr s.cfg .tx 0) && (List.range (ringSize s.cfg .tx)).all fun i =>
    decide (txLen s.cfg (s.desc .tx i 1) ≤ s.cfg.cap ∧
      s.desc .tx i 1 = txW1 s.cfg (txLen s.cfg (s.desc .tx i 1)) ∧ s.desc .tx i 2 = bufAddr s.cfg .tx i ∧
      s.desc .tx i 3 = descAddr s.cfg .tx (nextIndex s.cfg .tx i) ∧
      s.desc .tx i 0 &&& txKeepMask s.cfg = txCtrl s.cfg i)))

/-- RxRingAt `c` on a started ring, evaluated. -/
def rxRingCheck (s : State) (c : Nat) : Bool :=
  !s.dmaomr.sr || (decide (c ≤ ringSize s.cfg .rx ∧ s.rxDma = (s.rxOldest + c) % ringSize s.cfg .rx ∧
    (s.dmasr.rps = psHolding → c < ringSize s.cfg .rx) ∧ (s.dmasr.rps = rpsSuspended → c = ringSize s.cfg .rx)) &&
    (List.range (ringSize s.cfg .rx)).all (fun k =>
      decide (s.ownedByDma .rx ((s.rxOldest + k) % ringSize s.cfg .rx) = decide (c ≤ k))) &&
    s.rxToken.all fun w => decide (w.index = s.rxOldest ∧ 1 ≤ c))

/-- TxRingAt `p` on a started ring, evaluated. -/
def txRingCheck (s : State) (p : Nat) : Bool :=
  !s.dmaomr.st || (decide (p ≤ ringSize s.cfg .tx ∧ s.txNext = (s.txDma + p) % ringSize s.cfg .tx ∧
    (s.dmasr.tps = psHolding → 1 ≤ p)) &&
    (List.range (ringSize s.cfg .tx)).all (fun k =>
      decide (s.ownedByDma .tx ((s.txDma + k) % ringSize s.cfg .tx) = decide (k < p))) &&
    s.txToken.all fun w => decide (w.index = s.txNext ∧ p < ringSize s.cfg .tx))

/-- ProcessOk, evaluated. -/
def processCheck (s : State) : Bool :=
  (if s.dmaomr.sr then decide (s.dmasr.rps = psFetching ∨ s.dmasr.rps = psHolding ∨ s.dmasr.rps = rpsSuspended)
    else decide (s.dmasr.rps = psStopped)) &&
  (if s.dmaomr.st then decide (s.dmasr.tps = psFetching ∨ s.dmasr.tps = psHolding ∨ s.dmasr.tps = tpsSuspended)
    else decide (s.dmasr.tps = psStopped))

/-- The whole invariant with `c` CPU-owned Rx and `p` DMA-owned Tx entries, evaluated. -/
def invCheck (s : State) (c p : Nat) : Bool :=
  configOk s.cfg && processCheck s && cursorsCheck s && linksCheck s && rxRingCheck s c && txRingCheck s p

theorem processOk_of_check {s : State} (h : processCheck s = true) : s.ProcessOk := by
  unfold processCheck at h
  unfold State.ProcessOk
  rw [Bool.and_eq_true] at h
  constructor
  · revert h; split <;> simp +contextual
  · revert h; split <;> simp +contextual

theorem cursorsOk_of_check {s : State} (h : cursorsCheck s = true) : s.CursorsOk := by
  simp only [cursorsCheck, Bool.and_eq_true, decide_eq_true_eq] at h
  obtain ⟨⟨⟨h1, h2, h3, h4⟩, h5⟩, h6⟩ := h
  refine ⟨h1, h2, h3, h4, ?_, ?_⟩
  · intro w hw; rw [hw] at h5; simpa using h5
  · intro w hw; rw [hw] at h6; simpa using h6

theorem linksOk_of_check {s : State} (h : linksCheck s = true) : s.LinksOk := by
  simp only [linksCheck, Bool.and_eq_true, Bool.or_eq_true, Bool.not_eq_true', List.all_eq_true, List.mem_range,
    decide_eq_true_eq] at h
  refine ⟨fun hs => ?_, fun hs => ?_⟩
  · rcases h.1 with h1 | h1
    · rw [h1] at hs; cases hs
    · exact h1
  · rcases h.2 with h1 | h1
    · rw [h1] at hs; cases hs
    · exact ⟨h1.1, fun i hi => ⟨⟨_, (h1.2 i hi).1, (h1.2 i hi).2.1⟩, (h1.2 i hi).2.2⟩⟩

theorem rxRing_of_check {s : State} {c : Nat} (h : rxRingCheck s c = true) : s.RxRing := by
  intro hs
  simp only [rxRingCheck, hs, Bool.not_true, Bool.false_or, Bool.and_eq_true, List.all_eq_true, List.mem_range,
    decide_eq_true_eq] at h
  obtain ⟨⟨⟨h1, h2, h3, h4⟩, h5⟩, h6⟩ := h
  refine ⟨c, h1, h5, ?_, h2, h3, h4⟩
  intro w hw; rw [hw] at h6; simpa using h6

theorem txRing_of_check {s : State} {p : Nat} (h : txRingCheck s p = true) : s.TxRing := by
  intro hs
  simp only [txRingCheck, hs, Bool.not_true, Bool.false_or, Bool.and_eq_true, List.all_eq_true, List.mem_range,
    decide_eq_true_eq] at h
  obtain ⟨⟨⟨h1, h2, h3⟩, h5⟩, h6⟩ := h
  refine ⟨p, h1, h5, h2, ?_, h3⟩
  intro w hw; rw [hw] at h6; simpa using h6

theorem inv_of_check {s : State} (c p : Nat) (h : invCheck s c p = true) : s.Inv := by
  simp only [invCheck, Bool.and_eq_true] at h
  obtain ⟨⟨⟨⟨⟨h1, h2⟩, h3⟩, h4⟩, h5⟩, h6⟩ := h
  exact ⟨h1, processOk_of_check h2, cursorsOk_of_check h3, linksOk_of_check h4, rxRing_of_check h5,
    txRing_of_check h6⟩

theorem test_inv_reset : State.reset.Inv := inv_of_check 0 0 (by decide +kernel)

theorem test_inv_started : started.Inv := inv_of_check 0 0 (by decide +kernel)

theorem test_inv_rxWaiting : rxWaiting.Inv := inv_of_check 0 0 (by decide +kernel)

theorem test_inv_rxOpen : rxOpen.Inv := inv_of_check 1 0 (by decide +kernel)

theorem test_inv_starved : (dmaStep .rxFetch starved).Inv := inv_of_check 4 0 (by decide +kernel)

theorem test_inv_txOpen : txOpen.Inv := inv_of_check 0 0 (by decide +kernel)

/-- The invariant at NR = NT = 1, both rings started. -/
theorem test_inv_oneEntry : (cmd .txStart (cmd .rxStart oneEntry)).Inv := inv_of_check 0 0 (by decide +kernel)

theorem eq_next_of_goes {o : Result} (h : goes o = true) : o = .next (after o) := by
  cases o with
  | next s => rfl
  | fault e => cases h
  | refused e => cases h

/-! ### Each statement's hypotheses are met -/

/-- A started block whose next move is RXDMA's fetch. -/
def rxFetchNext : State := { started with agenda := [.dma .rxFetch] }

theorem test_inv_rxFetchNext : rxFetchNext.Inv := inv_of_check 0 0 (by decide +kernel)

theorem test_hyp_CommandWords : (0 < 65536 ∧ 65535 < 65536) ∧ decode 0x12000000#32 = .command (.txSend 0) ∧
    decode (0x12000000#32 ||| BitVec.ofNat 32 65535) = .command (.txSend 65535) := by decide

theorem test_hyp_IllegalWords :
    decode 0xFF000000#32 = .illegal (.unlistedOpcode 0xFF#8) ∧ decode 0x12FF0040#32 = .illegal (.reservedField 0xFF#8) ∧
    decode 0x2200FFFF#32 = .illegal (.immediateNotZero 0x22#8 0xFFFF#16) := by decide

theorem test_result_word : resultWord .noToken 255 65535 = 0xFFFFFF0B#32 := by
  decide

theorem test_hyp_StepRunsDecodedCommand :
    configOk State.reset.cfg = true ∧ (State.reset.issue 0x01000000#32).cpuFree ∧
    (State.reset.issue 0x01000000#32).agenda =
      Move.cpu (.write (State.reset.issue 0x01000000#32).cfg.dreBase .word 0x01000000#32) :: [] ∧
    decode 0x01000000#32 = .command .rxStart ∧ decode 0x01000001#32 = .illegal (.immediateNotZero 0x01#8 1#16) ∧
    (State.reset.issue 0x01000000#32).faults = [] := by
  unfold State.cpuFree; decide +kernel

theorem test_hyp_PlacedWordRunsNext : configOk State.reset.cfg = true ∧ 0 < 2 ^ 32 ∧ 2 ^ 32 - 1 < 2 ^ 32 := by
  decide +kernel

/-- A DescLayout with RER and RCH of Rx word 1 in bits 31 and 30. -/
def otherLayout : DescLayout :=
  { DescLayout.default with rx := { DescLayout.default.rx with ringEnd := 31, chained := 30 } }

/-- A DescLayout whose OWN of Rx word 0 lies on a bit of FL. -/
def overlappingLayout : DescLayout := { DescLayout.default with rx := { DescLayout.default.rx with own := 29 } }

/-- CAP = 8192, no entry, an unaligned port, overlapping rings and an overlapping DescLayout are refused; CAP = 8191, a
buffer that ends at the end of the address space and another DescLayout are not. -/
theorem test_hyp_ConfigurationCheck :
    (configOk { Config.default with cap := 8192 } = false ∧ configOk (Config.layoutOf 0 4) = false ∧
      configOk { Config.default with dreBase := 0x40029002#32 } = false ∧
      configOk { Config.default with tx := Config.default.rx } = false ∧
      configOk { Config.default with layout := overlappingLayout } = false ∧
      refusalOf (step { State.reset with cfg := Config.layoutOf 0 4 }) = some .configRefused ∧
      configOk { Config.layoutOf 1 1 with cap := 8191 } = true ∧
      configOk { Config.default with layout := otherLayout } = true ∧
      configOk { Config.layoutOf 1 1 with
        tx := [{ desc := 0x20004000#32, buf := 0xFFFFFFFC#32 }], cap := 4 } = true ∧
      configOk { Config.layoutOf 1 1 with
        tx := [{ desc := 0x20004000#32, buf := 0xFFFFFFFC#32 }], cap := 5 } = false) ∧
    Config.default.layout = DescLayout.default ∧ Config.default.cap ≤ 8191 := by decide +kernel

/-- RX_START under another DescLayout puts the fields of word 1 where it says. -/
theorem test_rx_start_other_layout :
    let s := cmd .rxStart (State.resetFor { Config.layoutOf 1 1 with layout := otherLayout })
    words s .rx 0 = [0x80000000#32, 0xC00005F2#32, 0x20000010#32, 0x20000000#32] := by decide +kernel

theorem test_hyp_RxStartLinksTheRing :
    (configOk State.reset.cfg = true ∧ State.reset.dmaomr.sr = false ∧ State.reset.cfg.layout = DescLayout.default) ∧
    (configOk oneEntry.cfg = true ∧ oneEntry.dmaomr.sr = false) := by decide +kernel

/-- The hypotheses of the STATE clause of RxStartLinksTheRing and of TxStartLinksTheRing. -/
theorem test_hyp_startOfStartedRing : rxStarted.dmaomr.sr = true ∧ txStarted.dmaomr.st = true := by decide +kernel

theorem test_hyp_RxRecvNextOutcomes_notReady :
    State.reset.dmaomr.sr = false ∧ (rxOpen.dmaomr.sr = true ∧ rxOpen.rxToken ≠ none) ∧
    (rxStarted.dmaomr.sr = true ∧ rxStarted.rxToken = none ∧
      rxStarted.ownedByDma .rx rxStarted.rxNext = true) := by decide +kernel

theorem test_hyp_RxValidity :
    (exec .rxRecvNext rxOffered = .next rxOpen ∧ rxOpen.res.extractLsb' 0 4 = 0#4) ∧
    rxOffered.cfg.layout = DescLayout.default :=
  ⟨⟨eq_next_of_goes (by decide +kernel), by decide +kernel⟩, by decide +kernel⟩

/-- The hypotheses of a CPU-owned word 0 `w0` at the cursor, valid or not. -/
def inspects (s : State) (w0 : Word) (valid : Bool) : Bool :=
  configOk s.cfg && decide (s.rxNext < ringSize s.cfg .rx ∧ s.dmaomr.sr = true ∧ s.rxToken = none ∧
    s.desc .rx s.rxNext 0 = w0 ∧ ownBit s.cfg .rx w0 = false ∧ rxValid s.cfg w0 = valid)

/-- Lengths 1 and CAP, and every status bit that is no error. -/
theorem test_hyp_RxRecvNextOutcomes_opensWindow :
    inspects (rxEntry 3 0x00010300#32) 0x00010300#32 true = true ∧
    inspects (rxEntry 2 0x05F20300#32) 0x05F20300#32 true = true ∧
    inspects (rxEntry 2 0x404027A5#32) 0x404027A5#32 true = true := by decide +kernel

/-- One word for each way to be corrupted: an error bit, FS or LS missing, length 0, length CAP + 1. -/
theorem test_hyp_RxRecvNextOutcomes_recycles :
    inspects (rxEntry 3 0x00400302#32) 0x00400302#32 false = true ∧
    inspects (rxEntry 3 0x00400100#32) 0x00400100#32 false = true ∧
    inspects (rxEntry 3 0x00400200#32) 0x00400200#32 false = true ∧
    inspects (rxEntry 3 0x00000300#32) 0x00000300#32 false = true ∧
    inspects (rxEntry 3 0x05F30300#32) 0x05F30300#32 false = true ∧
    (rxEntry 3 0x05F30300#32).cfg.layout = DescLayout.default := by decide +kernel

theorem test_hyp_RxReleaseHandsBack :
    (configOk rxOpen.cfg = true ∧ rxOpen.rxToken = some { index := 0, len := 64 } ∧ 0 < ringSize rxOpen.cfg .rx) ∧
    (configOk (cmd .rxRecvNext (rxEntry 3 0x05F20300#32)).cfg = true ∧
      (cmd .rxRecvNext (rxEntry 3 0x05F20300#32)).rxToken = some { index := 3, len := 1522 } ∧
      3 < ringSize (cmd .rxRecvNext (rxEntry 3 0x05F20300#32)).cfg .rx) ∧
    State.reset.rxToken = none ∧ rxOpen.cfg.layout = DescLayout.default := by decide +kernel

theorem test_hyp_TxStartLinksTheRing :
    (configOk State.reset.cfg = true ∧ State.reset.dmaomr.st = false ∧ State.reset.cfg.layout = DescLayout.default) ∧
    (configOk oneEntry.cfg = true ∧ oneEntry.dmaomr.st = false) := by decide +kernel

theorem test_hyp_TxSendOutcomes_refusals :
    State.reset.dmaomr.st = false ∧ (txOpen.dmaomr.st = true ∧ txOpen.txToken ≠ none) ∧
    (started.dmaomr.st = true ∧ started.txToken = none ∧ started.cfg.cap < 1523) ∧
    (({ txCommitted with txNext := 0 } : State).dmaomr.st = true ∧
      ({ txCommitted with txNext := 0 } : State).txToken = none ∧ 1522 ≤ txCommitted.cfg.cap ∧
      ({ txCommitted with txNext := 0 } : State).ownedByDma .tx 0 = true) := by decide +kernel

theorem test_hyp_TxSendOutcomes_opensWindow :
    started.dmaomr.st = true ∧ started.txToken = none ∧ 0 ≤ started.cfg.cap ∧ 1522 ≤ started.cfg.cap ∧
    started.ownedByDma .tx started.txNext = false ∧ 0 < 65536 ∧ 65535 < 65536 := by decide +kernel

theorem test_hyp_TxCommitHandsOver :
    (configOk txOpen.cfg = true ∧ txOpen.txToken = some { index := 0, len := 64 } ∧ 0 < ringSize txOpen.cfg .tx) ∧
    (configOk started.cfg = true ∧
      ({ started with txToken := some { index := 3, len := 1522 } } : State).txToken = some { index := 3, len := 1522 } ∧
      3 < ringSize started.cfg .tx) ∧
    started.txToken = none ∧ txOpen.cfg.layout = DescLayout.default := by decide +kernel

theorem test_hyp_TxDemandPollIdempotent :
    let s := dmaStep .txFetch started
    exec .txDemandPoll s = .next (cmd .txDemandPoll s) ∧ s.dmaomr.st = true ∧ s.dmasr.tps = 0b110#3 ∧
      s.ownedByDma .tx s.txDma = false ∧ s.raced .tx s.txDma = false :=
  ⟨eq_next_of_goes (by decide +kernel), by decide +kernel⟩

/-- Entry 0 committed, and a step of the CPU agent, TX_SEND, next. -/
def committedThenSend : State := txCommitted.issue 0x12000040#32

/-- The last byte of the committed entry's buffer, on a step that opens the next window. -/
theorem test_hyp_TxBufferStableWhileDmaOwns :
    committedThenSend.Inv ∧ step committedThenSend = .next (after (step committedThenSend)) ∧
    (after (step committedThenSend)).faults = [] ∧ 0 < ringSize committedThenSend.cfg .tx ∧
    committedThenSend.ownedByDma .tx 0 = true ∧ 1521 < committedThenSend.cfg.cap ∧
    committedThenSend.dmaomr.st = true :=
  ⟨inv_of_check 0 1 (by decide +kernel), eq_next_of_goes (by decide +kernel), by decide +kernel⟩

theorem test_hyp_OnlyIrqHandleClearsLatches :
    rxOffered.faults = [] ∧
    perform (.cpu (.write 0x40029000#32 .word 0x22000000#32)) rxOffered =
      .next (after (perform (.cpu (.write 0x40029000#32 .word 0x22000000#32)) rxOffered)) ∧
    rxOffered.dmasr.rs = true ∧
    (after (perform (.cpu (.write 0x40029000#32 .word 0x22000000#32)) rxOffered)).dmasr.rs = false :=
  ⟨by decide +kernel, eq_next_of_goes (by decide +kernel), by decide +kernel, by decide +kernel⟩

/-- RX_START, TX_START and IRQ_ENABLE from reset each change the register the statement names. -/
theorem test_hyp_WhoWritesBasesAndEnables :
    goes (perform (.cpu (.write 0x40029000#32 .word 0x01000000#32)) State.reset) = true ∧
    (after (perform (.cpu (.write 0x40029000#32 .word 0x01000000#32)) State.reset)).dmardlar ≠ State.reset.dmardlar ∧
    (after (perform (.cpu (.write 0x40029000#32 .word 0x11000000#32)) State.reset)).dmatdlar ≠ State.reset.dmatdlar ∧
    (after (perform (.cpu (.write 0x40029000#32 .word 0x21000000#32)) State.reset)).dmaier ≠ State.reset.dmaier := by
  decide +kernel

theorem test_hyp_FetchReadsOwner :
    (started.dmaomr.sr = true ∧ started.dmasr.rps = 0b001#3 ∧ started.raced .rx started.rxDma = false) ∧
    (started.dmaomr.st = true ∧ started.dmasr.tps = 0b001#3 ∧ started.raced .tx started.txDma = false) := by
  decide +kernel

theorem test_hyp_RxDepositWritesFrame :
    (configOk rxWaiting.cfg = true ∧ rxWaiting.rxDma < ringSize rxWaiting.cfg .rx ∧
      rxWaiting.desc .rx rxWaiting.rxDma 2 = bufAddr rxWaiting.cfg .rx rxWaiting.rxDma ∧
      rxWaiting.dmaomr.sr = true ∧ rxWaiting.dmasr.rps = 0b011#3 ∧ rxWaiting.raced .rx rxWaiting.rxDma = false) ∧
    (1521 < (List.replicate 1600 0xA5#8).length ∧ 1521 < rxWaiting.cfg.cap) ∧
    rxWaiting.cfg.layout = DescLayout.default := by decide +kernel

/-- A race on the entry at a DMA cursor, in the process states the agent reads it in. -/
def racedRxFetch : State := after (perform (.cpu (.write 0x20000000#32 .word 0#32)) started)

/-- RXDMA holds the entry. -/
def racedRxHold : State := after (perform (.cpu (.write 0x20000000#32 .word 0#32)) rxWaiting)

/-- TXDMA fetches. -/
def racedTxFetch : State := after (perform (.cpu (.write 0x20004000#32 .half 0#32)) started)

/-- TXDMA holds the committed entry. -/
def racedTxHold : State := after (perform (.cpu (.write 0x20004000#32 .half 0#32)) (dmaStep .txFetch txCommitted))

theorem test_hyp_FaultsAreNeverCleared :
    (step rxFetchNext = .next (after (step rxFetchNext)) ∧
      perform (.dma .rxFetch) racedRxFetch = .next (dmaStep .rxFetch racedRxFetch)) ∧
    (racedRxFetch.raced .rx racedRxFetch.rxDma = true ∧ racedRxFetch.dmaomr.sr = true ∧
      racedRxFetch.dmasr.rps = 0b001#3) ∧
    (racedRxHold.raced .rx racedRxHold.rxDma = true ∧ racedRxHold.dmaomr.sr = true ∧
      racedRxHold.dmasr.rps = 0b011#3) ∧
    (racedTxFetch.raced .tx racedTxFetch.txDma = true ∧ racedTxFetch.dmaomr.st = true ∧
      racedTxFetch.dmasr.tps = 0b001#3) ∧
    (racedTxHold.raced .tx racedTxHold.txDma = true ∧ racedTxHold.dmaomr.st = true ∧
      racedTxHold.dmasr.tps = 0b011#3) ∧
    (0x20000003#32 ∈ racedRxFetch.touched ∧ 0x20000004#32 ∉ racedRxFetch.touched ∧
      0x20004001#32 ∈ racedTxFetch.touched ∧ 0x20004002#32 ∉ racedTxFetch.touched) :=
  ⟨⟨eq_next_of_goes (by decide +kernel), rfl⟩, by decide +kernel⟩

/-- A stuck CPU agent with a command to issue, and RXDMA's fetch behind it. -/
def stuckProgram : State :=
  { started with cpuStuck := true, agenda := [commandMove started.cfg 0x02000000#32, .dma .rxFetch] }

/-- A move of a CPU agent that can step, RXDMA's move past one that waits, RXDMA's move next, and no move that can be
taken. -/
theorem test_hyp_FaultsAreNeverCleared_step :
    (configOk started.cfg = true ∧
      (started.issue 0x02000000#32).agenda = [] ++ commandMove started.cfg 0x02000000#32 :: [] ∧
      (started.issue 0x02000000#32).cpuFree) ∧
    (stuckProgram.agenda = [commandMove started.cfg 0x02000000#32] ++ Move.dma .rxFetch :: [] ∧
      (∀ x ∈ [commandMove started.cfg 0x02000000#32], isCpuMove x = true) ∧ ¬ stuckProgram.cpuFree ∧
      isCpuMove (.dma .rxFetch) = false) ∧
    rxFetchNext.agenda = [] ++ Move.dma .rxFetch :: [] ∧ started.agenda = [] ∧
    (∀ x ∈ (after (step stuckProgram)).agenda, isCpuMove x = true) ∧ ¬ (after (step stuckProgram)).cpuFree := by
  unfold State.cpuFree; decide +kernel

/-- The CPU's command waits while RXDMA steps, and the program has not ended. -/
theorem test_stuck_program_waits :
    (after (step stuckProgram)).agenda = [commandMove started.cfg 0x02000000#32] ∧
    (after (step stuckProgram)).dmasr.rps = 0b011#3 ∧ (after (step stuckProgram)).res = stuckProgram.res := by
  decide +kernel

theorem test_hyp_TxCloseEmitsFrame :
    let s := dmaStep .txFetch txCommitted
    configOk s.cfg = true ∧ s.txDma < ringSize s.cfg .tx ∧ s.dmaomr.st = true ∧ s.dmasr.tps = 0b011#3 ∧
      s.raced .tx s.txDma = false ∧ s.cfg.layout = DescLayout.default := by
  decide +kernel

theorem test_hyp_DisabledDmaStepsDoNothing :
    State.reset.dmaomr.sr = false ∧ rxWaiting.dmasr.rps ≠ 0b001#3 ∧ started.dmasr.rps ≠ 0b011#3 ∧
    State.reset.dmaomr.st = false ∧ (dmaStep .txFetch started).dmasr.tps ≠ 0b001#3 ∧ started.dmasr.tps ≠ 0b011#3 := by
  decide +kernel

theorem test_hyp_RxPollDemandUnparks :
    ((dmaStep .rxFetch starved).dmaomr.sr = true ∧ (dmaStep .rxFetch starved).dmasr.rps = 0b100#3) ∧
    State.reset.dmaomr.sr = false ∧ started.dmasr.rps ≠ 0b100#3 := by decide +kernel

theorem test_hyp_LinkageIsCyclic :
    started.Inv ∧ (started.dmaomr.sr = true ∧ 3 < ringSize started.cfg .rx) ∧
    (started.dmaomr.st = true ∧ 3 < ringSize started.cfg .tx) :=
  ⟨test_inv_started, by decide +kernel, by decide +kernel⟩

theorem test_hyp_PortRegisters :
    (configOk State.reset.cfg = true ∧ State.reset.cpuFree ∧ State.reset.commandDone = false) ∧
    (configOk started.cfg = true ∧ started.cpuFree ∧ started.commandDone = true) := by
  unfold State.cpuFree; decide +kernel

/-- The hypotheses on an access of width `w` at `a`. -/
def oddAccess (a : Addr) (w : Width) : Bool :=
  configOk State.reset.cfg && decide (State.reset.boot = .done ∧ State.reset.cpuStuck = false ∧
    a.toNat + w.bytes ≤ 2 ^ 32 ∧
    a.toNat < State.reset.cfg.dreBase.toNat + 12 ∧ State.reset.cfg.dreBase.toNat < a.toNat + w.bytes ∧
    (w ≠ .word ∨ a.toNat % 4 ≠ 0))

theorem test_hyp_OddPortAccessIsStuck :
    (oddAccess 0x40029000#32 .half = true ∧ oddAccess 0x4002900B#32 .byte = true ∧
      oddAccess 0x40028FFD#32 .word = true ∧ oddAccess 0x4002900A#32 .word = true) ∧
    (after (perform (.cpu (.read 0x4002900B#32 .byte)) started)).cpuStuck = true ∧
    (stuckProgram.cpuStuck = true ∧ goes (step stuckProgram) = true) := by decide +kernel

/-- The access is one the statements on memory are about. -/
def memoryAccess (s : State) (a : Addr) (w : Width) : Bool :=
  configOk s.cfg && decide (s.boot = .done ∧ s.cpuStuck = false ∧ a.toNat + w.bytes ≤ 2 ^ 32 ∧
    (a.toNat + w.bytes ≤ s.cfg.dreBase.toNat ∨ s.cfg.dreBase.toNat + 12 ≤ a.toNat))

theorem memoryAccess_spec {s : State} {a : Addr} {w : Width} (h : memoryAccess s a w = true) :
    configOk s.cfg = true ∧ s.cpuFree ∧ a.toNat + w.bytes ≤ 2 ^ 32 ∧ OffPort s.cfg a w := by
  simp only [memoryAccess, Bool.and_eq_true, decide_eq_true_eq] at h
  exact ⟨h.1, ⟨h.2.1, h.2.2.1⟩, h.2.2.2.1, h.2.2.2.2⟩

/-- The hypotheses of RacingWriteFaults. -/
def RacingWrite (s : State) (a : Addr) (w : Width) (r : Ring) (i k : Nat) : Prop :=
  configOk s.cfg = true ∧ s.cpuFree ∧ a.toNat + w.bytes ≤ 2 ^ 32 ∧ OffPort s.cfg a w ∧ k < w.bytes ∧
    RacesOn s r i (a.toNat + k)

theorem racingWrite_of_check {s : State} {a : Addr} {w : Width} {r : Ring} {i k : Nat}
    (h : (memoryAccess s a w && decide (k < w.bytes ∧ s.writeRace (a.toNat + k) = some (r, i))) = true) :
    RacingWrite s a w r i k := by
  simp only [Bool.and_eq_true, decide_eq_true_eq] at h
  obtain ⟨h1, h2, h3, h4⟩ := memoryAccess_spec h.1
  exact ⟨h1, h2, h3, h4, h.2.1, (writeRace_iff h1).1 h.2.2⟩

/-- The last byte of descriptor 3 of each ring, the last byte of Rx buffer 3, and a Tx buffer byte with no window. -/
theorem test_hyp_RacingWriteFaults :
    RacingWrite started 0x2000121B#32 .byte .rx 3 0 ∧ RacingWrite started 0x2000521B#32 .byte .tx 3 0 ∧
    RacingWrite started 0x2000180D#32 .byte .rx 3 0 ∧ RacingWrite started 0x2000521C#32 .byte .tx 3 0 :=
  ⟨racingWrite_of_check (by decide +kernel), racingWrite_of_check (by decide +kernel),
    racingWrite_of_check (by decide +kernel), racingWrite_of_check (by decide +kernel)⟩

/-- The first Tx byte behind the window as the upper byte of a half write and the last of a word write, and one word write
on the end of a buffer that fills its slot and on the descriptor behind it. -/
theorem test_hyp_RacingWriteFaults_wide :
    RacingWrite txOpen 0x2000404F#32 .half .tx 0 1 ∧ RacingWrite txOpen 0x2000404D#32 .word .tx 0 3 ∧
    (let s := State.resetFor { Config.layoutOf 2 1 with cap := 0x5F4 }
     RacingWrite s 0x20000602#32 .word .rx 0 0 ∧ RacingWrite s 0x20000602#32 .word .rx 1 2 ∧
       s.racedEntries 0x20000602#32 .word = [(.rx, 0), (.rx, 1)]) :=
  ⟨racingWrite_of_check (by decide +kernel), racingWrite_of_check (by decide +kernel),
    racingWrite_of_check (by decide +kernel), racingWrite_of_check (by decide +kernel), by decide +kernel⟩

/-- The hypotheses of RacingReadDraws. -/
def RacingRead (s : State) (a : Addr) (w : Width) (k : Nat) : Prop :=
  configOk s.cfg = true ∧ s.cpuFree ∧ a.toNat + w.bytes ≤ 2 ^ 32 ∧ OffPort s.cfg a w ∧ k < w.bytes ∧
    s.ReadRaces (a.toNat + k)

theorem readRaces_of_check {s : State} (hc : configOk s.cfg = true) {a : Nat} (h : s.mayRead a = false) :
    s.ReadRaces a := by
  by_contra hr
  rw [(mayRead_iff hc).2 hr] at h
  cases h

theorem racingRead_of_check {s : State} {a : Addr} {w : Width} {k : Nat}
    (h : (memoryAccess s a w && decide (k < w.bytes ∧ s.mayRead (a.toNat + k) = false)) = true) : RacingRead s a w k := by
  simp only [Bool.and_eq_true, decide_eq_true_eq] at h
  obtain ⟨h1, h2, h3, h4⟩ := memoryAccess_spec h.1
  exact ⟨h1, h2, h3, h4, h.2.1, readRaces_of_check h1 h.2.2⟩

/-- The last descriptor byte, as the first byte of a half read whose second lies in the window; the first byte behind the
window, as the last byte of a word read whose others lie in it; and an Rx buffer byte with no window. -/
theorem test_hyp_RacingReadDraws :
    RacingRead rxOpen 0x2000000F#32 .half 0 ∧ RacingRead rxOpen 0x2000004D#32 .word 3 ∧
    RacingRead started 0x2000180D#32 .byte 0 :=
  ⟨racingRead_of_check (by decide +kernel), racingRead_of_check (by decide +kernel),
    racingRead_of_check (by decide +kernel)⟩

/-- What the observation of R285 keeps of a read: the window's bytes only. -/
theorem test_observed_rx_bytes :
    (after (perform (.cpu (.read 0x2000004D#32 .word)) rxOpen)).observation.rxBytes.length = 3 ∧
    (after (perform (.cpu (.read 0x2000000F#32 .half)) rxOpen)).observation.rxBytes.length = 1 ∧
    (after (perform (.cpu (.read 0x20000050#32 .byte)) rxOpen)).observation.rxBytes = [] := by decide +kernel

/-- The first byte, the last byte, and the last half and word of the window. -/
theorem test_hyp_WindowWrite :
    (configOk txOpen.cfg = true ∧ txOpen.cpuFree ∧ txOpen.txToken = some { index := 0, len := 64 } ∧
      0 < ringSize txOpen.cfg .tx ∧ 64 ≤ txOpen.cfg.cap) ∧
    0 + Width.byte.bytes ≤ 64 ∧ 63 + Width.byte.bytes ≤ 64 ∧ 62 + Width.half.bytes ≤ 64 ∧
    60 + Width.word.bytes ≤ 64 := by unfold State.cpuFree; decide +kernel

theorem test_hyp_WindowRead :
    (configOk rxOpen.cfg = true ∧ rxOpen.cpuFree ∧ rxOpen.window .rx = some { index := 0, len := 64 } ∧
      0 < ringSize rxOpen.cfg .rx ∧ 64 ≤ rxOpen.cfg.cap ∧ 63 + Width.byte.bytes ≤ 64 ∧
      62 + Width.half.bytes ≤ 64 ∧ 60 + Width.word.bytes ≤ 64) ∧
    (txOpen.window .tx = some { index := 0, len := 64 } ∧ 0 < ringSize txOpen.cfg .tx ∧ 64 ≤ txOpen.cfg.cap) := by
  unfold State.cpuFree; decide +kernel

/-- Rx bytes come back little-endian (R64, V-DMA-2's frame). -/
theorem test_window_read_widths :
    ((after (perform (.cpu (.read 0x2000004E#32 .half)) rxOpen)).reads.map CpuRead.value) = [0x00003F3E#32] ∧
    ((after (perform (.cpu (.read 0x20000011#32 .word)) rxOpen)).reads.map CpuRead.value) = [0x04030201#32] := by
  decide +kernel

/-- The hypotheses on an access to ordinary memory. -/
def ordinary (a : Addr) (w : Width) : Bool :=
  memoryAccess started a w && (List.range w.bytes).all fun k => decide (locate started.cfg (a.toNat + k) = .plain)

/-- The lowest byte, the highest of each width, the words beside the port, and the half behind a buffer's last byte. -/
theorem test_hyp_OrdinaryMemory :
    started.faults = [] ∧ ordinary 0x00000000#32 .byte = true ∧ ordinary 0xFFFFFFFF#32 .byte = true ∧
    ordinary 0xFFFFFFFE#32 .half = true ∧ ordinary 0xFFFFFFFC#32 .word = true ∧ ordinary 0x40028FFC#32 .word = true ∧
    ordinary 0x4002900C#32 .word = true ∧ ordinary 0x2000180E#32 .half = true := by decide +kernel

theorem test_hyp_SoftResetIsReset :
    (({ State.reset with boot := .waiting 0 } : State).commandDone = false ∧
      ({ State.reset with boot := .waiting 0 } : State).boot = .waiting 0) ∧ started.commandDone = true := by
  decide +kernel

theorem test_hyp_SoftResetBound :
    State.reset.commandDone = false ∧ (State.resetFor { Config.default with softResetBound := some 3 }).commandDone = false ∧
    State.reset.cfg.softResetBound = none ∧
    (State.resetFor { Config.default with softResetBound := some 3 }).cfg.softResetBound = some 3 ∧
    (({ State.reset with boot := .waiting 0 } : State).boot ≠ .done ∧
      goes (step { State.reset with boot := .waiting 0, agenda := [.dma .rxFetch] }) = true) ∧
    ({ State.reset with boot := .failed } : State).boot ≠ .done := by decide +kernel

theorem test_hyp_BeforeStartARingIsInert :
    State.reset.ProcessOk ∧ State.reset.CursorsOk ∧ State.reset.dmaomr.sr = false ∧ State.reset.dmaomr.st = false :=
  ⟨test_inv_reset.process, test_inv_reset.cursors, by decide +kernel, by decide +kernel⟩

/-- The RES of the last command read, RXDMA waiting and TXDMA suspended. -/
def ended : State := after (perform (.cpu (.read 0x40029004#32 .word)) (dmaStep .txFetch rxWaiting))

/-- A quiescent state, one whose last RES is not read, one with an access of the CPU left, one with a DMA step left. -/
theorem test_hyp_QuiescentProcessStates :
    ended.ProcessOk ∧ ended.quiescent = true ∧ ({ ended with boot := .waiting 1 } : State).quiescent = false ∧
    ({ ended with cpuStuck := true } : State).quiescent = false ∧
    (dmaStep .txFetch rxWaiting).quiescent = false ∧ (dmaStep .txFetch rxWaiting).dmaIdle = true ∧
    ({ ended with agenda := [.dma .rxFetch, .cpu (.read 0#32 .byte)] } : State).quiescent = false ∧
    (started.programEnded = false ∧ started.dmaIdle = false) :=
  ⟨(inv_of_check 0 0 (by decide +kernel) : ended.Inv).process, by decide +kernel⟩

theorem test_hyp_StepKeepsMemoryCanonical :
    Memory.wf rxFetchNext.mem = true ∧ step rxFetchNext = .next (after (step rxFetchNext)) :=
  ⟨by decide +kernel, eq_next_of_goes (by decide +kernel)⟩

theorem test_hyp_StepKeepsProcessStates :
    rxFetchNext.ProcessOk ∧ step rxFetchNext = .next (after (step rxFetchNext)) ∧ (after (step rxFetchNext)).faults = [] :=
  ⟨test_inv_rxFetchNext.process, eq_next_of_goes (by decide +kernel), by decide +kernel⟩

theorem test_hyp_StepKeepsRingInvariants :
    rxFetchNext.Inv ∧ step rxFetchNext = .next (after (step rxFetchNext)) ∧ (after (step rxFetchNext)).faults = [] :=
  ⟨test_inv_rxFetchNext, eq_next_of_goes (by decide +kernel), by decide +kernel⟩

/-- A launch state whose memory is not empty. -/
def launched : State :=
  { State.resetFor (Config.layoutOf 1 1) with
    mem := [(0x20000000, 0xFF#8)], agenda := [commandMove (Config.layoutOf 1 1) 0x01000000#32] }

/-- That launch state, and the one its program's RX_START leads to. -/
theorem test_hyp_LaunchMeetsInvariants : launched.Launch ∧ (after (step launched)).Launch :=
  have hf : launched.Fresh :=
    ⟨Config.layoutOf 1 1, [(0x20000000, 0xFF#8)], _, 0, by decide +kernel, by decide +kernel, rfl⟩
  ⟨⟨⟨_, hf, .refl⟩, rfl⟩, ⟨_, hf, .step .refl (eq_next_of_goes (by decide +kernel))⟩, by decide +kernel⟩

theorem test_hyp_StartedRingsStayStarted :
    perform (.dma .rxFetch) started = .next (dmaStep .rxFetch started) ∧ Move.dma .rxFetch ≠ Move.boot (.check true) ∧
    started.dmaomr.sr = true ∧ started.dmaomr.st = true :=
  ⟨rfl, by decide, by decide +kernel, by decide +kernel⟩

/-- Each of the four cursors moves: RX_RECV_NEXT, RX_DEPOSIT, TX_COMMIT, TX_CLOSE, and RX_START back to 0. -/
theorem test_hyp_WhoMovesTheCursors :
    (rxOffered.Inv ∧ rxWaiting.Inv ∧ txOpen.Inv ∧ (dmaStep .txFetch txCommitted).Inv ∧
      ({ State.reset with rxNext := 3 } : State).Inv ∧ rxOffered.faults = [] ∧ rxWaiting.faults = [] ∧
      txOpen.faults = [] ∧ (dmaStep .txFetch txCommitted).faults = []) ∧
    (goes (perform (.cpu (.write 0x40029000#32 .word 0x02000000#32)) rxOffered) = true ∧
      (after (perform (.cpu (.write 0x40029000#32 .word 0x02000000#32)) rxOffered)).rxNext ≠ rxOffered.rxNext) ∧
    (dmaStep (.rxDeposit frame64 0#32) rxWaiting).rxDma ≠ rxWaiting.rxDma ∧
    (after (perform (.cpu (.write 0x40029000#32 .word 0x13000000#32)) txOpen)).txNext ≠ txOpen.txNext ∧
    (dmaStep (.txClose 0#32) (dmaStep .txFetch txCommitted)).txDma ≠ (dmaStep .txFetch txCommitted).txDma ∧
    (after (perform (.cpu (.write 0x40029000#32 .word 0x01000000#32)) { State.reset with rxNext := 3 })).rxNext = 0 :=
  ⟨⟨inv_of_check 1 0 (by decide +kernel), test_inv_rxWaiting, test_inv_txOpen, inv_of_check 0 1 (by decide +kernel),
    inv_of_check 0 0 (by decide +kernel), by decide +kernel⟩, by decide +kernel⟩

theorem test_hyp_WindowsStayOpen :
    (rxOpen.CursorsOk ∧ rxOpen.rxToken = some { index := 0, len := 64 } ∧
      perform (.dma .txFetch) rxOpen = .next (dmaStep .txFetch rxOpen)) ∧
    (txOpen.CursorsOk ∧ txOpen.txToken = some { index := 0, len := 64 } ∧
      perform (.dma .txFetch) txOpen = .next (dmaStep .txFetch txOpen)) :=
  ⟨⟨test_inv_rxOpen.cursors, by decide +kernel, rfl⟩, test_inv_txOpen.cursors, by decide +kernel, rfl⟩

/-- A deposit on Rx entry 0 beside the CPU-owned Tx entry 3: the last byte of its buffer and of its descriptor. -/
theorem test_hyp_DmaLeavesCpuEntries :
    rxWaiting.Inv ∧ rxWaiting.faults = [] ∧
    perform (.dma (.rxDeposit frame64 0#32)) rxWaiting = .next (dmaStep (.rxDeposit frame64 0#32) rxWaiting) ∧
    3 < ringSize rxWaiting.cfg .tx ∧ rxWaiting.ownedByDma .tx 3 = false ∧
    InEntry rxWaiting.cfg .tx 3 0x2000580D#32 ∧ InEntry rxWaiting.cfg .tx 3 0x2000521B#32 :=
  ⟨test_inv_rxWaiting, by decide +kernel, rfl, by decide +kernel, by decide +kernel, .inr (by decide +kernel),
    .inl (by decide +kernel)⟩

/-- An open window, and TXDMA's fetch next. -/
def rxOpenThenFetch : State := { rxOpen with agenda := [.dma .txFetch] }

theorem test_hyp_OpenRxWindowIsStable :
    rxOpenThenFetch.Inv ∧ rxOpenThenFetch.rxToken = some { index := 0, len := 64 } ∧
    step rxOpenThenFetch = .next (after (step rxOpenThenFetch)) ∧ (after (step rxOpenThenFetch)).faults = [] ∧
    (after (step rxOpenThenFetch)).rxToken = some { index := 0, len := 64 } ∧ 1521 < rxOpenThenFetch.cfg.cap :=
  ⟨inv_of_check 1 0 (by decide +kernel), by decide +kernel, eq_next_of_goes (by decide +kernel), by decide +kernel⟩

theorem test_hyp_LinkWordsNeverRewritten :
    rxFetchNext.Inv ∧ step rxFetchNext = .next (after (step rxFetchNext)) ∧ (after (step rxFetchNext)).faults = [] ∧
    (rxFetchNext.dmaomr.sr = true ∧ 3 < ringSize rxFetchNext.cfg .rx) ∧
    (rxFetchNext.dmaomr.st = true ∧ 3 < ringSize rxFetchNext.cfg .tx) :=
  ⟨test_inv_rxFetchNext, eq_next_of_goes (by decide +kernel), by decide +kernel⟩

theorem test_hyp_WouldBlockMeansEmptyOrFull :
    (started.Inv ∧ started.dmaomr.sr = true ∧ started.rxToken = none ∧ started.dmaomr.st = true ∧
      started.txToken = none ∧ 1522 ≤ started.cfg.cap) ∧
    ((dmaStep .rxFetch starved).Inv ∧ (dmaStep .rxFetch starved).dmaomr.sr = true ∧
      (dmaStep .rxFetch starved).dmasr.rps = 0b100#3) :=
  ⟨⟨test_inv_started, by decide +kernel⟩, test_inv_starved, by decide +kernel⟩

theorem test_hyp_BackpressureAndRecovery :
    started.Inv ∧ started.faults = [] ∧ started.dmaomr.st = true ∧ started.txToken = none ∧
    (∀ i, i < ringSize started.cfg .tx → started.ownedByDma .tx i = false) ∧
    [0, 1522, 64, 1].length = ringSize started.cfg .tx ∧ ∀ len ∈ [0, 1522, 64, 1], len ≤ started.cfg.cap :=
  ⟨test_inv_started, by decide +kernel⟩

/-- The window of entry 0 open, RXDMA holding entry 1, and the CPU's RX_RELEASE next. -/
def secondWaiting : State := State.issue (dmaStep .rxFetch rxOpen) 0x03000000#32

/-- A frame deposited beside an open window, its first word's other status bits set. -/
def secondOffered : State := dmaStep (.rxDeposit (List.replicate 1522 0x5A#8) 0x400024A5#32) secondWaiting

/-- The run in which the CPU closes the window before it. -/
theorem secondOffered_kept : OwnerKept .rx 1 false secondOffered (after (step secondOffered)) :=
  OwnerKept.step (t := secondOffered) (OwnerKept.refl (by decide +kernel)) (eq_next_of_goes (by decide +kernel))
    (by decide +kernel)

/-- A frame of CAP bytes and the shortest one, with an error-free status. -/
theorem test_hyp_ReceivedFrameIsOffered :
    secondWaiting.Inv ∧ (secondWaiting.dmaomr.sr = true ∧ secondWaiting.dmasr.rps = 0b011#3 ∧
      0x400024A5#32 &&& rxErrMask secondWaiting.cfg = 0#32 ∧ 1 ≤ [0x5A#8].length ∧
      1 ≤ (List.replicate 1522 0x5A#8).length ∧ (List.replicate 1522 0x5A#8).length ≤ secondWaiting.cfg.cap) ∧
    OwnerKept .rx 1 false secondOffered (after (step secondOffered)) ∧
    (secondWaiting.rxDma = 1 ∧ (after (step secondOffered)).faults = [] ∧
      (after (step secondOffered)).dmaomr.sr = true ∧ (after (step secondOffered)).rxToken = none ∧
      (after (step secondOffered)).rxNext = 1) :=
  ⟨inv_of_check 1 0 (by decide +kernel), by decide +kernel, secondOffered_kept, by decide +kernel⟩

/-- Entry 0 already with DMA, the window of entry 1 open, and TXDMA's steps next. -/
def secondOpen : State :=
  { cmd (.txSend 64) txCommitted with agenda := [.dma .txFetch, .dma (.txClose 0#32), .dma .txFetch] }

/-- Entry 1 committed. -/
def secondCommitted : State := cmd .txCommit secondOpen

/-- The commit of an entry that waits behind another, and the run in which TXDMA closes that one and comes to it. -/
theorem test_hyp_CommittedFrameIsSent :
    let u := after (step (after (step (after (step secondCommitted)))))
    secondOpen.Inv ∧ secondOpen.txToken = some { index := 1, len := 64 } ∧
      exec .txCommit secondOpen = .next secondCommitted ∧ OwnerKept .tx 1 true secondCommitted u ∧ u.faults = [] ∧ u.txDma = 1 ∧
      u.dmasr.tps = 0b011#3 :=
  ⟨inv_of_check 0 1 (by decide +kernel), by decide +kernel, eq_next_of_goes (by decide +kernel),
    .step (.step (.step (.refl (by decide +kernel)) (eq_next_of_goes (by decide +kernel)) (by decide +kernel))
      (eq_next_of_goes (by decide +kernel)) (by decide +kernel)) (eq_next_of_goes (by decide +kernel)) (by decide +kernel),
    by decide +kernel⟩

/-- Only the Tx ring started, entry 0 committed, TXDMA about to fetch it. -/
def runStart : State := cmd .txCommit (cmd (.txSend 64) txStarted)

/-- The run: fetch, close, fetch and suspend, then fetches that are not enabled. -/
def closingRun : Nat → State
  | 0 => runStart
  | 1 => dmaStep .txFetch runStart
  | 2 => dmaStep (.txClose 0#32) (dmaStep .txFetch runStart)
  | _ + 3 => dmaStep .txFetch (dmaStep (.txClose 0#32) (dmaStep .txFetch runStart))

/-- Its moves. -/
def closingMoves : Nat → Move
  | 0 => .dma .txFetch
  | 1 => .dma (.txClose 0#32)
  | _ + 2 => .dma .txFetch

theorem closingRun_last_fetch (s : State) (h : s.txFetchEnabled = false) : dmaStep .txFetch s = s := by
  simp [dmaStep, h]

theorem test_hyp_CommittedEntryIsEventuallyClosed :
    IsRun closingRun closingMoves ∧ WeaklyFair closingRun closingMoves ∧
    (∀ m, isBootMove (closingMoves m) = false) ∧ (∀ m, (closingRun m).faults = []) ∧ (closingRun 0).Inv ∧
    (closingRun 0).dmaomr.st = true ∧ (closingRun 0).dmasr.tps = 0b001#3 ∧
    (closingRun 0).ownedByDma .tx (closingRun 0).txDma = true := by
  refine ⟨?_, ?_, ?_, ?_, inv_of_check 0 1 (by decide +kernel), by decide +kernel, by decide +kernel, by decide +kernel⟩
  · intro n
    match n with
    | 0 => rfl
    | 1 => rfl
    | 2 => rfl
    | _ + 3 => exact congrArg Host.Outcome.next (closingRun_last_fetch (closingRun 3) (by decide +kernel))
  · intro x n h
    cases x with
    | rxFetch =>
      have := h (n + 3) (by omega)
      exact absurd this (by show ¬ (closingRun 3).rxFetchEnabled = true; decide +kernel)
    | txFetch => exact ⟨n + 2, by omega, rfl⟩
    | txClose =>
      have := h (n + 3) (by omega)
      exact absurd this (by show ¬ (closingRun 3).txCloseEnabled = true; decide +kernel)
  · intro m
    match m with
    | 0 => rfl
    | 1 => rfl
    | _ + 2 => rfl
  · intro m
    match m with
    | 0 => decide +kernel
    | 1 => decide +kernel
    | 2 => decide +kernel
    | _ + 3 => show (closingRun 3).faults = []; decide +kernel

theorem test_hyp_SendPseudoInstruction :
    started.Inv ∧ started.faults = [] ∧ started.cpuFree ∧ started.dmaomr.st = true ∧ started.txToken = none ∧
    (List.replicate 1522 0xA5#8).length ≤ started.cfg.cap ∧ started.ownedByDma .tx started.txNext = false :=
  ⟨test_inv_started, by decide +kernel, ⟨by decide +kernel, by decide +kernel⟩, by decide +kernel⟩

/-- RXDMA holds a DMA-owned entry and TXDMA the committed one: a deposit and a close are enabled. -/
def bothHold : State := dmaStep .txFetch (dmaStep .rxFetch txCommitted)

/-- The two fetches enabled, and a deposit and a close. -/
theorem test_hyp_RxAndTxStepsCommute :
    (started.Inv ∧ Memory.wf started.mem = true ∧ started.faults = [] ∧ started.rxFetchEnabled = true ∧
      started.txFetchEnabled = true) ∧
    (bothHold.Inv ∧ Memory.wf bothHold.mem = true ∧ bothHold.faults = [] ∧ bothHold.rxDepositEnabled = true ∧
      bothHold.txCloseEnabled = true) :=
  ⟨⟨test_inv_started, by decide +kernel⟩, inv_of_check 0 1 (by decide +kernel), by decide +kernel⟩

end Sys2Proof.Tests
end

section
/-! PROOF. WF(cfg) spelled out address by address (00_scope.md R8, R9), and its refusal (R255). `Laws/Regions` gives what
a well-formed configuration satisfies; here is the converse, and O7 from both. -/

namespace Sys2Proof.Machine

/-- Every descriptor and buffer is 4-aligned, inside the address space and clear of the command port (R9). -/
def EntriesPlaced (c : Config) : Prop :=
  ∀ r i, i < ringSize c r →
    (descAddr c r i).toNat % 4 = 0 ∧ (descAddr c r i).toNat + 16 ≤ 2 ^ 32 ∧
    (bufAddr c r i).toNat % 4 = 0 ∧ (bufAddr c r i).toNat + c.cap ≤ 2 ^ 32 ∧
    (c.dreBase.toNat + 12 ≤ (descAddr c r i).toNat ∨ (descAddr c r i).toNat + 16 ≤ c.dreBase.toNat) ∧
    (c.dreBase.toNat + 12 ≤ (bufAddr c r i).toNat ∨ (bufAddr c r i).toNat + c.cap ≤ c.dreBase.toNat)

/-- Descriptors and buffers share no byte, those of one entry included (R9). -/
def EntriesApart (c : Config) : Prop :=
  ∀ r q i j, i < ringSize c r → j < ringSize c q →
    ((descAddr c r i).toNat + 16 ≤ (bufAddr c q j).toNat ∨
      (bufAddr c q j).toNat + c.cap ≤ (descAddr c r i).toNat) ∧
    ((r ≠ q ∨ i ≠ j) →
      ((descAddr c r i).toNat + 16 ≤ (descAddr c q j).toNat ∨
        (descAddr c q j).toNat + 16 ≤ (descAddr c r i).toNat) ∧
      ((bufAddr c r i).toNat + c.cap ≤ (bufAddr c q j).toNat ∨
        (bufAddr c q j).toNat + c.cap ≤ (bufAddr c r i).toNat))

/-- The four checks of WF(cfg). -/
theorem configOk_iff (c : Config) :
    configOk c = true ↔
      ((∀ r, 1 ≤ ringSize c r ∧ ringSize c r ≤ 256) ∧ c.cap ≤ 8191) ∧ (∀ x ∈ allRegions c, regionOk x = true) ∧
        (allRegions c).Pairwise (fun x y => disjointRegions x y = true) ∧ layoutOk c = true := by
  have sizes : (1 ≤ c.rx.length ∧ c.rx.length ≤ 256 ∧ 1 ≤ c.tx.length ∧ c.tx.length ≤ 256 ∧ c.cap ≤ 8191) ↔
      (∀ r, 1 ≤ ringSize c r ∧ ringSize c r ≤ 256) ∧ c.cap ≤ 8191 := by
    constructor
    · intro h
      refine ⟨fun r => ?_, by omega⟩
      cases r <;> simp only [ringSize, ringOf] <;> omega
    · rintro ⟨h, hcap⟩
      have hrx := h .rx
      have htx := h .tx
      simp only [ringSize, ringOf] at hrx htx
      omega
  simp only [configOk, Bool.and_eq_true, decide_eq_true_eq, List.all_eq_true, pairwiseDisjoint_iff, sizes, and_assoc]

/-- An entry of a ring stands at an index whose addresses are its own. -/
theorem addr_of_entry {c : Config} {r : Ring} {i : Nat} {e : EntryAddr} (he : (ringOf c r)[i]? = some e) :
    i < ringSize c r ∧ descAddr c r i = e.desc ∧ bufAddr c r i = e.buf := by
  obtain ⟨hi, -⟩ := List.getElem?_eq_some_iff.1 he
  exact ⟨hi, by simp [descAddr, he], by simp [bufAddr, he]⟩

/-- A region of a ring is one of some entry's. -/
theorem entry_of_mem_entryRegions {c : Config} {r : Ring} {x : Region} (hx : x ∈ entryRegions c.cap (ringOf c r)) :
    ∃ (i : Nat) (e : EntryAddr), (ringOf c r)[i]? = some e ∧ x ∈ regionsOf c.cap e := by
  obtain ⟨e, he, hxe⟩ := List.mem_flatMap.1 hx
  obtain ⟨i, hi⟩ := List.getElem?_of_mem he
  exact ⟨i, e, hi, hxe⟩

/-- A region of a configuration other than the port is one of some entry's. -/
theorem entry_of_mem_rings {c : Config} {x : Region}
    (hx : x ∈ entryRegions c.cap c.rx ++ entryRegions c.cap c.tx) :
    ∃ (r : Ring) (i : Nat) (e : EntryAddr), (ringOf c r)[i]? = some e ∧ x ∈ regionsOf c.cap e := by
  rcases List.mem_append.1 hx with h | h
  · exact ⟨.rx, entry_of_mem_entryRegions h⟩
  · exact ⟨.tx, entry_of_mem_entryRegions h⟩

section
variable {c : Config}

theorem EntriesPlaced.regionOk (h : EntriesPlaced c) {r : Ring} {i : Nat} {e : EntryAddr}
    (he : (ringOf c r)[i]? = some e) {x : Region} (hx : x ∈ regionsOf c.cap e) : Machine.regionOk x = true := by
  obtain ⟨hi, hd, hb⟩ := addr_of_entry he
  obtain ⟨hda, hds, hba, hbs, -, -⟩ := h r i hi
  rw [hd] at hda hds
  rw [hb] at hba hbs
  rcases List.mem_pair.1 hx with rfl | rfl
  · exact decide_eq_true ⟨hda, hds⟩
  · exact decide_eq_true ⟨hba, hbs⟩

theorem EntriesPlaced.disjoint_port (h : EntriesPlaced c) {r : Ring} {i : Nat} {e : EntryAddr}
    (he : (ringOf c r)[i]? = some e) {x : Region} (hx : x ∈ regionsOf c.cap e) :
    disjointRegions { start := c.dreBase.toNat, len := portBytes } x = true := by
  obtain ⟨hi, hd, hb⟩ := addr_of_entry he
  obtain ⟨-, -, -, -, hpd, hpb⟩ := h r i hi
  rw [hd] at hpd
  rw [hb] at hpb
  rcases List.mem_pair.1 hx with rfl | rfl
  · exact decide_eq_true hpd
  · exact decide_eq_true hpb

theorem EntriesApart.disjoint_of_ne (h : EntriesApart c) {r q : Ring} {i j : Nat} {e f : EntryAddr}
    (he : (ringOf c r)[i]? = some e) (hf : (ringOf c q)[j]? = some f) (hne : r ≠ q ∨ i ≠ j) {x y : Region}
    (hx : x ∈ regionsOf c.cap e) (hy : y ∈ regionsOf c.cap f) : disjointRegions x y = true := by
  obtain ⟨hi, hd, hb⟩ := addr_of_entry he
  obtain ⟨hj, hd', hb'⟩ := addr_of_entry hf
  obtain ⟨hdb, hsame⟩ := h r q i j hi hj
  obtain ⟨hdd, hbb⟩ := hsame hne
  have hbd := (h q r j i hj hi).1
  simp only [hd, hb, hd', hb'] at hdb hdd hbb hbd
  rcases List.mem_pair.1 hx with rfl | rfl <;> rcases List.mem_pair.1 hy with rfl | rfl
  · exact decide_eq_true hdd
  · exact decide_eq_true hdb
  · exact decide_eq_true hbd.symm
  · exact decide_eq_true hbb

theorem EntriesApart.disjoint_own (h : EntriesApart c) {r : Ring} {i : Nat} {e : EntryAddr}
    (he : (ringOf c r)[i]? = some e) :
    disjointRegions { start := e.desc.toNat, len := descBytes } { start := e.buf.toNat, len := c.cap } = true := by
  obtain ⟨hi, hd, hb⟩ := addr_of_entry he
  have hdb := (h r r i i hi hi).1
  rw [hd, hb] at hdb
  exact decide_eq_true hdb

/-- The regions of one ring share no byte. -/
theorem EntriesApart.ring_pairwise (h : EntriesApart c) (r : Ring) :
    (entryRegions c.cap (ringOf c r)).Pairwise (fun x y => disjointRegions x y = true) := by
  refine List.pairwise_flatMap.2 ⟨fun e he => ?_, List.pairwise_iff_getElem.2 fun i j hi hj hij x hx y hy => ?_⟩
  · obtain ⟨i, hi⟩ := List.getElem?_of_mem he
    exact List.pairwise_pair.2 (h.disjoint_own hi)
  · exact h.disjoint_of_ne (List.getElem?_eq_getElem hi) (List.getElem?_eq_getElem hj) (.inr (by omega)) hx hy

/-- The regions of both rings share no byte. -/
theorem EntriesApart.rings_pairwise (h : EntriesApart c) :
    (entryRegions c.cap c.rx ++ entryRegions c.cap c.tx).Pairwise (fun x y => disjointRegions x y = true) := by
  refine List.pairwise_append.2 ⟨h.ring_pairwise .rx, h.ring_pairwise .tx, fun x hx y hy => ?_⟩
  obtain ⟨i, e, he, hxe⟩ := entry_of_mem_entryRegions (r := .rx) hx
  obtain ⟨j, f, hf, hyf⟩ := entry_of_mem_entryRegions (r := .tx) hy
  exact h.disjoint_of_ne he hf (.inl (by decide)) hxe hyf

end

section
variable {c : Config} (hc : configOk c = true)
include hc

theorem dreBase_bounds : c.dreBase.toNat % 4 = 0 ∧ c.dreBase.toNat + 12 ≤ 2 ^ 32 :=
  of_decide_eq_true (regions_ok hc _ (List.mem_cons_self ..))

theorem entriesPlaced_of_configOk : EntriesPlaced c := by
  intro r i hi
  obtain ⟨e, he, hd, hb⟩ := entry_at hi
  obtain ⟨hda, hds⟩ := desc_bounds hc hi
  obtain ⟨hba, hbs⟩ := buf_bounds hc hi
  have hpd := port_disjoint hc he (List.mem_cons_self ..)
  have hpb := port_disjoint hc he (List.mem_cons_of_mem _ (List.mem_cons_self ..))
  rw [← hd] at hpd
  rw [← hb] at hpb
  exact ⟨hda, hds, hba, hbs, of_decide_eq_true hpd, of_decide_eq_true hpb⟩

theorem entriesApart_of_configOk : EntriesApart c := fun _ _ _ _ hi hj =>
  ⟨desc_buf hc hi hj, fun hne => ⟨desc_desc hc hi hj hne, buf_buf hc hi hj hne⟩⟩

end

/-- The bounds and the disjointness of R9 are all a configuration needs beyond its sizes and its layout. -/
theorem configOk_of_placed {c : Config} (hsize : ∀ r, 1 ≤ ringSize c r ∧ ringSize c r ≤ 256) (hcap : c.cap ≤ 8191)
    (hlayout : layoutOk c = true) (hport : c.dreBase.toNat % 4 = 0 ∧ c.dreBase.toNat + 12 ≤ 2 ^ 32)
    (hplaced : EntriesPlaced c) (hapart : EntriesApart c) : configOk c = true := by
  refine (configOk_iff c).2
    ⟨⟨hsize, hcap⟩, List.forall_mem_cons.2 ⟨decide_eq_true hport, fun x hx => ?_⟩,
      List.pairwise_cons.2 ⟨fun x hx => ?_, hapart.rings_pairwise⟩, hlayout⟩
  · obtain ⟨r, i, e, he, hxe⟩ := entry_of_mem_rings hx
    exact hplaced.regionOk he hxe
  · obtain ⟨r, i, e, he, hxe⟩ := entry_of_mem_rings hx
    exact hplaced.disjoint_port he hxe

/-- A configuration outside WF(cfg) has no step (R255). -/
theorem step_refused_of_not_configOk {s : State} (h : configOk s.cfg = false) : step s = .refused .configRefused := by
  simp [step, h]

/-- Settles O7: a well-formed configuration meets each bound by the laws of the regions, and the bounds, read back entry
by entry, give the list of regions its pairwise disjointness. -/
theorem configurationCheck : Obligations.ConfigurationCheck := by
  refine ⟨fun s h => step_refused_of_not_configOk h, fun c h hcap => layoutOk_default h hcap, fun c => ⟨fun hc => ?_, ?_⟩⟩
  · obtain ⟨ha, hs⟩ := dreBase_bounds hc
    exact ⟨fun r => ⟨ringSize_pos hc r, ringSize_le hc r⟩, cap_le hc, layout_ok hc, ha, hs,
      entriesPlaced_of_configOk hc, entriesApart_of_configOk hc⟩
  · rintro ⟨hsize, hcap, hlayout, ha, hs, hplaced, hapart⟩
    exact configOk_of_placed hsize hcap hlayout ⟨ha, hs⟩ hplaced hapart

end Sys2Proof.Machine
end

section
/-! PROOF. The registers, cursors and windows (10_state.md) by move: `Laws/Effects` says what a move can do, here each effect
on them stands beside the one move that has it. Which move writes a register (O23, O24), stops a ring (O48), advances a cursor
(O49) or closes a window (O50) is then read off. -/

namespace Sys2Proof.Machine

/-! ### Decoding names the word (R106, R109) -/

/-- A word is its three fields (R106). -/
theorem fields_eq (v : Word) : opField v ++ rsvField v ++ immField v = v := by
  apply BitVec.eq_of_getLsbD_eq
  intro b hb
  simp only [opField, rsvField, immField, BitVec.getLsbD_append, BitVec.getLsbD_extractLsb']
  split_ifs <;> grind

/-- The command an OP names has that OP, and as operand the IMM if it has one (R107, R108). -/
theorem commandOf_fields {op : BitVec 8} {imm : BitVec 16} {i : Instr} (h : commandOf op imm = some i) :
    opcode i = op ∧ (op ≠ 0x12#8 → immediate i = 0#16) ∧ (op = 0x12#8 → immediate i = imm) := by
  unfold commandOf at h
  split at h <;> cases h <;> next hop =>
    have hval : op = BitVec.ofNat 8 op.toNat := by simp
    rw [hop] at hval
    subst hval
    simp [opcode, immediate]

/-- The word that decodes to a command is the command's encoding (R106). -/
theorem encode_of_decode {v : Word} {i : Instr} (h : decode v = .command i) : encode i = v := by
  unfold decode at h
  split at h
  · cases h
  · next j hj =>
    split_ifs at h with hrsv himm
    cases h
    obtain ⟨hop, hplain, hlen⟩ := commandOf_fields hj
    have himm' : immediate i = immField v := by
      by_cases hsend : opField v = 0x12#8
      · exact hlen hsend
      · rw [hplain hsend]
        by_contra hne
        exact himm ⟨hsend, Ne.symm hne⟩
    rw [encode, hop, himm', ← not_not.1 hrsv, fields_eq]

/-! ### What each move does to the registers -/

/-- The registers, cursors and windows of 10_state.md that the block itself writes; the result registers are apart. -/
structure Regs where
  dmardlar : Addr
  dmatdlar : Addr
  dmaomr : Dmaomr
  dmasr : Dmasr
  dmaier : Dmaier
  rxNext : Nat
  txNext : Nat
  rxDma : Nat
  txDma : Nat
  rxToken : Option Window
  txToken : Option Window

/-- The registers, cursors and windows of a state. -/
def State.regs (s : State) : Regs where
  dmardlar := s.dmardlar
  dmatdlar := s.dmatdlar
  dmaomr := s.dmaomr
  dmasr := s.dmasr
  dmaier := s.dmaier
  rxNext := s.rxNext
  txNext := s.txNext
  rxDma := s.rxDma
  txDma := s.txDma
  rxToken := s.rxToken
  txToken := s.txToken

/-- The move by which the CPU issues the command `i`. -/
def issues (s : State) (i : Instr) : Move := commandMove s.cfg (encode i)

/-- What a move makes of the registers, cursors and windows of `s`, and when: an effect other than `same` belongs to one move
only. -/
inductive RegEffect (s : State) : Move → Regs → Prop
  /-- nothing of them is written -/
  | same (m : Move) : RegEffect s m s.regs
  /-- RX_START of a ring not started (R140) -/
  | startRx (h : s.dmaomr.sr = false) :
      RegEffect s (issues s .rxStart) { s.regs with
        dmardlar := descAddr s.cfg .rx 0, dmaomr := { s.dmaomr with sr := true },
        dmasr := { s.dmasr with rps := psFetching }, rxNext := 0, rxDma := 0, rxToken := none }
  /-- RX_RECV_NEXT, CORRUPTED (R142) -/
  | recycleRx :
      RegEffect s (issues s .rxRecvNext) { s.regs with
        dmasr := { s.dmasr with rps := rpsAfterPoll s }, rxNext := nextIndex s.cfg .rx s.rxNext }
  /-- RX_RECV_NEXT, OK (R142) -/
  | openRx (len : Nat) (h : s.rxToken = none) :
      RegEffect s (issues s .rxRecvNext) { s.regs with
        rxNext := nextIndex s.cfg .rx s.rxNext, rxToken := some { index := s.rxNext, len := len } }
  /-- RX_RELEASE, OK (R147) -/
  | release :
      RegEffect s (issues s .rxRelease) { s.regs with
        dmasr := { s.dmasr with rps := rpsAfterPoll s }, rxToken := none }
  /-- TX_START of a ring not started (R170) -/
  | startTx (h : s.dmaomr.st = false) :
      RegEffect s (issues s .txStart) { s.regs with
        dmatdlar := descAddr s.cfg .tx 0, dmaomr := { s.dmaomr with st := true },
        dmasr := { s.dmasr with tps := psFetching }, txNext := 0, txDma := 0, txToken := none }
  /-- TX_SEND, OK (R172) -/
  | openTx (len : Nat) (h : s.txToken = none) :
      RegEffect s (issues s (.txSend len)) { s.regs with txToken := some { index := s.txNext, len := len } }
  /-- TX_COMMIT, OK (R175) -/
  | commitTx (w : Window) (h : s.txToken = some w) :
      RegEffect s (issues s .txCommit) { s.regs with txNext := nextIndex s.cfg .tx w.index, txToken := none }
  /-- TX_DEMAND_POLL (R177) -/
  | pollTx : RegEffect s (issues s .txDemandPoll) { s.regs with dmasr := { s.dmasr with tps := tpsAfterPoll s } }
  /-- IRQ_ENABLE (R241) -/
  | irqEnable : RegEffect s (issues s .irqEnable) { s.regs with dmaier := { tie := true, rie := true, nise := true } }
  /-- IRQ_HANDLE (R243) -/
  | irqHandle : RegEffect s (issues s .irqHandle) { s.regs with dmasr := { s.dmasr with ts := false, rs := false } }
  /-- RX_FETCH (R202) -/
  | rxFetch (ps : BitVec 3) : RegEffect s (.dma .rxFetch) { s.regs with dmasr := { s.dmasr with rps := ps } }
  /-- RX_DEPOSIT (R205 to R207) -/
  | rxDeposit (frame : List Byte) (st : Word) :
      RegEffect s (.dma (.rxDeposit frame st)) { s.regs with
        dmasr := { s.dmasr with rs := true, rps := psFetching }, rxDma := nextIndex s.cfg .rx s.rxDma }
  /-- TX_FETCH (R212) -/
  | txFetch (ps : BitVec 3) : RegEffect s (.dma .txFetch) { s.regs with dmasr := { s.dmasr with tps := ps } }
  /-- TX_CLOSE (R214 to R217) -/
  | txClose (st : Word) (ic : Bool) :
      RegEffect s (.dma (.txClose st)) { s.regs with
        dmasr := { s.dmasr with ts := s.dmasr.ts || ic, tps := psFetching }, txDma := nextIndex s.cfg .tx s.txDma }
  /-- a step of RXDMA on a raced entry (R69) -/
  | racedRx (d : DmaMove) (hr : s.raced .rx s.rxDma = true) (latch : Bool) (ps : BitVec 3) (cursor : Nat) :
      RegEffect s (.dma d) { s.regs with dmasr := { s.dmasr with rs := latch, rps := ps }, rxDma := cursor }
  /-- a step of TXDMA on a raced entry (R69) -/
  | racedTx (d : DmaMove) (hr : s.raced .tx s.txDma = true) (latch : Bool) (ps : BitVec 3) (cursor : Nat) :
      RegEffect s (.dma d) { s.regs with dmasr := { s.dmasr with ts := latch, tps := ps }, txDma := cursor }
  /-- the platform's soft reset completes (R281) -/
  | softReset : RegEffect s (.boot (.check true)) (State.resetFor s.cfg).regs

/-- RX_START writes the base address and the engine's registers; the poll it issues finds the process fetching (R140). -/
theorem startRx_eq (s : State) :
    s.startRx = { s with
      mem := Memory.putWords s.mem (rxLinkWrites s.cfg ++ rxOwnWrites s.cfg), rxNext := 0, rxToken := none,
      dmardlar := descAddr s.cfg .rx 0, rxDma := 0, dmaomr := { s.dmaomr with sr := true },
      dmasr := { s.dmasr with rps := psFetching } } := by
  rw [State.startRx, writeDmarpdr_eq]
  rfl

/-- Handing an Rx entry back writes memory, and RPS as a poll demand does (R144, R147). -/
theorem handBackRx_eq (s : State) (i : Nat) :
    s.handBackRx i = (s.setDesc .rx i 0 (rxW0Dma s.cfg)).setRps (rpsAfterPoll s) := by
  rw [State.handBackRx, writeDmarpdr_eq, rpsAfterPoll_setDesc]

/-- The registers after a command. -/
theorem exec_regs {i : Instr} {s t : State} (h : exec i s = .next t) : RegEffect s (issues s i) t.regs := by
  cases i with
  | rxStart =>
    simp only [exec, execRxStart, startRx_eq] at h
    split_ifs at h with hsr <;> cases h
    · exact .same _
    · exact .startRx (by simpa using hsr)
  | rxRecvNext =>
    simp only [exec, execRxRecvNext, State.recycleRx, handBackRx_eq] at h
    split_ifs at h with hsr htok hown hvalid <;> cases h
    · exact .same _
    · exact .same _
    · exact .same _
    · exact .openRx _ (by simpa using htok)
    · exact .recycleRx
  | rxRelease =>
    simp only [exec, execRxRelease, handBackRx_eq] at h
    split at h <;> cases h
    · exact .same _
    · exact .release
  | rxRunningState => cases h; exact .same _
  | rxIsRunning => cases h; exact .same _
  | txStart =>
    simp only [exec, execTxStart] at h
    split_ifs at h with hst <;> cases h
    · exact .same _
    · exact .startTx (by simpa using hst)
  | txSend len =>
    simp only [exec, execTxSend] at h
    split_ifs at h with hst htok hlen hown <;> cases h
    · exact .same _
    · exact .same _
    · exact .same _
    · exact .same _
    · exact .openTx len (by simpa using htok)
  | txCommit =>
    simp only [exec, execTxCommit] at h
    split at h <;> cases h
    · exact .same _
    · next w hw => exact .commitTx w hw
  | txDemandPoll =>
    simp only [exec, execTxDemandPoll, writeDmatpdr_eq] at h
    cases h
    exact .pollTx
  | txIsRunning => cases h; exact .same _
  | irqEnable => cases h; exact .irqEnable
  | irqHandle => cases h; exact .irqHandle

/-- The registers after a step of a DMA agent. -/
theorem dmaStep_regs (d : DmaMove) (s : State) : RegEffect s (.dma d) (dmaStep d s).regs := by
  cases d <;> simp only [dmaStep, State.rxStep, State.txStep] <;> split_ifs with h hr
  · exact .racedRx _ hr ..
  · exact .rxFetch _
  · exact .same _
  · exact .racedRx _ hr ..
  · exact .rxDeposit ..
  · exact .same _
  · exact .racedTx _ hr ..
  · exact .txFetch _
  · exact .same _
  · exact .racedTx _ hr ..
  · exact .txClose ..
  · exact .same _

/-- A CPU read writes no register but the result's use (R21 to R23). -/
theorem cpuRead_regs {a : Addr} {w : Width} {s t : State} (h : cpuRead a w s = .next t) : t.regs = s.regs := by
  have hres : ∀ v u, (readResult s a v u).regs = s.regs := by
    intro v u
    unfold readResult
    split_ifs <;> rfl
  unfold cpuRead at h
  split_ifs at h <;> cases h
  · rfl
  · exact hres _ _
  · exact hres _ _
  · rfl
  · rfl
  · rfl

/-- A CPU write executes a word at CMD, or writes no register (R105). -/
theorem cpuWrite_regs {a : Addr} {w : Width} {v : Word} {s t : State} (h : cpuWrite a w v s = .next t) :
    (a = s.cfg.dreBase ∧ w = .word ∧ execWord v s = .next t) ∨ t.regs = s.regs := by
  unfold cpuWrite at h
  split_ifs at h with hin hport hcmd hres
  · exact .inl ⟨hcmd.2, hcmd.1, h⟩
  · cases h; exact .inr rfl
  · cases h; exact .inr rfl
  · split at h <;> cases h <;> exact .inr rfl

/-- The registers after a word written to CMD: those of the command it encodes, or the same (R105, R109). -/
theorem execWord_regs {v : Word} {s t : State} (h : execWord v s = .next t) :
    RegEffect s (commandMove s.cfg v) t.regs := by
  unfold execWord at h
  split at h
  · next i hi =>
    rw [← encode_of_decode hi]
    exact exec_regs h
  · cases h; exact .same _

/-- The registers after a move of the platform or the facade (R281, R283). -/
theorem bootStep_regs (b : BootMove) (s : State) : RegEffect s (.boot b) (bootStep b s).regs := by
  unfold bootStep
  split_ifs
  · exact .same _
  · split
    · exact .same _
    · exact .softReset
    · exact .same _
    · exact .same _
    · exact .same _

/-- The registers after any move. -/
theorem perform_regs {m : Move} {s t : State} (h : perform m s = .next t) : RegEffect s m t.regs := by
  cases m with
  | cpu x =>
    simp only [perform, cpuAccess] at h
    split_ifs at h
    · cases x with
      | read a w => exact cpuRead_regs h ▸ .same _
      | write a w v =>
        rcases cpuWrite_regs h with ⟨rfl, rfl, hv⟩ | hsame
        · exact execWord_regs hv
        · exact hsame ▸ .same _
    · cases h; exact .same _
  | dma d => cases h; exact dmaStep_regs d s
  | boot b => cases h; exact bootStep_regs b s

/-! ### Who writes what -/

section
variable {s : State} {m : Move} {r : Regs} (he : RegEffect s m r)
include he

section
variable (hm : m ≠ Move.boot (.check true))
include hm

theorem RegEffect.dmardlar_cases :
    r.dmardlar = s.dmardlar ∨ (m = issues s .rxStart ∧ r.dmardlar = descAddr s.cfg .rx 0) := by
  cases he
  case softReset => exact absurd rfl hm
  case startRx => exact .inr ⟨rfl, rfl⟩
  all_goals exact .inl rfl

theorem RegEffect.dmatdlar_cases :
    r.dmatdlar = s.dmatdlar ∨ (m = issues s .txStart ∧ r.dmatdlar = descAddr s.cfg .tx 0) := by
  cases he
  case softReset => exact absurd rfl hm
  case startTx => exact .inr ⟨rfl, rfl⟩
  all_goals exact .inl rfl

theorem RegEffect.dmaier_cases :
    r.dmaier = s.dmaier ∨ (m = issues s .irqEnable ∧ r.dmaier = { tie := true, rie := true, nise := true }) := by
  cases he
  case softReset => exact absurd rfl hm
  case irqEnable => exact .inr ⟨rfl, rfl⟩
  all_goals exact .inl rfl

/-- SR and ST are set by the STARTs and cleared by nothing but the soft reset. -/
theorem RegEffect.started_kept :
    (s.dmaomr.sr = true → r.dmaomr.sr = true) ∧ (s.dmaomr.st = true → r.dmaomr.st = true) := by
  cases he
  case softReset => exact absurd rfl hm
  case startRx => exact ⟨fun _ => rfl, id⟩
  case startTx => exact ⟨id, fun _ => rfl⟩
  all_goals exact ⟨id, id⟩

/-- RX_RECV_NEXT opens an Rx window where none is, and RX_START closes none, since no window is open on its ring. -/
theorem RegEffect.rxWindow_kept {w : Window} (hw : s.rxToken = some w) (hsr : s.dmaomr.sr = true) :
    r.rxToken = some w ∨ (m = issues s .rxRelease ∧ r.rxToken = none) := by
  cases he
  case softReset => exact absurd rfl hm
  case startRx h => exact absurd hsr (by simp [h])
  case openRx h => exact absurd hw (by simp [h])
  case release => exact .inr ⟨rfl, rfl⟩
  all_goals exact .inl hw

/-- TX_SEND opens a Tx window where none is, and TX_START closes none, since no window is open on its ring. -/
theorem RegEffect.txWindow_kept {w : Window} (hw : s.txToken = some w) (hst : s.dmaomr.st = true) :
    r.txToken = some w ∨ (m = issues s .txCommit ∧ r.txToken = none) := by
  cases he
  case softReset => exact absurd rfl hm
  case startTx h => exact absurd hst (by simp [h])
  case openTx h => exact absurd hw (by simp [h])
  case commitTx => exact .inr ⟨rfl, rfl⟩
  all_goals exact .inl hw

theorem RegEffect.rxNext_cases :
    r.rxNext = s.rxNext ∨ (m = issues s .rxStart ∧ r.rxNext = 0) ∨
      (m = issues s .rxRecvNext ∧ r.rxNext = nextIndex s.cfg .rx s.rxNext) := by
  cases he
  case softReset => exact absurd rfl hm
  case startRx => exact .inr (.inl ⟨rfl, rfl⟩)
  case recycleRx => exact .inr (.inr ⟨rfl, rfl⟩)
  case openRx => exact .inr (.inr ⟨rfl, rfl⟩)
  all_goals exact .inl rfl

theorem RegEffect.txNext_cases :
    r.txNext = s.txNext ∨ (m = issues s .txStart ∧ r.txNext = 0) ∨
      (m = issues s .txCommit ∧ ∃ w, s.txToken = some w ∧ r.txNext = nextIndex s.cfg .tx w.index) := by
  cases he
  case softReset => exact absurd rfl hm
  case startTx => exact .inr (.inl ⟨rfl, rfl⟩)
  case commitTx w hw => exact .inr (.inr ⟨rfl, w, hw, rfl⟩)
  all_goals exact .inl rfl

end

section
variable (hf : s.faults = [])
include hf

theorem RegEffect.rxDma_cases (hm : m ≠ Move.boot (.check true)) :
    r.rxDma = s.rxDma ∨ (m = issues s .rxStart ∧ r.rxDma = 0) ∨
      ((∃ frame st, m = Move.dma (.rxDeposit frame st)) ∧ r.rxDma = nextIndex s.cfg .rx s.rxDma) := by
  cases he
  case softReset => exact absurd rfl hm
  case racedRx hr _ _ _ => exact absurd hr (by simp [raced_of_no_fault hf])
  case startRx => exact .inr (.inl ⟨rfl, rfl⟩)
  case rxDeposit frame st => exact .inr (.inr ⟨⟨frame, st, rfl⟩, rfl⟩)
  all_goals exact .inl rfl

theorem RegEffect.txDma_cases (hm : m ≠ Move.boot (.check true)) :
    r.txDma = s.txDma ∨ (m = issues s .txStart ∧ r.txDma = 0) ∨
      ((∃ st, m = Move.dma (.txClose st)) ∧ r.txDma = nextIndex s.cfg .tx s.txDma) := by
  cases he
  case softReset => exact absurd rfl hm
  case racedTx hr _ _ _ => exact absurd hr (by simp [raced_of_no_fault hf])
  case startTx => exact .inr (.inl ⟨rfl, rfl⟩)
  case txClose st _ => exact .inr (.inr ⟨⟨st, rfl⟩, rfl⟩)
  all_goals exact .inl rfl

/-- With no race recorded a DMA step sets latches only. -/
theorem RegEffect.latches_kept (hirq : m ≠ issues s .irqHandle) (hm : m ≠ Move.boot (.check true)) :
    (s.dmasr.rs = true → r.dmasr.rs = true) ∧ (s.dmasr.ts = true → r.dmasr.ts = true) := by
  cases he
  case softReset => exact absurd rfl hm
  case irqHandle => exact absurd rfl hirq
  case racedRx hr _ _ _ => exact absurd hr (by simp [raced_of_no_fault hf])
  case racedTx hr _ _ _ => exact absurd hr (by simp [raced_of_no_fault hf])
  case rxDeposit => exact ⟨fun _ => rfl, id⟩
  case txClose => exact ⟨id, fun hts => by simp [hts]⟩
  all_goals exact ⟨id, id⟩

end
end

/-- Settles O24: RX_START, TX_START and IRQ_ENABLE are the effects that write one of the three registers. -/
theorem whoWritesBasesAndEnables : Obligations.WhoWritesBasesAndEnables := by
  intro m s t h hm
  have he := perform_regs h
  exact ⟨(he.dmardlar_cases hm).resolve_left, (he.dmatdlar_cases hm).resolve_left, (he.dmaier_cases hm).resolve_left⟩

/-- Settles O23: every effect but that of IRQ_HANDLE, of the soft reset and of a raced step keeps a latch that is set. -/
theorem onlyIrqHandleClearsLatches : Obligations.OnlyIrqHandleClearsLatches := by
  intro m s t hf h hclear
  by_contra hnot
  obtain ⟨hirq, hm⟩ := not_or.1 hnot
  obtain ⟨hrs, hts⟩ := (perform_regs h).latches_kept hf hirq hm
  rcases hclear with ⟨hset, hlow⟩ | ⟨hset, hlow⟩
  · exact Bool.false_ne_true (hlow.symm.trans (hrs hset))
  · exact Bool.false_ne_true (hlow.symm.trans (hts hset))

/-- Settles O48: no effect changes the parameters, and none but the soft reset's clears SR or ST. -/
theorem startedRingsStayStarted : Obligations.StartedRingsStayStarted := fun _ _ _ h =>
  ⟨cfg_effect (perform_effect h), fun hm => (perform_regs h).started_kept hm⟩

/-- Settles O50: a window is open on a started ring only, so that a START closes none. -/
theorem windowsStayOpen : Obligations.WindowsStayOpen := by
  intro m s t w hcursors h hm
  obtain ⟨-, -, -, -, hrx, htx⟩ := hcursors
  have he := perform_regs h
  exact ⟨fun hw => he.rxWindow_kept hm hw (hrx w hw).1, fun hw => he.txWindow_kept hm hw (htx w hw).1⟩

/-- An open Tx window is on the entry at the Tx cursor (R231). -/
theorem State.Inv.txWindow_index {s : State} (h : s.Inv) {w : Window} (hw : s.txToken = some w) :
    w.index = s.txNext := by
  obtain ⟨-, -, -, -, -, htx⟩ := h.cursors
  obtain ⟨p, -, -, -, hwindow, -⟩ := h.txRing (htx w hw).1
  exact (hwindow w hw).1

/-- Settles O49: a commit moves the Tx cursor past the window's entry, which the invariant puts at the cursor. -/
theorem whoMovesTheCursors : Obligations.WhoMovesTheCursors := by
  intro m s t hinv hf h hm
  have he := perform_regs h
  refine ⟨(he.rxNext_cases hm).resolve_left, (he.rxDma_cases hf hm).resolve_left, fun hne => ?_,
    (he.txDma_cases hf hm).resolve_left⟩
  rcases (he.txNext_cases hm).resolve_left hne with hstart | ⟨hmove, w, hw, hnext⟩
  · exact .inl hstart
  · rw [hinv.txWindow_index hw] at hnext
    exact .inr ⟨hmove, by simp [hw], hnext⟩

end Sys2Proof.Machine
end

section
/-! PROOF. The command port (R21 to R23) and the open windows (R34, R35, R64, R174) under the CPU's accesses. -/

namespace Sys2Proof.Machine

/-- A CPU agent that can step makes its access. -/
theorem perform_read {s : State} (h : s.cpuFree) (a : Addr) (w : Width) : perform (.cpu (.read a w)) s = cpuRead a w s := by
  simp [perform, cpuAccess, cpuReady_iff.2 h]

theorem perform_write {s : State} (h : s.cpuFree) (a : Addr) (w : Width) (v : Word) :
    perform (.cpu (.write a w v)) s = cpuWrite a w v s := by
  simp [perform, cpuAccess, cpuReady_iff.2 h]

/-! ### The port -/

/-- A 32-bit access within the port lies in the address space and touches the port. -/
theorem portWord_inside {c : Config} (hc : configOk c = true) {k : Nat} (hk : k + 4 ≤ 12) :
    insideSpace (c.dreBase + BitVec.ofNat 32 k) .word = true ∧
      touchesPort c (c.dreBase + BitVec.ofNat 32 k) .word = true := by
  have hb := (dreBase_bounds hc).2
  have ha := toNat_add_small c.dreBase k (by omega)
  refine ⟨insideSpace_iff.2 (by rw [ha]; simp only [Width.bytes]; omega), ?_⟩
  rw [touchesPort, decide_eq_true_eq, ha]
  simp only [Width.bytes, portBytes]
  omega

/-- The port's three registers have different addresses. -/
theorem port_addresses (a : Addr) : a + 4#32 ≠ a ∧ a + 8#32 ≠ a ∧ a + 8#32 ≠ a + 4#32 := by
  refine ⟨?_, ?_, ?_⟩ <;> bv_omega

section
variable {s : State} (hc : configOk s.cfg = true)
include hc

theorem cpuRead_cmd : cpuRead s.cfg.dreBase .word s =
    .next (s.observe { addr := s.cfg.dreBase, width := .word, value := 0#32 }) := by
  obtain ⟨hin, hport⟩ := portWord_inside hc (k := 0) (by omega)
  rw [BitVec.add_zero] at hin hport
  simp [cpuRead, hin, hport]

theorem cpuRead_res : cpuRead (s.cfg.dreBase + 4#32) .word s =
    .next (readResult s (s.cfg.dreBase + 4#32) s.res .read) := by
  obtain ⟨hin, hport⟩ := portWord_inside hc (k := 4) (by omega)
  obtain ⟨hcmd, -, -⟩ := port_addresses s.cfg.dreBase
  simp only [cpuRead, hin, hport]
  simp [hcmd]

theorem cpuRead_resAddr : cpuRead (s.cfg.dreBase + 8#32) .word s =
    .next (readResult s (s.cfg.dreBase + 8#32) s.resAddr s.resUse) := by
  obtain ⟨hin, hport⟩ := portWord_inside hc (k := 8) (by omega)
  obtain ⟨-, hcmd, hres⟩ := port_addresses s.cfg.dreBase
  simp only [cpuRead, hin, hport]
  simp [hcmd, hres]

/-- A write to RES or RES_ADDR is ignored (R22, R23). -/
theorem cpuWrite_result {k : Nat} (hk : k = 4 ∨ k = 8) (v : Word) :
    cpuWrite (s.cfg.dreBase + BitVec.ofNat 32 k) .word v s = .next s := by
  obtain ⟨hin, hport⟩ := portWord_inside hc (k := k) (by omega)
  obtain ⟨hres, haddr, -⟩ := port_addresses s.cfg.dreBase
  simp only [cpuWrite, hin, hport]
  rcases hk with rfl | rfl
  · simp [hres]
  · simp [haddr]

end

/-- Where a command has been executed, a read of its result gives the register (R22, R23). -/
theorem readResult_done {s : State} (h : s.commandDone = true) (a : Addr) (v : Word) (u : ResUse) :
    readResult s a v u =
      { s with reads := s.reads ++ [{ addr := a, width := .word, value := v }], resUse := u } := by
  rw [readResult, if_pos h]
  rfl

/-- Before the first command a read of a result is recorded as a fault and gives a free value (R22, R255). -/
theorem readResult_early {s : State} (h : s.commandDone = false) (a : Addr) (v : Word) (u : ResUse) :
    readResult s a v u =
      { s with
        reads := s.reads ++ [{ addr := a, width := .word, value := s.freeValue .word }]
        faults := s.faults ++ [.resultBeforeCommand], draws := s.draws + 4 } := by
  rw [readResult, if_neg (by simp [h])]
  rfl

/-- Settles O32: each of the three registers is found by its address, and a read of a result by whether there is one. -/
theorem portRegisters : Obligations.PortRegisters := by
  intro s v hc hfree
  simp only [perform_read hfree, perform_write hfree]
  refine ⟨cpuRead_cmd hc, fun hdone => ⟨?_, ?_⟩, ?_, cpuWrite_result hc (.inl rfl) v, cpuWrite_result hc (.inr rfl) v⟩
  · rw [cpuRead_res hc, readResult_done hdone]
  · rw [cpuRead_resAddr hc, readResult_done hdone]
  · rintro hdone a (rfl | rfl)
    · exact ⟨s.freeValue .word, by rw [cpuRead_res hc, readResult_early hdone]⟩
    · exact ⟨s.freeValue .word, by rw [cpuRead_resAddr hc, readResult_early hdone]⟩

/-! ### The windows -/

/-- Offsets from an address add up. -/
theorem offset_add (a : Addr) (k m : Nat) :
    a + BitVec.ofNat 32 k + BitVec.ofNat 32 m = a + BitVec.ofNat 32 (k + m) := by
  rw [BitVec.ofNat_add, BitVec.add_assoc]

section
variable {s : State} {r : Ring} {w : Window} {k : Nat} {d : Width} (hc : configOk s.cfg = true)
  (hi : w.index < ringSize s.cfg r) (hl : w.len ≤ s.cfg.cap) (hk : k + d.bytes ≤ w.len)
include hc hi hl hk

/-- An access to a window lies inside the address space and off the port (R9). -/
theorem windowAccess_inside :
    (bufAddr s.cfg r w.index + BitVec.ofNat 32 k).toNat = (bufAddr s.cfg r w.index).toNat + k ∧
      (bufAddr s.cfg r w.index + BitVec.ofNat 32 k).toNat + d.bytes ≤ 2 ^ 32 ∧
      OffPort s.cfg (bufAddr s.cfg r w.index + BitVec.ofNat 32 k) d := by
  have hd := bytes_bounds d
  obtain ⟨-, -, -, hb, -, hport⟩ := entriesPlaced_of_configOk hc r w.index hi
  have ha := bufByte_toNat hc hi (k := k) (by omega)
  exact ⟨ha, by omega, by unfold OffPort; omega⟩

/-- Byte `m` of an access to a window is byte `k + m` of its entry's buffer. -/
theorem windowAccess_locate {m : Nat} (hm : m < d.bytes) :
    locate s.cfg ((bufAddr s.cfg r w.index + BitVec.ofNat 32 k).toNat + m) = .buf r w.index (k + m) := by
  obtain ⟨ha, -, -⟩ := windowAccess_inside hc hi hl hk
  rw [ha, Nat.add_assoc]
  exact locate_of_buf hc hi (by omega)

variable (hw : s.window r = some w)
include hw

/-- Every byte of an access to an open window may be read (R70, R295). -/
theorem windowAccess_readable : s.allReadable (bufAddr s.cfg r w.index + BitVec.ofNat 32 k) d = true := by
  rw [State.allReadable, List.all_eq_true]
  intro m hm
  have hm := List.mem_range.1 hm
  rw [State.mayRead, windowAccess_locate hc hi hl hk hm]
  exact inWindow_iff.2 ⟨w, hw, rfl, by omega⟩

/-- The record of a read of a window: its bytes, if it is the Rx window (R285). -/
theorem windowAccess_rxBytes :
    s.rxWindowBytes (bufAddr s.cfg r w.index + BitVec.ofNat 32 k) d
        (s.cpuValue (bufAddr s.cfg r w.index + BitVec.ofNat 32 k) d) =
      if r = .rx then s.bytesAt (bufAddr s.cfg r w.index + BitVec.ofNat 32 k) d.bytes else [] := by
  unfold State.rxWindowBytes
  cases r with
  | rx =>
    rw [if_pos rfl, State.bytesAt, ← List.filterMap_eq_map]
    refine List.filterMap_congr fun m hm => ?_
    have hm := List.mem_range.1 hm
    obtain ⟨ha, -, -⟩ := windowAccess_inside hc hi hl hk
    have hopen := inRxWindow_of_window hc hw hi hl (show k + m < w.len by omega)
    rw [← Nat.add_assoc, ← ha] at hopen
    rw [if_pos hopen, State.cpuValue, valueOf_byte _ _ hm, Function.comp_apply]
  | tx =>
    rw [if_neg (by decide)]
    refine List.filterMap_eq_nil_iff.2 fun m hm => ?_
    simp only [State.inRxWindow, windowAccess_locate hc hi hl hk (List.mem_range.1 hm), Bool.false_eq_true, if_false]

end

/-- A write to the open Tx window races on nothing (R70, R295). -/
theorem txWindow_races_nothing {s : State} {w : Window} {k : Nat} {d : Width} (hc : configOk s.cfg = true)
    (hw : s.txToken = some w) (hi : w.index < ringSize s.cfg .tx) (hl : w.len ≤ s.cfg.cap) (hk : k + d.bytes ≤ w.len) :
    s.racedEntries (bufAddr s.cfg .tx w.index + BitVec.ofNat 32 k) d = [] := by
  refine racedEntries_nil.2 fun m hm => ?_
  have hopen : s.inWindow .tx w.index (k + m) = true := inWindow_iff.2 ⟨w, hw, rfl, by omega⟩
  simp only [State.writeRace, windowAccess_locate hc hi hl hk hm, hopen, if_true]

/-- Settles O36: an access to the open Tx window races on nothing, so that it is a plain write of its bytes. -/
theorem windowWrite : Obligations.WindowWrite := by
  intro s w k d v hc hfree hw hi hl hk
  obtain ⟨ha, hin, hoff⟩ := windowAccess_inside hc hi hl hk
  refine ⟨_, (perform_write hfree ..).trans (cpuWrite_plain v hin hoff (txWindow_races_nothing hc hw hi hl hk)),
    fun m hm => ?_, fun x hx => ?_, rfl⟩
  · rw [← offset_add]
    exact store_bytes v hin hm
  · rw [← ha] at hx
    exact store_byte (insideSpace_iff.2 hin) x hx

/-- Settles O37: every byte of the access may be read, so that it gives what memory holds. -/
theorem windowRead : Obligations.WindowRead := by
  intro s r w k d hc hfree hw hi hl hk
  obtain ⟨ha, hin, hoff⟩ := windowAccess_inside hc hi hl hk
  refine ⟨s.cpuValue (bufAddr s.cfg r w.index + BitVec.ofNat 32 k) d, ?_, valueOf_lt _ _, fun m hm => ?_⟩
  · rw [perform_read hfree, cpuRead_memory hin hoff, if_pos (windowAccess_readable hc hi hl hk hw), State.memoryRead,
      windowAccess_rxBytes hc hi hl hk hw]
    rfl
  · rw [← offset_add]
    exact valueOf_byte d _ hm

end Sys2Proof.Machine
end

section
/-! PROOF. The reset state (R42, R280), and every bit of the register words (R36, R101, R102, R104). -/

namespace Sys2Proof.Machine

/-- No enable is set at reset (R42, R104). -/
theorem reset_dmaierWord (c : Config) : (State.resetFor c).dmaierWord = 0#32 := by
  simp [State.dmaierWord, State.resetFor, bitAt]

/-- Settles O39: each field as State.resetFor gives it; memory lists no byte, so that each holds its power-on value. -/
theorem resetState : Obligations.ResetState := fun _ =>
  ⟨rfl, rfl, rfl, fun _ => rfl, rfl, rfl, rfl, rfl, rfl, rfl, rfl, rfl, reset_dmaierWord _, rfl, rfl, rfl, rfl, rfl, rfl, rfl,
    rfl, rfl, rfl, rfl, rfl⟩

theorem getLsbD_bitAt (x : Bool) (n : Nat) {b : Nat} (hb : b < 32) : (bitAt x n).getLsbD b = (x && decide (b = n)) := by
  cases x with
  | false => simp [bitAt]
  | true => exact getLsbD_bitMask n hb

/-- A three-bit field placed at bit `n` of a word. -/
theorem getLsbD_fieldPlaced (x : BitVec 3) (n : Nat) {b : Nat} (hb : b < 32) :
    (x.setWidth 32 <<< n).getLsbD b = (decide (n ≤ b ∧ b ≤ n + 2) && x.getLsbD (b - n)) := by
  simp only [BitVec.getLsbD_shiftLeft, BitVec.getLsbD_setWidth, hb, decide_true, Bool.true_and]
  by_cases hlo : b < n
  · simp [hlo, Nat.not_le_of_lt hlo]
  · by_cases hhi : b ≤ n + 2
    · simp [hlo, hhi, Nat.le_of_not_lt hlo, show b - n < 32 by omega]
    · simp [hlo, hhi, BitVec.getLsbD_of_ge x (b - n) (by omega)]

/-- DMAOMR's bits (R101). -/
theorem dmaomrWord_bit (s : State) {b : Nat} (hb : b < 32) :
    s.dmaomrWord.getLsbD b = (if b = 1 then s.dmaomr.sr else if b = 13 then s.dmaomr.st else false) := by
  simp only [State.dmaomrWord, BitVec.getLsbD_or, getLsbD_bitAt _ _ hb]
  split_ifs <;> simp [*]

/-- DMASR's bits (R102). -/
theorem dmasrWord_bit (s : State) {b : Nat} (hb : b < 32) :
    s.dmasrWord.getLsbD b =
      (if b = 0 then s.dmasr.ts else if b = 6 then s.dmasr.rs else if b = 16 then s.nis
        else if 17 ≤ b ∧ b ≤ 19 then s.dmasr.rps.getLsbD (b - 17)
        else if 20 ≤ b ∧ b ≤ 22 then s.dmasr.tps.getLsbD (b - 20) else false) := by
  simp only [State.dmasrWord, BitVec.getLsbD_or, getLsbD_bitAt _ _ hb, getLsbD_fieldPlaced _ _ hb]
  split_ifs with hts hrs hnis hrps htps
  · simp [hts]
  · simp [hrs]
  · simp [hnis]
  · simp [hts, hrs, hnis, hrps, show ¬ 20 ≤ b by omega]
  · simp [hts, hrs, hnis, htps, show ¬ b ≤ 19 by omega]
  · simp only [hts, hrs, hnis, hrps, htps, decide_false, Bool.and_false, Bool.false_and, Bool.or_false]

/-- DMAIER's bits (R104). -/
theorem dmaierWord_bit (s : State) {b : Nat} (hb : b < 32) :
    s.dmaierWord.getLsbD b =
      (if b = 0 then s.dmaier.tie else if b = 6 then s.dmaier.rie else if b = 16 then s.dmaier.nise else false) := by
  simp only [State.dmaierWord, BitVec.getLsbD_or, getLsbD_bitAt _ _ hb]
  split_ifs <;> simp [*]

/-- Settles O22: NIS and IRQ are the sums of products R36 gives, and each word is read off bit by bit. -/
theorem registerWords : Obligations.RegisterWords := fun s =>
  ⟨by simp [State.nis], by simp [State.irq], fun _ hb => dmaomrWord_bit s hb, fun _ hb => dmasrWord_bit s hb,
    fun _ hb => dmaierWord_bit s hb⟩

end Sys2Proof.Machine
end

section
/-! PROOF. What the invariant keeps of memory: a DMA step stays inside the entry at its cursor, which DMA owns (R224, R225),
and no step rewrites a link word of a started ring (R41). -/

namespace Sys2Proof.Machine

/-! ### The entries the DMA agents write -/

/-- A byte lies in one entry only (R9). -/
theorem inEntry_unique {c : Config} (hc : configOk c = true) {r q : Ring} {i j : Nat} {x : Addr} (hi : i < ringSize c r)
    (hj : j < ringSize c q) (hx : InEntry c r i x) (hy : InEntry c q j x) : r = q ∧ i = j := by
  by_contra hne
  have hne : r ≠ q ∨ i ≠ j := not_and_or.1 hne
  have hdd := desc_desc hc hi hj hne
  have hbb := buf_buf hc hi hj hne
  have hdb := desc_buf hc hi hj
  have hbd := desc_buf hc hj hi
  unfold InEntry at hx hy
  omega

/-- RX_DEPOSIT writes the buffer, then word 0 (R205). -/
theorem rxDeposit_mem (s : State) (frame : List Byte) (st : Word) :
    (s.rxDeposit frame st).mem =
      Memory.putWord (Memory.putBytes s.mem (s.desc .rx s.rxDma 2) (frame.take s.cfg.cap)) (descWordAddr s.cfg .rx s.rxDma 0)
        (rxDepositW0 s.cfg frame.length st) := rfl

/-- TX_CLOSE writes word 0 (R214). -/
theorem txClose_mem (s : State) (st : Word) :
    (s.txClose st).mem =
      Memory.putWord s.mem (descWordAddr s.cfg .tx s.txDma 0) (txCloseW0 s.cfg (s.desc .tx s.txDma 0) st) := rfl

/-- A word 0 lies inside its entry (R38). -/
theorem get?_putWord0_outside {s : State} (hc : configOk s.cfg = true) {r : Ring} {i : Nat} (hi : i < ringSize s.cfg r)
    (m : Memory) (v : Word) {x : Addr} (hx : ¬ InEntry s.cfg r i x) :
    Memory.get? (Memory.putWord m (descWordAddr s.cfg r i 0) v) x.toNat = Memory.get? m x.toNat := by
  have hd := (desc_bounds hc hi).2
  have ha := descWordAddr_toNat hc hi (k := 0) (by omega)
  unfold InEntry at hx
  exact get?_putBytes_outside _ _ _ _ (by rw [wordBytes_length]; omega) (by rw [wordBytes_length]; omega)

/-- RX_DEPOSIT writes inside the entry at the DMA cursor (R205, R225). -/
theorem rxDeposit_byteAt {s : State} (hc : configOk s.cfg = true) (hd : s.rxDma < ringSize s.cfg .rx)
    (hl : s.desc .rx s.rxDma 2 = bufAddr s.cfg .rx s.rxDma) (frame : List Byte) (st : Word) {x : Addr}
    (hx : ¬ InEntry s.cfg .rx s.rxDma x) : (s.rxDeposit frame st).byteAt x = s.byteAt x := by
  have hbuf := (buf_bounds hc hd).2
  have htake : (frame.take s.cfg.cap).length ≤ s.cfg.cap := List.length_take_le ..
  apply byteAt_of_get?
  rw [rxDeposit_mem, get?_putWord0_outside hc hd _ _ hx, hl]
  unfold InEntry at hx
  exact get?_putBytes_outside _ _ _ _ (by omega) (by omega)

/-- TX_CLOSE writes inside the entry at the DMA cursor (R214, R225). -/
theorem txClose_byteAt {s : State} (hc : configOk s.cfg = true) (hd : s.txDma < ringSize s.cfg .tx) (st : Word) {x : Addr}
    (hx : ¬ InEntry s.cfg .tx s.txDma x) : (s.txClose st).byteAt x = s.byteAt x := by
  apply byteAt_of_get?
  rw [txClose_mem, get?_putWord0_outside hc hd _ _ hx]

/-- The entry RXDMA holds is DMA-owned (R230). -/
theorem State.Inv.rxDma_owned {s : State} (h : s.Inv) (hsr : s.dmaomr.sr = true) (hps : s.dmasr.rps = psHolding) :
    s.ownedByDma .rx s.rxDma = true := by
  obtain ⟨n, -, howned, -, hdma, hholding, -⟩ := h.rxRing hsr
  rw [hdma, howned n (hholding hps)]
  simp

/-- The entry TXDMA holds is DMA-owned (R231). -/
theorem State.Inv.txDma_owned {s : State} (h : s.Inv) (hst : s.dmaomr.st = true) (hps : s.dmasr.tps = psHolding) :
    s.ownedByDma .tx s.txDma = true := by
  obtain ⟨-, -, -, hd, -, -⟩ := h.cursors
  obtain ⟨n, hn, howned, -, -, hholding⟩ := h.txRing hst
  have hfirst := howned 0 (by omega)
  rw [Nat.add_zero, Nat.mod_eq_of_lt hd] at hfirst
  rw [hfirst, decide_eq_true_eq]
  exact hholding hps

section
variable {s : State} (hf : s.faults = [])
include hf

/-- With no race recorded an agent takes the step as it is (R69). -/
theorem rxStep_of_no_fault (t : State) : s.rxStep t = t := by simp [State.rxStep, raced_of_no_fault hf]

theorem txStep_of_no_fault (t : State) : s.txStep t = t := by simp [State.txStep, raced_of_no_fault hf]

end

/-- Settles O51: a fetch writes no byte, and the entry a deposit or a close writes is DMA-owned, so another than the CPU's. -/
theorem dmaLeavesCpuEntries : Obligations.DmaLeavesCpuEntries := by
  intro s t d r i x hinv hf h hi hown hx
  obtain ⟨-, hrxd, -, htxd, -, -⟩ := hinv.cursors
  have hother : ∀ q j, j < ringSize s.cfg q → s.ownedByDma q j = true → ¬ InEntry s.cfg q j x := by
    intro q j hj hdma hy
    obtain ⟨rfl, rfl⟩ := inEntry_unique hinv.config hi hj hx hy
    exact Bool.false_ne_true (hown.symm.trans hdma)
  cases h
  cases d with
  | rxFetch =>
    rw [dmaStep, rxStep_of_no_fault hf]
    split_ifs <;> rfl
  | txFetch =>
    rw [dmaStep, txStep_of_no_fault hf]
    split_ifs <;> rfl
  | rxDeposit frame st =>
    rw [dmaStep, rxStep_of_no_fault hf]
    split_ifs with hen
    · obtain ⟨hsr, hps⟩ : s.dmaomr.sr = true ∧ s.dmasr.rps = psHolding := by simpa [State.rxDepositEnabled] using hen
      obtain ⟨-, hlinks⟩ := hinv.links.1 hsr
      exact rxDeposit_byteAt hinv.config hrxd (hlinks _ hrxd).2.1 frame st (hother _ _ hrxd (hinv.rxDma_owned hsr hps))
    · rfl
  | txClose st =>
    rw [dmaStep, txStep_of_no_fault hf]
    split_ifs with hen
    · obtain ⟨hst, hps⟩ : s.dmaomr.st = true ∧ s.dmasr.tps = psHolding := by simpa [State.txCloseEnabled] using hen
      exact txClose_byteAt hinv.config htxd st (hother _ _ htxd (hinv.txDma_owned hst hps))
    · rfl

/-! ### The link words -/

/-- The ring is started (R26). -/
def State.started (s : State) : Ring → Bool
  | .rx => s.dmaomr.sr
  | .tx => s.dmaomr.st

/-- The first word of a descriptor that only START writes: word 1 of an Rx descriptor; of a Tx descriptor word 2, word 1
holding the length (R41). -/
def firstLinkWord : Ring → Nat
  | .rx => 1
  | .tx => 2

theorem firstLinkWord_pos (r : Ring) : 1 ≤ firstLinkWord r := by cases r <;> decide

/-- No effect that ends with no fault recorded rewrites a link word of a started ring. -/
theorem effect_linkWord {s t : State} (hinv : s.Inv) (hs : s.faults = []) (he : Effect s t) (hf : t.faults = []) {r : Ring}
    {i k : Nat} (hr : s.started r = true) (hi : i < ringSize s.cfg r) (hk : firstLinkWord r ≤ k) (hk4 : k < 4) :
    t.desc r i k = s.desc r i k := by
  obtain ⟨hrxn, hrxd, -, htxd, hrxw, htxw⟩ := hinv.cursors
  have hc := hinv.config
  have hne : k ≠ 0 := by have := firstLinkWord_pos r; omega
  cases he
  case startRx hsr =>
    cases r with
    | rx => exact absurd hr (by simp [State.started, hsr])
    | tx => exact start_other_rx hc hi hk4
  case startTx hst =>
    cases r with
    | rx => exact start_other_tx hc hi hk4
    | tx => exact absurd hr (by simp [State.started, hst])
  case recycleRx => exact (handBack_desc hc _ hrxn).2 r i k hi hk4 (.inr (.inr hne))
  case release w hw => exact (handBack_desc hc _ (hrxw w hw).2.1).2 r i k hi hk4 (.inr (.inr hne))
  case commitTx w hw =>
    refine (commitTx_desc hc w (htxw w hw).2.1).2.2 r i k hi hk4 ?_
    cases r with
    | rx => exact .inl (by decide)
    | tx => exact .inr (.inr ⟨hne, by simp only [firstLinkWord] at hk; omega⟩)
  case rxDeposit frame st hen _ =>
    obtain ⟨hsr, -⟩ : s.dmaomr.sr = true ∧ _ := by simpa [State.rxDepositEnabled] using hen
    obtain ⟨-, hlinks⟩ := hinv.links.1 hsr
    exact (rxDeposit_desc hc hrxd (hlinks _ hrxd).2.1 frame st).2 r i k hi hk4 (.inr (.inr hne))
  case txClose st _ _ => exact (txClose_desc hc htxd st).2 r i k hi hk4 (.inr (.inr hne))
  case racedRx hraced => exact absurd hraced (by simp [raced_of_no_fault hs])
  case racedTx hraced => exact absurd hraced (by simp [raced_of_no_fault hs])
  case store a w v hin _ hrace => exact store_desc hc hin hrace hi hk4
  case pollTx =>
    rw [writeDmatpdr_eq]
    rfl
  case raceWrite es hes => simp [hes] at hf
  all_goals rfl

/-- The agenda and the counter of draws are no part of the invariant. -/
theorem State.Inv.with_agenda {s : State} (h : s.Inv) (agenda : List Move) (draws : Nat) :
    State.Inv { s with agenda := agenda, draws := draws } :=
  ⟨h.config, h.process, h.cursors, h.links, h.rxRing, h.txRing⟩

/-- No step that ends with no fault recorded rewrites a link word of a started ring. -/
theorem step_linkWord {s t : State} (hinv : s.Inv) (h : step s = .next t) (hf : t.faults = []) {r : Ring} {i k : Nat}
    (hr : s.started r = true) (hi : i < ringSize s.cfg r) (hk : firstLinkWord r ≤ k) (hk4 : k < 4) :
    t.desc r i k = s.desc r i k := by
  obtain ⟨-, hs, agenda, draws, he⟩ := step_effect_of_no_fault h hf
  exact effect_linkWord (hinv.with_agenda agenda draws) hs he hf hr hi hk hk4

/-- Settles O53: the words the statement names are the link words of the two rings. -/
theorem linkWordsNeverRewritten : Obligations.LinkWordsNeverRewritten := fun _ _ hinv h hf =>
  ⟨fun hsr _ _ hi hk hk4 => step_linkWord hinv h hf (r := .rx) hsr hi hk hk4,
    fun hst _ _ hi hk hk4 => step_linkWord hinv h hf (r := .tx) hst hi hk hk4⟩

end Sys2Proof.Machine
end

section
/-! PROOF. What every effect does to memory: the canonical form (R60) is kept, and the bytes of a DMA-owned Tx entry are left
alone but for its word 0 (R70, R215). -/

namespace Sys2Proof.Machine

/-! ### The canonical form of memory -/

/-- Handing an Rx entry back writes its word 0 (R144, R147). -/
theorem handBackRx_mem (s : State) (i : Nat) :
    (s.handBackRx i).mem = Memory.putWord s.mem (descWordAddr s.cfg .rx i 0) (rxW0Dma s.cfg) := by
  rw [handBackRx_eq]
  rfl

/-- Every effect writes memory by the shared operations only, each of which keeps the canonical form. -/
theorem effect_wf {s t : State} (he : Effect s t) (h : Memory.wf s.mem = true) : Memory.wf t.mem = true := by
  cases he
  case startRx =>
    rw [startRx_eq]
    exact wf_putWords _ _ h
  case startTx => exact wf_putWords _ _ h
  case recycleRx =>
    show Memory.wf (s.handBackRx s.rxNext).mem = true
    rw [handBackRx_mem]
    exact wf_putWord _ _ _ h
  case release w _ =>
    show Memory.wf (s.handBackRx w.index).mem = true
    rw [handBackRx_mem]
    exact wf_putWord _ _ _ h
  case commitTx => exact wf_putWord _ _ _ (wf_putWord _ _ _ h)
  case rxDeposit => exact wf_putWord _ _ _ (wf_putBytes _ _ _ h)
  case txClose => exact wf_putWord _ _ _ h
  case racedRx => exact wf_putEach _ _ h
  case racedTx => exact wf_putEach _ _ h
  case store => exact wf_putBytes _ _ _ h
  case raceWrite => exact wf_redraw _ _ _ h
  case pollTx =>
    rw [writeDmatpdr_eq]
    exact h
  all_goals exact h

/-- Settles O44: a step redraws the touched bytes and then has one effect, and both keep the canonical form. -/
theorem stepKeepsMemoryCanonical : Obligations.StepKeepsMemoryCanonical := by
  intro s t hwf h
  obtain ⟨-, agenda, draws, he⟩ := step_effect h
  exact effect_wf he (wf_redraw _ _ _ hwf)

/-! ### The bytes of a DMA-owned Tx entry -/

/-- A byte of an entry of one ring lies in no descriptor of the other (R9). -/
theorem outsideDescs_of_inEntry {c : Config} (hc : configOk c = true) {r q : Ring} (hne : q ≠ r) {i : Nat}
    (hi : i < ringSize c r) {x : Addr} (hx : InEntry c r i x) : OutsideDescs c q x := by
  intro j hj
  by_contra hn
  exact hne (inEntry_unique hc hj hi (.inl (by omega)) hx).1

/-- A byte of a buffer lies in no descriptor (R9). -/
theorem outsideDescs_of_buffer {c : Config} (hc : configOk c = true) {r q : Ring} {i k : Nat} (hi : i < ringSize c r)
    (hk : k < c.cap) : OutsideDescs c q (bufAddr c r i + BitVec.ofNat 32 k) := by
  intro j hj
  have hdb := desc_buf hc hj hi
  have hx := bufByte_toNat hc hi hk
  omega

/-- Handing an Rx entry back writes inside it (R144, R147). -/
theorem handBackRx_byteAt {s : State} (hc : configOk s.cfg = true) {j : Nat} (hj : j < ringSize s.cfg .rx) {x : Addr}
    (hx : ¬ InEntry s.cfg .rx j x) : (s.handBackRx j).byteAt x = s.byteAt x := by
  apply byteAt_of_get?
  rw [handBackRx_mem, get?_putWord0_outside hc hj _ _ hx]

/-- TX_COMMIT writes inside the window's entry (R175). -/
theorem commitTx_byteAt {s : State} (hc : configOk s.cfg = true) (w : Window) (hw : w.index < ringSize s.cfg .tx) {x : Addr}
    (hx : ¬ InEntry s.cfg .tx w.index x) : (s.commitTx w).byteAt x = s.byteAt x := by
  unfold InEntry at hx
  exact (byteAt_setDesc_outside (s := s.setDesc .tx w.index 1 (txW1 s.cfg w.len)) hc hw (k := 0) (by omega) _ x
    (by simp only [setDesc_fields]; omega)).trans (byteAt_setDesc_outside hc hw (k := 1) (by omega) _ x (by omega))

/-- TX_CLOSE writes word 0 of the entry at the DMA cursor only (R214). -/
theorem txClose_byteAt_outside_word0 {s : State} (hc : configOk s.cfg = true) (hd : s.txDma < ringSize s.cfg .tx) (st : Word)
    {x : Addr} (hx : x.toNat < (descAddr s.cfg .tx s.txDma).toNat ∨ (descAddr s.cfg .tx s.txDma).toNat + 4 ≤ x.toNat) :
    (s.txClose st).byteAt x = s.byteAt x :=
  byteAt_setDesc_outside hc hd (k := 0) (by omega) _ x hx

/-- The entry of an open Tx window is CPU-owned (R231). -/
theorem State.Inv.txWindow_cpuOwned {s : State} (h : s.Inv) {w : Window} (hw : s.txToken = some w) :
    s.ownedByDma .tx w.index = false := by
  obtain ⟨-, -, -, -, -, htx⟩ := h.cursors
  obtain ⟨p, -, howned, hnext, hwindow, -⟩ := h.txRing (htx w hw).1
  obtain ⟨hindex, hp⟩ := hwindow w hw
  rw [hindex, hnext, howned p hp]
  simp

/-- A CPU write that races on nothing writes no byte of a Tx entry without an open window (R70, R295). -/
theorem store_byteAt_of_no_window {s : State} (hc : configOk s.cfg = true) {a : Addr} {w : Width} {v : Word}
    (hin : insideSpace a w = true) (hrace : s.racedEntries a w = []) {i : Nat} (hi : i < ringSize s.cfg .tx)
    (hwin : ∀ o, s.txToken = some o → o.index ≠ i) {x : Addr} (hx : InEntry s.cfg .tx i x) :
    ({ s with mem := Memory.putBytes s.mem a ((wordBytes v).take w.bytes) } : State).byteAt x = s.byteAt x := by
  apply store_byte hin
  by_contra hn
  have hraces : RacesOn s .tx i x.toNat := ⟨hi, hx.imp_right fun hb => ⟨hb.1, hb.2, fun _ o ho => .inl (hwin o ho)⟩⟩
  have hnone := racedEntries_nil.1 hrace (x.toNat - a.toNat) (by omega)
  rw [show a.toNat + (x.toNat - a.toNat) = x.toNat by omega, (writeRace_iff hc).2 hraces] at hnone
  cases hnone

/-- No effect that ends with no fault recorded writes a byte of a DMA-owned Tx entry outside its word 0; of an entry of a ring not
started, outside its descriptor. -/
theorem effect_dmaOwnedTx_byteAt {s t : State} (hinv : s.Inv) (hs : s.faults = []) (he : Effect s t) (hf : t.faults = [])
    {i : Nat} (hi : i < ringSize s.cfg .tx) (hown : s.ownedByDma .tx i = true) {x : Addr} (hx : InEntry s.cfg .tx i x)
    (hword0 : x.toNat < (descAddr s.cfg .tx i).toNat ∨ (descAddr s.cfg .tx i).toNat + 4 ≤ x.toNat)
    (hstart : s.dmaomr.st = true ∨ OutsideDescs s.cfg .tx x) : t.byteAt x = s.byteAt x := by
  obtain ⟨hrxn, hrxd, -, htxd, hrxw, htxw⟩ := hinv.cursors
  have hc := hinv.config
  have hrx : ∀ j, j < ringSize s.cfg .rx → ¬ InEntry s.cfg .rx j x := fun j hj hy =>
    absurd (inEntry_unique hc hi hj hx hy).1 (by decide)
  have hwin : ∀ w, s.txToken = some w → w.index ≠ i := by
    rintro w hw rfl
    exact Bool.false_ne_true ((hinv.txWindow_cpuOwned hw).symm.trans hown)
  cases he
  case startRx => exact startRx_byteAt hc x (outsideDescs_of_inEntry hc (by decide) hi hx)
  case startTx hst => exact startTx_byteAt hc x (hstart.resolve_left (by simp [hst]))
  case recycleRx => exact handBackRx_byteAt hc hrxn (hrx _ hrxn)
  case release w hw => exact handBackRx_byteAt hc (hrxw w hw).2.1 (hrx _ (hrxw w hw).2.1)
  case commitTx w hw =>
    have hw' := (htxw w hw).2.1
    exact commitTx_byteAt hc w hw' fun hy => hwin w hw (inEntry_unique hc hw' hi hy hx).2
  case rxDeposit frame st hen _ =>
    obtain ⟨hsr, -⟩ : s.dmaomr.sr = true ∧ _ := by simpa [State.rxDepositEnabled] using hen
    obtain ⟨-, hlinks⟩ := hinv.links.1 hsr
    exact rxDeposit_byteAt hc hrxd (hlinks _ hrxd).2.1 frame st (hrx _ hrxd)
  case txClose st _ _ =>
    by_cases hcur : s.txDma = i
    · exact txClose_byteAt_outside_word0 hc htxd st (by rwa [hcur])
    · exact txClose_byteAt hc htxd st fun hy => hcur (inEntry_unique hc htxd hi hy hx).2
  case racedRx hraced => exact absurd hraced (by simp [raced_of_no_fault hs])
  case racedTx hraced => exact absurd hraced (by simp [raced_of_no_fault hs])
  case store a w v hin _ hrace => exact store_byteAt_of_no_window hc hin hrace hi hwin hx
  case raceWrite es hes => simp [hes] at hf
  case pollTx =>
    rw [writeDmatpdr_eq]
    rfl
  all_goals rfl

/-- No step that ends with no fault recorded writes a byte that `effect_dmaOwnedTx_byteAt` keeps. -/
theorem step_dmaOwnedTx_byteAt {s t : State} (hinv : s.Inv) (h : step s = .next t) (hf : t.faults = []) {i : Nat}
    (hi : i < ringSize s.cfg .tx) (hown : s.ownedByDma .tx i = true) {x : Addr} (hx : InEntry s.cfg .tx i x)
    (hword0 : x.toNat < (descAddr s.cfg .tx i).toNat ∨ (descAddr s.cfg .tx i).toNat + 4 ≤ x.toNat)
    (hstart : s.dmaomr.st = true ∨ OutsideDescs s.cfg .tx x) : t.byteAt x = s.byteAt x := by
  obtain ⟨-, hs, agenda, draws, he⟩ := step_effect_of_no_fault h hf
  exact effect_dmaOwnedTx_byteAt (hinv.with_agenda agenda draws) hs he hf hi hown hx hword0 hstart

/-- No step changes the parameters (R43). -/
theorem step_cfg {s t : State} (h : step s = .next t) : t.cfg = s.cfg := by
  obtain ⟨-, agenda, draws, he⟩ := step_effect h
  exact (cfg_effect he :)

/-- Settles O19: the buffer and word 1 lie outside word 0, the only word of a DMA-owned Tx entry that a step can write. -/
theorem txBufferStableWhileDmaOwns : Obligations.TxBufferStableWhileDmaOwns := by
  intro s t i hinv h hf hi hown
  have hc := hinv.config
  refine ⟨fun k hk => ?_, fun hst => desc_of_bytes hc (step_cfg h) hi (by omega) fun x h1 h2 => ?_⟩
  · have hx := bufByte_toNat hc hi hk
    have hout := outsideDescs_of_buffer hc (q := .tx) hi hk
    have hdesc := hout i hi
    exact step_dmaOwnedTx_byteAt hinv h hf hi hown (.inr (by omega)) (by omega) (.inr hout)
  · exact step_dmaOwnedTx_byteAt hinv h hf hi hown (.inl (by omega)) (by omega) (.inl hst)

end Sys2Proof.Machine
end

section
/-! PROOF. Recorded faults and what they leave unconstrained (R69, R255), which move a step takes (R7), and the stuck CPU agent
(R65). -/

namespace Sys2Proof.Machine

/-! ### Which move a step takes -/

/-- The moves of a CPU agent that cannot step wait before the first other move (R65, R283). -/
theorem takeMove_waiting {waiting : List Move} (rest : List Move) {m : Move} (hw : ∀ x ∈ waiting, isCpuMove x = true)
    (hm : isCpuMove m = false) : takeMove false (waiting ++ m :: rest) = some (m, waiting ++ rest) := by
  induction waiting with
  | nil => exact takeMove_head rest (.inl hm)
  | cons x xs ih =>
    obtain ⟨hx, hxs⟩ := List.forall_mem_cons.1 hw
    simp [takeMove, hx, ih hxs]

/-- A CPU agent that cannot step takes none of its moves (R65, R283). -/
theorem takeMove_none {agenda : List Move} (h : ∀ x ∈ agenda, isCpuMove x = true) : takeMove false agenda = none := by
  induction agenda with
  | nil => rfl
  | cons x xs ih =>
    obtain ⟨hx, hxs⟩ := List.forall_mem_cons.1 h
    simp [takeMove, hx, ih hxs]

/-- The CPU agent cannot step. -/
theorem cpuReady_eq_false_iff {s : State} : s.cpuReady = false ↔ ¬ s.cpuFree := by
  rw [← cpuReady_iff, Bool.not_eq_true]

/-- A step takes the agenda's move that can be taken. -/
theorem step_of_takeMove {s : State} {m : Move} {rest : List Move} (hc : configOk s.cfg = true)
    (h : takeMove s.cpuReady s.agenda = some (m, rest)) :
    step s = perform m (State.redraw { s with agenda := rest }) := by
  simp only [step, hc, if_true, State.choose, h]

/-- A step with no move to take in the agenda takes a free DMA move (R7). -/
theorem step_of_takeMove_none {s : State} (hc : configOk s.cfg = true) (h : takeMove s.cpuReady s.agenda = none) :
    step s = perform (.dma (Config.freeMove s.draws)) (State.redraw { s with draws := s.draws + 1 }) := by
  simp only [step, hc, if_true, State.choose, h]

/-! ### What a recorded race leaves free -/

/-- The byte at an address given a free value is one of the draws. -/
theorem get?_redraw_inside (m : Memory) (n : Nat) {as : List Addr} {x : Addr} (hx : x ∈ as) :
    ∃ k, n ≤ k ∧ k < n + as.length ∧ Memory.get? (Memory.redraw m n as) x.toNat = some (Config.freeByte k) := by
  induction as generalizing m n with
  | nil => cases hx
  | cons a as ih =>
    by_cases hlater : x ∈ as
    · obtain ⟨k, hlo, hhi, hk⟩ := ih (Memory.put m a.toNat (Config.freeByte n)) (n + 1) hlater
      exact ⟨k, by omega, by rw [List.length_cons]; omega, hk⟩
    · obtain rfl : x = a := (List.mem_cons.1 hx).resolve_right hlater
      exact ⟨n, le_rfl, by simp, by rw [Memory.redraw, get?_redraw_outside _ _ _ _ hlater, get?_put, if_pos rfl]⟩

/-- A touched byte takes a fresh free value (R69). -/
theorem redraw_byteAt_touched {s : State} {x : Addr} (hx : x ∈ s.touched) :
    ∃ n, s.draws ≤ n ∧ n < s.redraw.draws ∧ s.redraw.byteAt x = Config.freeByte n := by
  obtain ⟨n, hlo, hhi, hn⟩ := get?_redraw_inside s.mem s.draws hx
  refine ⟨n, hlo, hhi, ?_⟩
  rw [byteAt_def, State.redraw, hn]
  rfl

/-- A byte no racing write has touched keeps its value. -/
theorem redraw_byteAt_untouched {s : State} {x : Addr} (hx : x ∉ s.touched) : s.redraw.byteAt x = s.byteAt x :=
  byteAt_of_get? (get?_redraw_outside _ _ _ _ hx)

/-- An enabled step of RXDMA on a raced entry is the free one (R69). -/
theorem rxMove_of_raced {s : State} (hraced : s.raced .rx s.rxDma = true) (hsr : s.dmaomr.sr = true) :
    (s.dmasr.rps = psFetching → dmaStep .rxFetch s = s.racedRx) ∧
      ∀ frame st, s.dmasr.rps = psHolding → dmaStep (.rxDeposit frame st) s = s.racedRx := by
  refine ⟨fun hps => ?_, fun frame st hps => ?_⟩
  · simp [dmaStep, State.rxFetchEnabled, State.rxStep, hsr, hps, hraced]
  · simp [dmaStep, State.rxDepositEnabled, State.rxStep, hsr, hps, hraced]

/-- An enabled step of TXDMA on a raced entry is the free one (R69). -/
theorem txMove_of_raced {s : State} (hraced : s.raced .tx s.txDma = true) (hst : s.dmaomr.st = true) :
    (s.dmasr.tps = psFetching → dmaStep .txFetch s = s.racedTx) ∧
      ∀ st, s.dmasr.tps = psHolding → dmaStep (.txClose st) s = s.racedTx := by
  refine ⟨fun hps => ?_, fun st hps => ?_⟩
  · simp [dmaStep, State.txFetchEnabled, State.txStep, hst, hps, hraced]
  · simp [dmaStep, State.txCloseEnabled, State.txStep, hst, hps, hraced]

/-- Settles O27: effects only add faults, and the order of moves is what takeMove answers for a ready and for a waiting CPU. -/
theorem faultsAreNeverCleared : Obligations.FaultsAreNeverCleared := by
  refine ⟨fun s t h => faults_step h, fun m s t h => faults_effect (perform_effect h), fun s frame st => ⟨?_, ?_⟩, ?_, ?_,
    fun s x => ⟨redraw_byteAt_touched, redraw_byteAt_untouched⟩⟩
  · intro hraced hsr
    obtain ⟨hfetch, hdeposit⟩ := rxMove_of_raced hraced hsr
    exact ⟨fun hps => congrArg _ (hfetch hps), fun hps => congrArg _ (hdeposit frame st hps)⟩
  · intro hraced hst
    obtain ⟨hfetch, hclose⟩ := txMove_of_raced hraced hst
    exact ⟨fun hps => congrArg _ (hfetch hps), fun hps => congrArg _ (hclose st hps)⟩
  · rintro s m waiting rest hc hagenda (⟨rfl, hfree⟩ | ⟨hwaiting, hfree, hm⟩ | ⟨rfl, hm⟩)
    · exact step_agenda hc hagenda (.inr hfree)
    · exact step_of_takeMove hc (by rw [hagenda, cpuReady_eq_false_iff.2 hfree, takeMove_waiting rest hwaiting hm])
    · exact step_agenda hc hagenda (.inl hm)
  · rintro s hc (hnil | ⟨hwaiting, hfree⟩)
    · exact step_of_takeMove_none hc (by rw [hnil]; rfl)
    · exact step_of_takeMove_none hc (by rw [cpuReady_eq_false_iff.2 hfree, takeMove_none hwaiting])

/-! ### The stuck CPU agent -/

/-- No effect changes the agenda. -/
theorem agenda_effect {s t : State} (he : Effect s t) : t.agenda = s.agenda := by
  cases he
  case startRx => simp [State.startRx]
  case recycleRx => simp [State.recycleRx, State.handBackRx]
  case release => simp [State.handBackRx]
  case pollTx => simp
  all_goals rfl

/-- No effect frees a CPU agent that is stuck (R65). -/
theorem cpuStuck_effect {s t : State} (he : Effect s t) (h : s.cpuStuck = true) : t.cpuStuck = true := by
  cases he
  case startRx => simpa [State.startRx]
  case recycleRx => simpa [State.recycleRx, State.handBackRx]
  case release => simpa [State.handBackRx]
  case pollTx => simpa
  case stuck => rfl
  all_goals exact h

/-- Choosing the next move leaves a CPU agent that cannot step all its moves (R65, R283). -/
theorem choose_cpuMoves {s : State} (h : s.cpuReady = false) : s.choose.2.cpuMoves = s.cpuMoves := by
  unfold State.choose
  split
  · next m rest hm =>
    rw [h] at hm
    exact (takeMove_keeps hm).2
  · rfl

/-- A step leaves a stuck CPU agent stuck, and its moves in the agenda (R65). -/
theorem step_of_stuck {s t : State} (hstuck : s.cpuStuck = true) (h : step s = .next t) :
    t.cpuStuck = true ∧ t.cpuMoves = s.cpuMoves := by
  unfold step at h
  split_ifs at h
  have he := perform_effect h
  obtain ⟨agenda, draws, hchoose⟩ := choose_eq s
  refine ⟨cpuStuck_effect he (by rw [hchoose]; exact hstuck), ?_⟩
  rw [← choose_cpuMoves (s := s) (by simp [State.cpuReady, hstuck]), State.cpuMoves, agenda_effect he]
  rfl

/-- The state with the CPU agent's flag set to `b`. -/
def State.withStuck (s : State) (b : Bool) : State := { s with cpuStuck := b }

/-- The DMA agents' steps do not look at the CPU agent's flag. -/
theorem rxStep_withStuck (s t : State) (b : Bool) : (s.withStuck b).rxStep (t.withStuck b) = (s.rxStep t).withStuck b := by
  rw [State.rxStep, State.rxStep, apply_ite (State.withStuck · b)]
  rfl

theorem txStep_withStuck (s t : State) (b : Bool) : (s.withStuck b).txStep (t.withStuck b) = (s.txStep t).withStuck b := by
  rw [State.txStep, State.txStep, apply_ite (State.withStuck · b)]
  rfl

theorem dmaStep_withStuck (d : DmaMove) (s : State) (b : Bool) : dmaStep d (s.withStuck b) = (dmaStep d s).withStuck b := by
  cases d with
  | rxFetch => rw [dmaStep, dmaStep, apply_ite (State.withStuck · b), ← rxStep_withStuck]; rfl
  | rxDeposit frame st => rw [dmaStep, dmaStep, apply_ite (State.withStuck · b), ← rxStep_withStuck]; rfl
  | txFetch => rw [dmaStep, dmaStep, apply_ite (State.withStuck · b), ← txStep_withStuck]; rfl
  | txClose st => rw [dmaStep, dmaStep, apply_ite (State.withStuck · b), ← txStep_withStuck]; rfl

/-- An access that is not an aligned 32-bit one is at no register of the port (R21 to R23, R65). -/
theorem oddAccess_ne_register {c : Config} (hc : configOk c = true) {a : Addr} {w : Width}
    (hodd : w ≠ .word ∨ a.toNat % 4 ≠ 0) {k : Nat} (hk : k % 4 = 0 ∧ k + 4 ≤ 12) :
    ¬ (w = .word ∧ a = c.dreBase + BitVec.ofNat 32 k) := by
  rintro ⟨rfl, rfl⟩
  obtain ⟨halign, hend⟩ := dreBase_bounds hc
  have hadd := toNat_add_small c.dreBase k (by omega)
  exact hodd.elim (fun hw => hw rfl) fun ha => ha (by omega)

/-- An access to the port that is not an aligned 32-bit one leaves the CPU agent without a step (R65). -/
theorem oddAccess_stuck {s : State} (hc : configOk s.cfg = true) {a : Addr} {w : Width} (hin : insideSpace a w = true)
    (hport : touchesPort s.cfg a w = true) (hodd : w ≠ .word ∨ a.toNat % 4 ≠ 0) :
    cpuRead a w s = .next s.stuckCpu ∧ ∀ v, cpuWrite a w v s = .next s.stuckCpu := by
  have hcmd := oddAccess_ne_register hc hodd (k := 0) (by decide)
  have hres := oddAccess_ne_register hc hodd (k := 4) (by decide)
  have haddr := oddAccess_ne_register hc hodd (k := 8) (by decide)
  rw [BitVec.add_zero] at hcmd
  refine ⟨?_, fun v => ?_⟩
  · simp only [cpuRead, hin, hport, hcmd, hres, haddr]
    rfl
  · simp only [cpuWrite, hin, hport, hcmd, and_or_left, hres, haddr]
    rfl

/-- Settles O33: an odd access finds no register; the flag then holds the CPU's moves in the agenda, and no DMA step reads it. -/
theorem oddPortAccessIsStuck : Obligations.OddPortAccessIsStuck := by
  refine ⟨fun s a w v hc hfree hin hlo hhi hodd => ?_, fun s hstuck => ⟨fun x => ?_, ?_, fun t => step_of_stuck hstuck⟩,
    fun s d b => dmaStep_withStuck d s b⟩
  · rw [perform_read hfree, perform_write hfree]
    obtain ⟨hread, hwrite⟩ := oddAccess_stuck hc (insideSpace_iff.2 hin) (decide_eq_true ⟨hlo, hhi⟩) hodd
    exact ⟨hread, hwrite v⟩
  · simp [perform, cpuAccess, State.cpuReady, hstuck]
  · simp [State.programEnded, State.cpuReady, hstuck]

end Sys2Proof.Machine
end

section
/-! PROOF. The CPU's accesses to memory outside the windows: those that race (R69, R70, R294) and those to ordinary memory
(R61, R63). -/

namespace Sys2Proof.Machine

/-! ### Accesses that race -/

/-- Settles O34: the entries recorded are those a byte of the access races on, and the bytes redrawn are the access's. -/
theorem racingWriteFaults : Obligations.RacingWriteFaults := by
  intro s a w v r i k hc hfree hin hoff hk hraces
  have hmem : (r, i) ∈ s.racedEntries a w := (mem_racedEntries hc).2 ⟨k, hk, hraces⟩
  have hfault : Recorded.raceOnRing r i a w ∈ (s.raceWrite a w (s.racedEntries a w)).faults :=
    List.mem_append_right _ (List.mem_map_of_mem hmem)
  refine ⟨_, (perform_write hfree ..).trans (cpuWrite_racing v hin hoff (List.ne_nil_of_mem hmem)), hfault,
    List.any_eq_true.2 ⟨_, hfault, by simp [Recorded.isRaceOn]⟩, fun e he => ?_, fun x hx => raceWrite_byteAt _ hin hx, rfl⟩
  refine (List.mem_append.1 he).imp_right fun hnew => ?_
  obtain ⟨⟨q, j⟩, hqj, rfl⟩ := List.mem_map.1 hnew
  obtain ⟨m, hm, hrace⟩ := (mem_racedEntries hc).1 hqj
  exact ⟨q, j, m, rfl, hm, hrace⟩

/-- An access with a racing byte may not be read as a whole (R70). -/
theorem allReadable_of_races {s : State} (hc : configOk s.cfg = true) {a : Addr} {w : Width} {k : Nat} (hk : k < w.bytes)
    (hraces : s.ReadRaces (a.toNat + k)) : s.allReadable a w = false :=
  List.all_eq_false.2 ⟨k, List.mem_range.2 hk, fun hmay => (mayRead_iff hc).1 hmay hraces⟩

/-- Settles O35: the value is the free one, put together from the draws byte by byte. -/
theorem racingReadDraws : Obligations.RacingReadDraws := by
  intro s a w k hc hfree hin hoff hk hraces
  refine ⟨s.freeValue w, ?_, valueOf_lt _ _, fun m hm => valueOf_byte w _ hm⟩
  rw [perform_read hfree, cpuRead_memory hin hoff, allReadable_of_races hc hk hraces]
  rfl

/-! ### Ordinary memory -/

/-- A value read depends on the bytes of the access only. -/
theorem valueOf_congr {d : Width} {f g : Nat → Byte} (h : ∀ k, k < d.bytes → f k = g k) : valueOf d f = valueOf d g := by
  cases d with
  | byte => simp only [valueOf, h 0 (by decide)]
  | half => simp only [valueOf, h 0 (by decide), h 1 (by decide)]
  | word => simp only [valueOf, h 0 (by decide), h 1 (by decide), h 2 (by decide), h 3 (by decide)]

/-- A bit of a word is a bit of one of its bytes (R63). -/
theorem getLsbD_byte (v : Word) (b : Nat) : (v.extractLsb' (8 * (b / 8)) 8).getLsbD (b % 8) = v.getLsbD b := by
  rw [BitVec.getLsbD_extractLsb', Nat.div_add_mod, decide_eq_true (Nat.mod_lt b (by decide)), Bool.true_and]

/-- The bytes of a word, put together at a width, are the word's low bits (R63, log 14). -/
theorem valueOf_extract (d : Width) (v : Word) :
    (valueOf d fun k => v.extractLsb' (8 * k) 8) = BitVec.ofNat 32 (v.toNat % 2 ^ (8 * d.bytes)) := by
  apply BitVec.eq_of_getLsbD_eq
  intro b hb
  rw [BitVec.getLsbD_ofNat, Nat.testBit_mod_two_pow, BitVec.testBit_toNat, decide_eq_true hb, Bool.true_and]
  by_cases hin : b < 8 * d.bytes
  · rw [← getLsbD_byte, valueOf_byte d _ (by omega), getLsbD_byte, decide_eq_true hin, Bool.true_and]
  · rw [decide_eq_false hin, Bool.false_and, ← BitVec.testBit_toNat]
    exact Nat.testBit_lt_two_pow ((valueOf_lt d _).trans_le (Nat.pow_le_pow_right (by decide) (Nat.le_of_not_lt hin)))

section
variable {s : State} {a : Addr} {d : Width} (hplain : ∀ k, k < d.bytes → locate s.cfg (a.toNat + k) = .plain)
include hplain

/-- A write to ordinary memory races on nothing (R70). -/
theorem plainAccess_races_nothing : s.racedEntries a d = [] :=
  racedEntries_nil.2 fun k hk => by rw [State.writeRace, hplain k hk]

/-- Ordinary memory may be read (R70). -/
theorem plainAccess_readable : s.allReadable a d = true :=
  List.all_eq_true.2 fun k hk => by rw [State.mayRead, hplain k (List.mem_range.1 hk)]

/-- Ordinary memory is no part of an Rx window (R285). -/
theorem plainAccess_rxBytes (v : Word) : s.rxWindowBytes a d v = [] :=
  List.filterMap_eq_nil_iff.2 fun k hk => by rw [State.inRxWindow, hplain k (List.mem_range.1 hk)]; rfl

/-- A read of ordinary memory gives what memory holds (R61, R63). -/
theorem cpuRead_plain (hin : a.toNat + d.bytes ≤ 2 ^ 32) (hoff : OffPort s.cfg a d) :
    cpuRead a d s = .next (s.observe { addr := a, width := d, value := s.cpuValue a d }) := by
  rw [cpuRead_memory hin hoff, plainAccess_readable hplain, State.memoryRead, plainAccess_rxBytes hplain]
  rfl

end

/-- A read gives the low bits of the word whose bytes memory holds (R63, log 14). -/
theorem cpuValue_of_bytes {s : State} {a : Addr} {d : Width} {v : Word}
    (h : ∀ k, k < d.bytes → s.byteAt (a + BitVec.ofNat 32 k) = v.extractLsb' (8 * k) 8) :
    s.cpuValue a d = BitVec.ofNat 32 (v.toNat % 2 ^ (8 * d.bytes)) :=
  (valueOf_congr h).trans (valueOf_extract d v)

/-- Settles O38: the access races neither when written nor when read, and the value read is put together from the bytes
stored. -/
theorem ordinaryMemory : Obligations.OrdinaryMemory := by
  intro s a d v _ _ hfree hin hplain hoff
  refine ⟨_, (perform_write hfree ..).trans (cpuWrite_plain v hin hoff (plainAccess_races_nothing hplain)),
    fun k hk => store_bytes v hin hk, fun x hx => store_byte (insideSpace_iff.2 hin) x hx, rfl, ?_⟩
  rw [perform_read (by exact hfree), cpuRead_plain (by exact hplain) hin (by exact hoff),
    cpuValue_of_bytes fun k hk => store_bytes v hin hk]
  rfl

end Sys2Proof.Machine
end

section
/-! PROOF. The command word (30_encoding.md R105 to R110, R118), the result word (R112, R113), and the step that executes a word
written to CMD (R105). -/

namespace Sys2Proof.Machine

/-! ### Decoding and encoding agree -/

/-- The command an OP names is well formed: LEN comes from a 16-bit field (R108). -/
theorem commandOf_wellFormed {op : BitVec 8} {imm : BitVec 16} {i : Instr} (h : commandOf op imm = some i) :
    i.WellFormed := by
  cases i with
  | txSend len =>
    obtain ⟨rfl, -, -⟩ := commandOf_fields h
    cases h
    exact imm.isLt
  | _ => trivial

/-- A word that decodes to a command carries a well-formed one. -/
theorem wellFormed_of_decode {v : Word} {i : Instr} (h : decode v = .command i) : i.WellFormed := by
  unfold decode at h
  split at h
  · cases h
  · next j hj =>
    split_ifs at h
    cases h
    exact commandOf_wellFormed hj

/-- The table of R107 names a well-formed command by its own OP and IMM. -/
theorem commandOf_opcode_immediate {i : Instr} (h : i.WellFormed) : commandOf (opcode i) (immediate i) = some i := by
  cases i with
  | txSend len => simp [commandOf, opcode, immediate, Nat.mod_eq_of_lt h]
  | _ => rfl

/-- The encoding of a well-formed command decodes to it (R106 to R109). -/
theorem decode_encode {i : Instr} (h : i.WellFormed) : decode (encode i) = .command i := by
  have hcommand := commandOf_opcode_immediate h
  obtain ⟨-, hplain, -⟩ := commandOf_fields hcommand
  obtain ⟨hop, hrsv, himm⟩ := fields_append (opcode i) (immediate i)
  simp only [decode, encode, hop, hrsv, himm, hcommand]
  rw [if_neg (not_not.2 rfl), if_neg fun hne => hne.2 (hplain hne.1)]

/-- A word decodes to a command exactly when the command is well formed and the word is its encoding (R106 to R110). -/
theorem decode_eq_command_iff {v : Word} {i : Instr} : decode v = .command i ↔ i.WellFormed ∧ encode i = v :=
  ⟨fun h => ⟨wellFormed_of_decode h, encode_of_decode h⟩, fun ⟨hwf, henc⟩ => henc ▸ decode_encode hwf⟩

/-- Settles O1: the fields of the encoding name the command in the table of R107, and the command names the word's fields. -/
theorem decodeEncodeAgree : Obligations.DecodeEncodeAgree := fun _ _ => decode_eq_command_iff

/-- The word of TX_SEND is its OP above LEN (R118). -/
theorem encode_txSend {len : Nat} (h : len < 65536) :
    encode (.txSend len) = 0x12000000#32 + BitVec.ofNat 32 len := by
  have henc : (encode (.txSend len)).toNat = 0x12000000 + len :=
    calc (encode (.txSend len)).toNat
      _ = (0x12#8 ++ 0#8).toNat <<< 16 ||| (BitVec.ofNat 16 len).toNat := BitVec.toNat_append _ _
      _ = 0x1200 <<< 16 ||| len := by rw [BitVec.toNat_ofNat, Nat.mod_eq_of_lt h]; rfl
      _ = 0x12000000 + len := (Nat.shiftLeft_add_eq_or_of_lt (i := 16) h 0x1200).symm
  apply BitVec.eq_of_toNat_eq
  rw [henc, BitVec.toNat_add, BitVec.toNat_ofNat, BitVec.toNat_ofNat]
  omega

/-- Settles O2: the words written out are the commands' encodings, and those decode to the commands. -/
theorem commandWords : Obligations.CommandWords := by
  have key : ∀ {v : Word} {i : Instr}, i.WellFormed → encode i = v → decode v = .command i ∧ encode i = v :=
    fun hwf henc => ⟨decode_eq_command_iff.2 ⟨hwf, henc⟩, henc⟩
  refine ⟨fun p hp => ?_, fun len hlen => key hlen (encode_txSend hlen)⟩
  refine key ?_ ?_
  · revert p
    simp [Instr.WellFormed]
  · revert p
    decide

/-! ### The result word -/

/-- The fields of RES (R112). -/
theorem resultWord_fields (c : Code) (i v : Nat) :
    (resultWord c i v).extractLsb' 0 4 = codeBits c ∧ (resultWord c i v).extractLsb' 4 4 = 0#4 ∧
      (resultWord c i v).extractLsb' 8 8 = BitVec.ofNat 8 i ∧ (resultWord c i v).extractLsb' 16 16 = BitVec.ofNat 16 v := by
  refine ⟨BitVec.extractLsb'_append_eq_right, ?_, ?_, ?_⟩
  · exact (BitVec.extractLsb'_append_eq_of_le (by decide)).trans BitVec.extractLsb'_append_eq_right
  · exact (BitVec.extractLsb'_append_eq_of_le (by decide)).trans <|
      (BitVec.extractLsb'_append_eq_of_le (by decide)).trans BitVec.extractLsb'_append_eq_right
  · exact (BitVec.extractLsb'_append_eq_of_le (by decide)).trans <|
      (BitVec.extractLsb'_append_eq_of_le (by decide)).trans BitVec.extractLsb'_append_eq_left

/-- Settles O4: RES is put together from its fields, of which INDEX keeps 8 bits and VALUE 16. -/
theorem resultWordFields : Obligations.ResultWordFields := by
  refine ⟨fun c i v => ?_, fun s c i v a => ⟨rfl, rfl⟩, rfl, rfl, rfl, rfl, rfl, rfl, rfl, rfl⟩
  obtain ⟨hcode, hzero, hindex, hvalue⟩ := resultWord_fields c i v
  rw [hindex, hvalue, BitVec.toNat_ofNat, BitVec.toNat_ofNat]
  exact ⟨hcode, hzero, rfl, rfl⟩

/-! ### The step that executes a word -/

/-- A 32-bit write to CMD executes the word (R105). -/
theorem cpuWrite_cmd {s : State} (hc : configOk s.cfg = true) (v : Word) : cpuWrite s.cfg.dreBase .word v s = execWord v s := by
  obtain ⟨hin, hport⟩ := portWord_inside hc (k := 0) (by omega)
  rw [BitVec.add_zero] at hin hport
  simp [cpuWrite, hin, hport]

/-- A word written to CMD means its command (R105). -/
theorem execWord_command {v : Word} {i : Instr} (h : decode v = .command i) (s : State) : execWord v s = exec i s := by
  rw [execWord, h]

/-- An Illegal word written to CMD means Illegal's outcome (R109, R251). -/
theorem execWord_illegal {v : Word} {why : Illegal} (h : decode v = .illegal why) (s : State) :
    execWord v s = execIllegal s := by
  rw [execWord, h]

/-- A step whose next move is the CPU's write of a word to CMD executes the word, the touched bytes redrawn (R105, R69). -/
theorem step_commandMove {s : State} {v : Word} {rest : List Move} (hc : configOk s.cfg = true) (hfree : s.cpuFree)
    (h : s.agenda = commandMove s.cfg v :: rest) : step s = execWord v (State.redraw { s with agenda := rest }) :=
  (step_agenda hc h (.inr hfree)).trans <| (perform_write (by exact hfree) ..).trans <|
    cpuWrite_cmd (s := State.redraw { s with agenda := rest }) hc v

/-- Settles O5: the step executes the word as it decodes, and no command writes the agenda. -/
theorem stepRunsDecodedCommand : Obligations.StepRunsDecodedCommand := by
  intro s v rest hc hfree hagenda
  have hstep := step_commandMove hc hfree hagenda
  obtain ⟨t, ht, he⟩ := execWord_effect v (State.redraw { s with agenda := rest })
  exact ⟨fun i hi => hstep.trans (execWord_command hi _), fun why hwhy => hstep.trans (execWord_illegal hwhy _),
    redraw_of_no_fault (s := { s with agenda := rest }), t, hstep.trans ht, agenda_effect he⟩

/-- Settles O6: the word placed is the CPU's next write to CMD, by an agent that can step. -/
theorem placedWordRunsNext : Obligations.PlacedWordRunsNext := by
  intro s w hc hw
  have hplaced := step_commandMove (s := s.withFetchWord 32 w) hc ⟨rfl, rfl⟩ rfl
  rwa [tableWord, Nat.mod_eq_of_lt hw] at hplaced

end Sys2Proof.Machine
end

section
/-! PROOF. The fields of the descriptor words (30_encoding.md R90 to R97), the linkage they give (R100), and the process states
(R103). -/

namespace Sys2Proof.Machine

/-! ### Validity of a received word 0 -/

/-- A word and a mask share a bit exactly when the word has one of the mask's bits. -/
theorem and_maskOf_ne_zero_iff (w : Word) (bits : List Nat) :
    w &&& maskOf bits ≠ 0#32 ↔ ∃ b ∈ bits, w.getLsbD b = true := by
  constructor
  · contrapose!
    intro h
    apply BitVec.eq_of_getLsbD_eq
    intro b hb
    rw [BitVec.getLsbD_and, getLsbD_maskOf bits hb, BitVec.getLsbD_zero]
    by_cases hmem : b ∈ bits
    · simp [h b hmem]
    · simp [hmem]
  · rintro ⟨b, hmem, hbit⟩ hzero
    have hb := BitVec.lt_of_getLsbD hbit
    have hand : (w &&& maskOf bits).getLsbD b = true := by
      rw [BitVec.getLsbD_and, hbit, getLsbD_maskOf bits hb, decide_eq_true hmem, Bool.and_self]
    simp [hzero] at hand

/-- RxValid is the conjunction of R143. -/
theorem rxValid_iff (c : Config) (w : Word) :
    rxValid c w = true ↔ frameError c w = false ∧ wholeFrame c w = true ∧ 1 ≤ frameLen c w ∧ frameLen c w ≤ c.cap := by
  simp [rxValid, and_assoc]

/-- A frame error is a bit of RX_ERR_MASK (R91). -/
theorem frameError_iff (c : Config) (w : Word) : frameError c w = true ↔ w &&& rxErrMask c ≠ 0#32 := by simp [frameError]

/-- A whole frame has FS and LS (R91). -/
theorem wholeFrame_iff (c : Config) (w : Word) :
    wholeFrame c w = true ↔ w.getLsbD c.layout.rx.firstSegment = true ∧ w.getLsbD c.layout.rx.lastSegment = true := by
  simp [wholeFrame]

/-- An OK outcome of RX_RECV_NEXT reports the length of a valid word 0 (R142). -/
theorem execRxRecvNext_ok {s t : State} (h : exec .rxRecvNext s = .next t) (hok : t.res.extractLsb' 0 4 = codeBits .ok) :
    ∃ w, rxValid s.cfg w = true ∧ t.res.extractLsb' 16 16 = BitVec.ofNat 16 (frameLen s.cfg w) := by
  have other : ∀ {u : State} {c : Code} {i v : Nat} {a : Addr}, codeBits c ≠ codeBits .ok → t ≠ u.finish c i v a := by
    rintro u c i v a hne rfl
    exact hne ((resultWord_fields c i v).1.symm.trans hok)
  simp only [exec, execRxRecvNext, replyCode_eq, reply_eq] at h
  split_ifs at h with hsr htok hown hvalid <;> cases h
  · exact absurd rfl (other (by decide))
  · exact absurd rfl (other (by decide))
  · exact absurd rfl (other (by decide))
  · exact ⟨_, hvalid, (resultWord_fields _ _ _).2.2.2⟩
  · exact absurd rfl (other (by decide))

/-- Settles O10: a frame error is a bit of the mask, and an OK outcome's length is that of a valid word. -/
theorem rxValidity : Obligations.RxValidity := by
  refine ⟨fun c w => ⟨rfl, (frameError_iff c w).trans (and_maskOf_ne_zero_iff w _), wholeFrame_iff c w, rxValid_iff c w⟩,
    fun c w hlayout => ?_, fun s t h hok => ?_⟩
  · obtain ⟨hmask, -⟩ := default_masks hlayout
    rw [frameError_iff, wholeFrame_iff, hmask, frameLen, fieldOf, hlayout]
    refine ⟨rfl, Iff.rfl, Iff.rfl, fun r => ?_⟩
    cases r <;> rw [ownBit, ownPos, hlayout] <;> rfl
  · obtain ⟨w, hvalid, hlen⟩ := execRxRecvNext_ok h hok
    obtain ⟨-, -, -, hcap⟩ := (rxValid_iff _ _).1 hvalid
    rw [hlen, BitVec.toNat_ofNat]
    exact (Nat.mod_le ..).trans hcap

/-! ### The linkage -/

section
variable {c : Config} (hl : layoutOk c = true)
include hl

/-- RCH is set in every Rx word 1, RER in that of the last entry only (R92, R94). -/
theorem rxW1_marks (i : Nat) :
    (rxW1 c i).getLsbD c.layout.rx.chained = true ∧
      (rxW1 c i).getLsbD c.layout.rx.ringEnd = decide (i + 1 = c.rx.length) := by
  obtain ⟨-, hword1, -, -, hcap, -, -⟩ := layout_parts hl
  obtain ⟨hlt, hnodup⟩ := (bitsOk_iff _).1 hword1
  simp only [rxWord1Bits, List.nodup_cons, List.mem_cons, not_or] at hnodup
  obtain ⟨⟨hne, hend⟩, -⟩ := hnodup
  have hb : c.layout.rx.ringEnd < 32 := hlt _ (by simp [rxWord1Bits])
  have hb' : c.layout.rx.chained < 32 := hlt _ (by simp [rxWord1Bits])
  simp only [rxW1, BitVec.getLsbD_or, getLsbD_bitMask _ hb, getLsbD_bitMask _ hb', getLsbD_fieldAt _ hcap hb]
  refine ⟨by simp, ?_⟩
  split_ifs with hlast <;> simp [hlast, hne, hend, getLsbD_bitMask _ hb]

/-- A control bit lies in the word. -/
theorem txControlBit_lt {b : Nat} (h : b ∈ txControlBits c) : b < 32 := by
  obtain ⟨-, -, hword0, -⟩ := layout_parts hl
  exact ((bitsOk_iff _).1 hword0).1 b (List.mem_cons_of_mem _ (List.mem_append_left _ h))

/-- TER is none of the bits a commit sets in every entry. -/
theorem txRingEnd_notMem_setBits : c.layout.tx.ringEnd ∉ txSetBits c := by
  obtain ⟨-, -, hword0, -⟩ := layout_parts hl
  have hnodup := ((bitsOk_iff _).1 hword0).2
  simp only [txWord0Bits, txControlBits, List.cons_append, List.nodup_cons, List.mem_append, not_or] at hnodup
  obtain ⟨-, ⟨⟨hset, -⟩, -⟩, -⟩ := hnodup
  exact hset

/-- A Tx word 0 with the control bits of TX_CTRL has TCH set, and TER in that of the last entry only (R95, R96). -/
theorem txW0_marks {i : Nat} {w : Word} (h : w &&& txKeepMask c = txCtrl c i) :
    w.getLsbD c.layout.tx.chained = true ∧ w.getLsbD c.layout.tx.ringEnd = decide (i + 1 = c.tx.length) := by
  have hbit : ∀ b ∈ txControlBits c, w.getLsbD b =
      (decide (b ∈ txSetBits c) || (decide (i + 1 = c.tx.length) && decide (b = c.layout.tx.ringEnd))) := by
    intro b hmem
    have hb := txControlBit_lt hl hmem
    rw [← getLsbD_txCtrl i hb, ← h, BitVec.getLsbD_and, txKeepMask, getLsbD_maskOf _ hb, decide_eq_true hmem, Bool.and_true]
  rw [hbit _ (by simp [txControlBits, txSetBits]), hbit _ (by simp [txControlBits])]
  exact ⟨by simp [txSetBits], by simp [txRingEnd_notMem_setBits hl]⟩

end

/-- The linkage leads from the last entry to the list base and from every other to word 3 (R100). -/
theorem linkedNext_of_marks {s : State} {r : Ring} {i : Nat} (hchain : s.chainMark r i = true)
    (hend : s.endMark r i = decide (i + 1 = ringSize s.cfg r)) (hbase : s.listBase r = descAddr s.cfg r 0)
    (hnext : s.desc r i 3 = descAddr s.cfg r (nextIndex s.cfg r i)) :
    s.linkedNext r i = some (descAddr s.cfg r (nextIndex s.cfg r i)) := by
  by_cases hlast : i + 1 = ringSize s.cfg r
  · rw [State.linkedNext, if_pos (by simpa [hend] using hlast), hbase, nextIndex, hlast, Nat.mod_self]
  · rw [State.linkedNext, if_neg (by simpa [hend] using hlast), if_pos hchain, hnext]

/-- Settles O31: the invariant gives every entry of a started ring the marks and the words 3 that the linkage reads. -/
theorem linkageIsCyclic : Obligations.LinkageIsCyclic := by
  intro s hinv
  have hl := layout_ok hinv.config
  obtain ⟨hrx, htx⟩ := hinv.links
  constructor
  · intro hsr i hi
    obtain ⟨hbase, hentries⟩ := hrx hsr
    obtain ⟨hword1, -, hword3⟩ := hentries i hi
    obtain ⟨hchain, hend⟩ := rxW1_marks hl i
    rw [← hword1] at hchain hend
    exact linkedNext_of_marks hchain hend hbase hword3
  · intro hst i hi
    obtain ⟨hbase, hentries⟩ := htx hst
    obtain ⟨-, -, hword3, hword0⟩ := hentries i hi
    obtain ⟨hchain, hend⟩ := txW0_marks hl hword0
    exact linkedNext_of_marks hchain hend hbase hword3

/-! ### The process states -/

/-- A process state the block produces on a ring that is or is not started, `suspended` being the process's suspended state
(R103, R201, R211). -/
def ProcessStateOk (started : Bool) (suspended ps : BitVec 3) : Prop :=
  if started then ps = psFetching ∨ ps = psHolding ∨ ps = suspended else ps = psStopped

theorem processOk_iff (s : State) :
    s.ProcessOk ↔ ProcessStateOk s.dmaomr.sr rpsSuspended s.dmasr.rps ∧ ProcessStateOk s.dmaomr.st tpsSuspended s.dmasr.tps :=
  Iff.rfl

/-- On a started ring a process may fetch. -/
theorem processStateOk_fetching {started : Bool} (h : started = true) (suspended : BitVec 3) :
    ProcessStateOk started suspended psFetching := by simp [ProcessStateOk, h]

/-- On a started ring a process that has read an owner holds the entry or is suspended (R202, R212). -/
theorem processStateOk_fetched {started : Bool} (h : started = true) (suspended : BitVec 3) (owned : Bool) :
    ProcessStateOk started suspended (fetched owned suspended) := by cases owned <;> simp [ProcessStateOk, fetched, h]

/-- A poll demand leaves RPS as it is, or fetching on a started ring (R220). -/
theorem processStateOk_rpsAfterPoll {s : State} (h : ProcessStateOk s.dmaomr.sr rpsSuspended s.dmasr.rps) :
    ProcessStateOk s.dmaomr.sr rpsSuspended (rpsAfterPoll s) := by
  unfold rpsAfterPoll
  split_ifs with hpoll
  · exact processStateOk_fetching hpoll.1 _
  · exact h

/-- A poll demand leaves TPS as it is, or fetching on a started ring (R221). -/
theorem processStateOk_tpsAfterPoll {s : State} (h : ProcessStateOk s.dmaomr.st tpsSuspended s.dmasr.tps) :
    ProcessStateOk s.dmaomr.st tpsSuspended (tpsAfterPoll s) := by
  unfold tpsAfterPoll
  split_ifs with hpoll
  · exact processStateOk_fetching hpoll.1 _
  · exact h

/-- With no race recorded every effect keeps the process states among those the block produces. -/
theorem processOk_effect {s t : State} (hf : s.faults = []) (he : Effect s t) (h : s.ProcessOk) : t.ProcessOk := by
  obtain ⟨hrps, htps⟩ := (processOk_iff s).1 h
  cases he
  case startRx =>
    rw [startRx_eq]
    exact ⟨processStateOk_fetching rfl _, htps⟩
  case startTx => exact ⟨hrps, processStateOk_fetching rfl _⟩
  case recycleRx =>
    rw [State.recycleRx, handBackRx_eq]
    exact ⟨processStateOk_rpsAfterPoll hrps, htps⟩
  case release =>
    rw [handBackRx_eq]
    exact ⟨processStateOk_rpsAfterPoll hrps, htps⟩
  case pollTx =>
    rw [writeDmatpdr_eq]
    exact ⟨hrps, processStateOk_tpsAfterPoll htps⟩
  case rxFetch hen _ =>
    obtain ⟨hsr, -⟩ : s.dmaomr.sr = true ∧ _ := by simpa [State.rxFetchEnabled] using hen
    exact ⟨processStateOk_fetched hsr _ _, htps⟩
  case rxDeposit hen _ =>
    obtain ⟨hsr, -⟩ : s.dmaomr.sr = true ∧ _ := by simpa [State.rxDepositEnabled] using hen
    exact ⟨processStateOk_fetching hsr _, htps⟩
  case txFetch hen _ =>
    obtain ⟨hst, -⟩ : s.dmaomr.st = true ∧ _ := by simpa [State.txFetchEnabled] using hen
    exact ⟨hrps, processStateOk_fetched hst _ _⟩
  case txClose hen _ =>
    obtain ⟨hst, -⟩ : s.dmaomr.st = true ∧ _ := by simpa [State.txCloseEnabled] using hen
    exact ⟨hrps, processStateOk_fetching hst _⟩
  case racedRx hraced => exact absurd hraced (by simp [raced_of_no_fault hf])
  case racedTx hraced => exact absurd hraced (by simp [raced_of_no_fault hf])
  case softReset => exact ⟨rfl, rfl⟩
  all_goals exact ⟨hrps, htps⟩

/-- Settles O45: a step that ends with no fault recorded is one effect of a state with none. -/
theorem stepKeepsProcessStates : Obligations.StepKeepsProcessStates := by
  intro s t hok h hf
  obtain ⟨-, hs, agenda, draws, he⟩ := step_effect_of_no_fault h hf
  exact processOk_effect (s := { s with agenda := agenda, draws := draws }) hs he hok

end Sys2Proof.Machine
end

section
/-! PROOF. The pseudo-instruction SEND (30_encoding.md R116, R117): its three commands and its writes to the open window, with no
fault recorded and so with nothing redrawn between them. -/

namespace Sys2Proof.Machine

/-! ### Lines of an assembler program -/

/-- A line that goes on is followed by the next. -/
theorem andThen_next (s : State) (f : State → Result) : andThen (.next s) f = f s := rfl

/-- The configuration is well formed, no fault is recorded, and the CPU agent can step. -/
structure State.Issuing (s : State) : Prop where
  config : configOk s.cfg = true
  faults : s.faults = []
  free : s.cpuFree

/-- None of it is in the fields that an access to the window or a command of SEND writes. -/
theorem State.Issuing.congr {s t : State} (h : s.Issuing) (hcfg : t.cfg = s.cfg) (hfaults : t.faults = s.faults)
    (hboot : t.boot = s.boot) (hstuck : t.cpuStuck = s.cpuStuck) : t.Issuing :=
  ⟨hcfg ▸ h.config, hfaults.trans h.faults, hboot.trans h.free.1, hstuck.trans h.free.2⟩

/-- With no fault recorded an access is a step on the state as it is (log 18). -/
theorem State.Issuing.cpuStep_write {s : State} (h : s.Issuing) (a : Addr) (w : Width) (v : Word) :
    cpuStep (.write a w v) s = cpuWrite a w v s := by
  rw [cpuStep, redraw_of_no_fault h.faults]
  exact perform_write h.free a w v

/-- A command line executes its command (R105, R117). -/
theorem State.Issuing.runCommand_eq {s : State} (h : s.Issuing) {i : Instr} (hi : i.WellFormed) : runCommand i s = exec i s :=
  (h.cpuStep_write ..).trans ((cpuWrite_cmd h.config _).trans (execWord_command (decode_encode hi) s))

/-- The byte a WRITEBUF writes. -/
theorem wordBytes_take_byte (b : Byte) : (wordBytes (b.setWidth 32)).take Width.byte.bytes = [b] := by
  show [(b.setWidth 32).extractLsb' 0 8] = [b]
  rw [← BitVec.setWidth_eq_extractLsb' (by decide), BitVec.setWidth_setWidth_of_le _ (by decide), BitVec.setWidth_eq]

section
variable {s : State} {w : Window} (h : s.Issuing) (hw : s.txToken = some w) (hi : w.index < ringSize s.cfg .tx)
  (hl : w.len ≤ s.cfg.cap) {k : Nat}
include h hw hi hl

/-- WRITEBUF writes its byte to the buffer of the window's entry (R117). -/
theorem runWriteBuf_eq (hk : k < w.len) (b : Byte) :
    runWriteBuf k b s = .next { s with mem := Memory.put s.mem (bufAddr s.cfg .tx w.index + BitVec.ofNat 32 k).toNat b } := by
  have hk' : k + Width.byte.bytes ≤ w.len := hk
  have hbyte : s.windowByte .tx k = some (bufAddr s.cfg .tx w.index + BitVec.ofNat 32 k) := by
    simp [State.windowByte, hw, hk]
  obtain ⟨-, hin, hoff⟩ := windowAccess_inside h.config hi hl hk'
  simp only [runWriteBuf, hbyte, h.cpuStep_write,
    cpuWrite_plain _ hin hoff (txWindow_races_nothing h.config hw hi hl hk'), wordBytes_take_byte]
  rfl

/-- WRITEBUFs write their bytes to the buffer of the window's entry, from offset `k` (R117). -/
theorem runWriteBufs_eq {bs : List Byte} (hk : k + bs.length ≤ w.len) :
    runWriteBufs k bs s =
      .next { s with mem := Memory.putBytes s.mem (bufAddr s.cfg .tx w.index + BitVec.ofNat 32 k) bs } := by
  induction bs generalizing s k with
  | nil => rfl
  | cons b bs ih =>
    rw [List.length_cons] at hk
    have hrest := ih (k := k + 1)
      (s := { s with mem := Memory.put s.mem (bufAddr s.cfg .tx w.index + BitVec.ofNat 32 k).toNat b })
      (h.congr rfl rfl rfl rfl) hw hi hl (by omega)
    rw [← offset_add] at hrest
    rw [runWriteBufs, runWriteBuf_eq h hw hi hl (by omega), andThen_next]
    exact hrest

end

/-! ### The parts of SEND -/

/-- An OK outcome is read as OK (R112, R113). -/
theorem resultOk_finish (s : State) (i v : Nat) (a : Addr) : resultOk (s.finish .ok i v a) = true :=
  decide_eq_true (resultWord_fields .ok i v).1

/-- TX_SEND of a length that fits, on a CPU-owned entry with no window open, opens a window on it (R172). -/
theorem execTxSend_ok {s : State} {len : Nat} (hst : s.dmaomr.st = true) (htok : s.txToken = none) (hlen : len ≤ s.cfg.cap)
    (hown : s.ownedByDma .tx s.txNext = false) :
    exec (.txSend len) s = .next ((s.openTx len).finish .ok s.txNext len (bufAddr s.cfg .tx s.txNext)) := by
  simp [exec, execTxSend, hst, htok, lengthFits, hlen, hown]

/-- The state after SEND's TX_SEND and its WRITEBUFs. -/
def State.sendFilled (s : State) (bytes : List Byte) : State :=
  { (s.openTx bytes.length).finish .ok s.txNext bytes.length (bufAddr s.cfg .tx s.txNext) with
    mem := Memory.putBytes s.mem (bufAddr s.cfg .tx s.txNext) bytes }

/-- The state after TX_COMMIT of the window `w`, the result registers apart. -/
def State.committed (s : State) (w : Window) : State :=
  { s.commitTx w with txNext := nextIndex s.cfg .tx w.index, txToken := none }

/-- A commit writes memory, the Tx cursor and the window, and nothing else. -/
theorem committed_fields (s : State) (w : Window) :
    (s.committed w).cfg = s.cfg ∧ (s.committed w).faults = s.faults ∧ (s.committed w).boot = s.boot ∧
      (s.committed w).cpuStuck = s.cpuStuck ∧ (s.committed w).dmaomr = s.dmaomr ∧ (s.committed w).dmasr = s.dmasr := by
  simp [State.committed, State.commitTx]

/-- TX_COMMIT of an open window commits it (R175). -/
theorem execTxCommit_ok {s : State} {w : Window} (hw : s.txToken = some w) :
    exec .txCommit s = .next ((s.committed w).finish .ok w.index w.len 0#32) := by
  simp [exec, execTxCommit, hw, State.committed]

/-- TX_DEMAND_POLL polls (R177). -/
theorem execTxDemandPoll_ok (s : State) :
    exec .txDemandPoll s = .next ((s.setTps (tpsAfterPoll s)).finish .ok 0 0 0#32) := by
  rw [← writeDmatpdr_eq s 0#32]
  rfl

/-- The state after TX_COMMIT of the window `w` and TX_DEMAND_POLL. -/
def State.sent (s : State) (w : Window) : State := ((s.committed w).setTps (tpsAfterPoll s)).finish .ok 0 0 0#32

/-- TX_COMMIT and TX_DEMAND_POLL, one after the other (R175, R177). -/
theorem commit_poll_eq {s : State} {w : Window} (h : s.Issuing) (hw : s.txToken = some w) :
    andThen (runCommand .txCommit s) (runCommand .txDemandPoll) = .next (s.sent w) := by
  obtain ⟨hcfg, hfaults, hboot, hstuck, homr, hsr⟩ := committed_fields s w
  have hafter : State.Issuing ((s.committed w).finish .ok w.index w.len 0#32) := h.congr hcfg hfaults hboot hstuck
  have hpoll : tpsAfterPoll ((s.committed w).finish .ok w.index w.len 0#32) = tpsAfterPoll s := by
    simp [tpsAfterPoll, homr, hsr]
  rw [h.runCommand_eq (i := .txCommit) trivial, execTxCommit_ok hw, andThen_next,
    hafter.runCommand_eq (i := .txDemandPoll) trivial, execTxDemandPoll_ok, hpoll]
  rfl

/-- SEND opens the window, fills it, commits and polls (R116). -/
theorem runLine_send_eq {s : State} {bytes : List Byte} (h : s.Issuing) (hcur : s.txNext < ringSize s.cfg .tx)
    (hst : s.dmaomr.st = true) (htok : s.txToken = none) (hlen : bytes.length ≤ s.cfg.cap)
    (hown : s.ownedByDma .tx s.txNext = false) :
    runLine (.send bytes.length bytes) s =
      .next ((s.sendFilled bytes).sent { index := s.txNext, len := bytes.length }) := by
  have hwf : bytes.length < 65536 := by
    have := cap_le h.config
    omega
  have hopened : State.Issuing ((s.openTx bytes.length).finish .ok s.txNext bytes.length (bufAddr s.cfg .tx s.txNext)) :=
    h.congr rfl rfl rfl rfl
  have hfilled : (s.sendFilled bytes).Issuing := h.congr rfl rfl rfl rfl
  have hfill := runWriteBufs_eq hopened rfl hcur hlen (k := 0) (Nat.zero_add _).le
  rw [BitVec.add_zero] at hfill
  simp only [runLine, h.runCommand_eq (i := .txSend bytes.length) hwf, execTxSend_ok hst htok hlen hown, andThen_next,
    resultOk_finish, if_true, hfill]
  exact commit_poll_eq hfilled rfl

/-! ### What SEND leaves -/

/-- The window's opening and its WRITEBUFs write memory by the fill alone. -/
theorem sendFilled_fields (s : State) (bytes : List Byte) :
    (s.sendFilled bytes).cfg = s.cfg ∧
      (s.sendFilled bytes).mem = Memory.putBytes s.mem (bufAddr s.cfg .tx s.txNext) bytes ∧
      (s.sendFilled bytes).dmaomr = s.dmaomr :=
  ⟨rfl, rfl, rfl⟩

/-- Bytes written are read back (R66). -/
theorem bytesAt_putBytes {s : State} {m : Memory} {a : Addr} {bs : List Byte} (h : s.mem = Memory.putBytes m a bs)
    (ha : a.toNat + bs.length ≤ 2 ^ 32) : s.bytesAt a bs.length = bs := by
  refine List.ext_getElem (by simp [State.bytesAt]) fun k hk hk' => ?_
  simp only [State.bytesAt, List.getElem_map, List.getElem_range, byteAt_def, h]
  rw [get?_putBytes_inside m a bs k hk' ha, Option.getD_some]

/-- The commands that end SEND write memory by the commit alone, and registers by the commit and the poll. -/
theorem sent_fields (s : State) (w : Window) :
    (s.sent w).cfg = s.cfg ∧ (s.sent w).mem = (s.commitTx w).mem ∧ (s.sent w).txNext = nextIndex s.cfg .tx w.index ∧
      (s.sent w).txToken = none ∧ (s.sent w).dmasr.tps = tpsAfterPoll s := by
  simp [State.sent, State.committed]

section
variable {s : State} (hc : configOk s.cfg = true) {w : Window} (hw : w.index < ringSize s.cfg .tx)
include hc hw

/-- The entry committed is DMA's, its word 1 the window's length (R175). -/
theorem sent_entry : (s.sent w).ownedByDma .tx w.index = true ∧ (s.sent w).desc .tx w.index 1 = txW1 s.cfg w.len := by
  obtain ⟨hcfg, hmem, -⟩ := sent_fields s w
  obtain ⟨hword0, hword1, -⟩ := commitTx_desc hc w hw
  rw [State.ownedByDma, desc_congr hmem (hcfg.trans (commitTx_cfg s w).symm), hword0, hword1, hcfg]
  exact ⟨own_commit (layout_ok hc) _, rfl⟩

/-- The commands that end SEND leave the bytes of every buffer (R175). -/
theorem sent_bytesAt {r : Ring} {i n : Nat} (hi : i < ringSize s.cfg r) (hn : n ≤ s.cfg.cap) :
    (s.sent w).bytesAt (bufAddr s.cfg r i) n = s.bytesAt (bufAddr s.cfg r i) n := by
  obtain ⟨-, hmem, -⟩ := sent_fields s w
  refine List.map_congr_left fun k hk => ?_
  have hk := List.mem_range.1 hk
  have hout := outsideDescs_of_buffer hc (q := .tx) hi (k := k) (by omega) w.index hw
  rw [byteAt_congr hmem]
  exact (byteAt_setDesc_outside (s := s.setDesc .tx w.index 1 (txW1 s.cfg w.len)) hc hw (k := 0) (by omega) _ _
    (by simp only [setDesc_fields]; omega)).trans (byteAt_setDesc_outside hc hw (k := 1) (by omega) _ _ (by omega))

end

/-- After a poll demand on a started ring the transmit process is not suspended (R221). -/
theorem tpsAfterPoll_ne_suspended {s : State} (h : s.dmaomr.st = true) : tpsAfterPoll s ≠ tpsSuspended := by
  unfold tpsAfterPoll
  split_ifs with hpoll
  · decide
  · exact fun hsusp => hpoll ⟨h, hsusp⟩

/-- Settles O59: the fill writes the buffer, which the commit leaves, and the commit writes words 1 and 0. -/
theorem sendPseudoInstruction : Obligations.SendPseudoInstruction := by
  intro s bytes hinv hf hfree hst htok hlen hown
  obtain ⟨-, -, hcur, -⟩ := hinv.cursors
  obtain ⟨-, hbuf⟩ := buf_bounds hinv.config hcur
  have hend : (bufAddr s.cfg .tx s.txNext).toNat + bytes.length ≤ 2 ^ 32 := by omega
  obtain ⟨hcfg, hmem, homr⟩ := sendFilled_fields s bytes
  obtain ⟨-, -, hnext, hclosed, htps⟩ := sent_fields (s.sendFilled bytes) { index := s.txNext, len := bytes.length }
  rw [← hcfg] at hcur hlen ⊢
  have hc : configOk (s.sendFilled bytes).cfg = true := hinv.config
  obtain ⟨howned, hword1⟩ := sent_entry hc (w := { index := s.txNext, len := bytes.length }) hcur
  refine ⟨_, runLine_send_eq ⟨hinv.config, hf, hfree⟩ hcur hst htok hlen hown, howned, hword1, ?_, hnext, hclosed, ?_⟩
  · rw [sent_bytesAt hc hcur hcur hlen]
    exact bytesAt_putBytes hmem (hcfg ▸ hend)
  · rw [htps]
    exact tpsAfterPoll_ne_suspended (homr.symm ▸ hst)

end Sys2Proof.Machine
end

section
/-! PROOF. The receive ring commands (40_rx_ring.md): each outcome of RX_START, RX_RECV_NEXT and RX_RELEASE with its whole
effect, and the reports of both rings. -/

namespace Sys2Proof.Machine

/-- `finish` gives the outcome it is called with. -/
theorem hasResult_finish (s : State) (c : Code) (i v : Nat) (a : Addr) : HasResult (s.finish c i v a) c i v a :=
  ⟨rfl, rfl, rfl⟩

/-- RX_W0_DMA in the default layout (R94). -/
theorem rxW0Dma_default {c : Config} (h : c.layout = DescLayout.default) : rxW0Dma c = 0x80000000#32 := by
  obtain ⟨-, -, -, -, hword, -⟩ := default_masks h
  exact hword

/-- An entry whose word 0 is RX_W0_DMA is DMA's (R39, R94). -/
theorem ownedByDma_of_rxW0Dma {s t : State} (hc : configOk s.cfg = true) (hcfg : t.cfg = s.cfg) {i : Nat}
    (h : t.desc .rx i 0 = rxW0Dma s.cfg) : t.ownedByDma .rx i = true := by
  rw [State.ownedByDma, h, hcfg, own_rxW0Dma (layout_ok hc)]

/-! ### RX_START -/

theorem execRxStart_started {s : State} (h : s.dmaomr.sr = true) : exec .rxStart s = .next (s.finish .state 0 0 0#32) := by
  simp [exec, execRxStart, h]

theorem execRxStart_ok {s : State} (h : s.dmaomr.sr = false) : exec .rxStart s = .next (s.startRx.finish .ok 0 0 0#32) := by
  simp [exec, execRxStart, h]

/-- RX_W1 of an entry of the ring in the default layout (R94). -/
theorem rxW1_default {c : Config} (h : c.layout = DescLayout.default) {i : Nat} (hi : i < ringSize c .rx) :
    rxW1 c i = 0x00004000#32 ||| BitVec.ofNat 32 c.cap |||
      (if i = ringSize c .rx - 1 then 0x00008000#32 else 0#32) := by
  have hlast : i = ringSize c .rx - 1 ↔ i + 1 = c.rx.length := by
    simp only [ringSize, ringOf] at hi ⊢
    omega
  rw [(default_words h).1 i]
  simp only [hlast]

/-- Settles O9: a ring not started gets the words of R140, and the poll that ends RX_START finds the process fetching. -/
theorem rxStartLinksTheRing : Obligations.RxStartLinksTheRing := by
  refine ⟨decode_encode (i := .rxStart) trivial, fun s hsr => ⟨_, execRxStart_started hsr, rfl⟩, fun s hc hsr =>
    ⟨_, execRxStart_ok hsr, hasResult_finish .., fun i hi => ?_, fun x hx => startRx_byteAt hc x hx, ?_⟩⟩
  · obtain ⟨hword0, hword1, hword2, hword3⟩ := startRx_desc hc hi
    refine ⟨hword0, ownedByDma_of_rxW0Dma (t := s.startRx) hc (startRx_cfg s) hword0, hword1, fun hlayout => ⟨?_, ?_⟩,
      hword2, hword3⟩
    · exact hword0.trans (rxW0Dma_default hlayout)
    · exact hword1.trans (rxW1_default hlayout hi)
  · rw [startRx_eq]
    rfl

/-! ### Handing an entry back -/

/-- Handing an Rx entry back writes its word 0 only (R144, R147). -/
theorem handBackRx_sameOutside {s : State} (hc : configOk s.cfg = true) {j : Nat} (hj : j < ringSize s.cfg .rx) :
    SameOutside s (s.handBackRx j) (descAddr s.cfg .rx j).toNat 4 := by
  intro x hx
  have hmem : (s.handBackRx j).mem = (s.setDesc .rx j 0 (rxW0Dma s.cfg)).mem := handBackRx_mem s j
  rw [byteAt_congr hmem]
  exact byteAt_setDesc_outside hc hj (k := 0) (by omega) _ x hx

/-- Handing an Rx entry back makes it DMA's (R144, R147). -/
theorem handBackRx_owned {s : State} (hc : configOk s.cfg = true) {j : Nat} (hj : j < ringSize s.cfg .rx) :
    (s.handBackRx j).ownedByDma .rx j = true :=
  ownedByDma_of_rxW0Dma hc (handBackRx_cfg s j) (handBack_desc hc j hj).1

/-- On a started ring a poll demand un-parks a suspended process (R220). -/
theorem rpsAfterPoll_of_started {s : State} (h : s.dmaomr.sr = true) :
    rpsAfterPoll s = if s.dmasr.rps = rpsSuspended then psFetching else s.dmasr.rps := by
  simp [rpsAfterPoll, h]

/-! ### RX_RECV_NEXT -/

theorem execRxRecvNext_state {s : State} (h : s.dmaomr.sr = false) :
    exec .rxRecvNext s = .next (s.finish .state 0 0 0#32) := by
  simp [exec, execRxRecvNext, h]

section
variable {s : State} (hsr : s.dmaomr.sr = true)
include hsr

theorem execRxRecvNext_busy (h : s.rxToken ≠ none) : exec .rxRecvNext s = .next (s.finish .busy 0 0 0#32) := by
  simp [exec, execRxRecvNext, hsr, Option.isSome_iff_ne_none.2 h]

variable (htok : s.rxToken = none)
include htok

theorem execRxRecvNext_wouldBlock (h : s.ownedByDma .rx s.rxNext = true) :
    exec .rxRecvNext s = .next (s.finish .wouldBlock 0 0 0#32) := by
  simp [exec, execRxRecvNext, hsr, htok, h]

variable (hown : s.ownedByDma .rx s.rxNext = false)
include hown

theorem execRxRecvNext_open (h : rxValid s.cfg (s.desc .rx s.rxNext 0) = true) :
    exec .rxRecvNext s =
      .next ((s.openRx (frameLen s.cfg (s.desc .rx s.rxNext 0))).finish .ok s.rxNext
        (frameLen s.cfg (s.desc .rx s.rxNext 0)) (bufAddr s.cfg .rx s.rxNext)) := by
  simp [exec, execRxRecvNext, hsr, htok, hown, h]

theorem execRxRecvNext_corrupted (h : rxValid s.cfg (s.desc .rx s.rxNext 0) = false) :
    exec .rxRecvNext s = .next (s.recycleRx.finish .corrupted s.rxNext 0 0#32) := by
  simp [exec, execRxRecvNext, hsr, htok, hown, h]

end

/-- Settles O11: the branches of RX_RECV_NEXT in its order; a corrupted entry is handed back by a word-0 write and a poll. -/
theorem rxRecvNextOutcomes : Obligations.RxRecvNextOutcomes := by
  refine ⟨decode_encode (i := .rxRecvNext) trivial, fun s hsr => ⟨_, execRxRecvNext_state hsr, rfl⟩,
    fun s hsr htok => ⟨_, execRxRecvNext_busy hsr htok, rfl⟩,
    fun s hsr htok hown => ⟨_, execRxRecvNext_wouldBlock hsr htok hown, rfl⟩, ?_, ?_⟩
  · rintro s w0 hsr htok rfl hown hvalid
    exact ⟨_, execRxRecvNext_open hsr htok hown hvalid, hasResult_finish .., rfl⟩
  · rintro s w0 hc hcur hsr htok rfl hown hvalid
    have hword0 := (handBack_desc hc _ hcur).1
    refine ⟨_, execRxRecvNext_corrupted hsr htok hown hvalid, hasResult_finish .., hword0, handBackRx_owned hc hcur,
      fun hlayout => hword0.trans (rxW0Dma_default hlayout), handBackRx_sameOutside hc hcur, ?_⟩
    rw [State.recycleRx, handBackRx_eq, rpsAfterPoll_of_started hsr]
    rfl

/-! ### RX_RELEASE -/

theorem execRxRelease_noToken {s : State} (h : s.rxToken = none) :
    exec .rxRelease s = .next (s.finish .noToken 0 0 0#32) := by
  simp [exec, execRxRelease, h]

theorem execRxRelease_ok {s : State} {w : Window} (h : s.rxToken = some w) :
    exec .rxRelease s = .next (State.finish { s.handBackRx w.index with rxToken := none } .ok w.index 0 0#32) := by
  simp [exec, execRxRelease, h]

/-- Settles O12: the window's entry is handed back by a word-0 write and a poll demand. -/
theorem rxReleaseHandsBack : Obligations.RxReleaseHandsBack := by
  refine ⟨decode_encode (i := .rxRelease) trivial, fun s w hc htok hw => ?_,
    fun s htok => ⟨_, execRxRelease_noToken htok, rfl⟩⟩
  have hword0 := (handBack_desc hc _ hw).1
  refine ⟨_, execRxRelease_ok htok, hasResult_finish .., hword0, handBackRx_owned hc hw,
    fun hlayout => hword0.trans (rxW0Dma_default hlayout), handBackRx_sameOutside hc hw, ?_⟩
  rw [handBackRx_eq]
  rfl

/-! ### The reports -/

/-- RX_RUNNING_STATE's RES for each value of RPS, 0 to 7 (R103, R115). -/
theorem rxRunningState_words (rps : BitVec 3) :
    [0x00000000#32, 0x00010000#32, 0x00030000#32, 0x00010000#32, 0x00020000#32, 0x00010000#32, 0x00030000#32,
      0x00010000#32][rps.toNat]? = some (resultWord .ok 0 (runStateCode (rxRunState rps))) := by
  revert rps
  decide

/-- RX_IS_RUNNING's RES for each value of RPS, 0 to 7 (R103, R150). -/
theorem rxIsRunning_words (rps : BitVec 3) :
    [0x00000000#32, 0x00010000#32, 0x00000000#32, 0x00010000#32, 0x00000000#32, 0x00010000#32, 0x00000000#32,
      0x00010000#32][rps.toNat]? = some (resultWord .ok 0 (runningFlag (rxRunState rps))) := by
  revert rps
  decide

/-- TX_IS_RUNNING's RES for each value of TPS, 0 to 7 (R103, R179). -/
theorem txIsRunning_words (tps : BitVec 3) :
    [0x00000000#32, 0x00010000#32, 0x00010000#32, 0x00010000#32, 0x00000000#32, 0x00000000#32, 0x00000000#32,
      0x00010000#32][tps.toNat]? = some (resultWord .ok 0 (runningFlag (txRunState tps))) := by
  revert tps
  decide

/-- Settles O13: each report is the OK result that its process state's value gives. -/
theorem runningReports : Obligations.RunningReports := by
  refine ⟨decode_encode (i := .rxRunningState) trivial, decode_encode (i := .rxIsRunning) trivial,
    decode_encode (i := .txIsRunning) trivial, fun s => ⟨?_, ?_, ?_⟩⟩
  · exact ⟨_, rfl, rfl, rxRunningState_words s.dmasr.rps⟩
  · exact ⟨_, rfl, rfl, rxIsRunning_words s.dmasr.rps⟩
  · exact ⟨_, rfl, rfl, txIsRunning_words s.dmasr.tps⟩

end Sys2Proof.Machine
end

section
/-! PROOF. Every effect that ends with no fault recorded keeps the block's invariant: the cursors and windows (R30 to R35), the
links (R41), and the two rings (R230, R231), each of which is one run of entries with one owner, lengthened at its end and
shortened at its front. -/

namespace Sys2Proof.Machine

/-! ### When a DMA step is enabled (R201, R204, R211, R213) -/

theorem rxFetchEnabled_iff {s : State} : s.rxFetchEnabled = true ↔ s.dmaomr.sr = true ∧ s.dmasr.rps = psFetching := by
  simp [State.rxFetchEnabled]

theorem rxDepositEnabled_iff {s : State} : s.rxDepositEnabled = true ↔ s.dmaomr.sr = true ∧ s.dmasr.rps = psHolding := by
  simp [State.rxDepositEnabled]

theorem txFetchEnabled_iff {s : State} : s.txFetchEnabled = true ↔ s.dmaomr.st = true ∧ s.dmasr.tps = psFetching := by
  simp [State.txFetchEnabled]

theorem txCloseEnabled_iff {s : State} : s.txCloseEnabled = true ↔ s.dmaomr.st = true ∧ s.dmasr.tps = psHolding := by
  simp [State.txCloseEnabled]

/-! ### What the invariant gives the effects -/

/-- Word 2 of an entry of a started Rx ring is the address RX_DEPOSIT writes to: that of the entry's buffer (R41, R205). -/
theorem State.Inv.rxBuffer {s : State} (h : s.Inv) (hsr : s.dmaomr.sr = true) {i : Nat} (hi : i < ringSize s.cfg .rx) :
    s.desc .rx i 2 = bufAddr s.cfg .rx i := by
  obtain ⟨-, hlinks⟩ := h.links.1 hsr
  obtain ⟨-, hword2, -⟩ := hlinks i hi
  exact hword2

/-- The entry of an open window is one of its ring (R34, R35). -/
theorem State.Inv.rxWindow_lt {s : State} (h : s.Inv) {w : Window} (hw : s.rxToken = some w) :
    w.index < ringSize s.cfg .rx := by
  obtain ⟨-, -, -, -, hrx, -⟩ := h.cursors
  obtain ⟨-, hlt, -⟩ := hrx w hw
  exact hlt

theorem State.Inv.txWindow_lt {s : State} (h : s.Inv) {w : Window} (hw : s.txToken = some w) :
    w.index < ringSize s.cfg .tx := by
  obtain ⟨-, -, -, -, -, htx⟩ := h.cursors
  obtain ⟨-, hlt, -⟩ := htx w hw
  exact hlt

/-! ### What the memory-writing commands leave -/

/-- A commit writes memory only; what it writes is `commitTx_desc`'s. -/
theorem commitTx_eq (s : State) (w : Window) : ∃ m, s.commitTx w = { s with mem := m } := ⟨_, rfl⟩

/-- Handing an Rx entry back writes memory, and RPS; what it writes to memory is `handBack_desc`'s. -/
theorem handBackRx_eq_mem (s : State) (i : Nat) :
    ∃ m, s.handBackRx i = { s with mem := m, dmasr := { s.dmasr with rps := rpsAfterPoll s } } := by
  rw [handBackRx_eq]
  exact ⟨_, rfl⟩

/-! ### Cursors and windows -/

/-- With no race recorded every effect keeps the cursors and the windows in range. -/
theorem cursorsOk_effect {s t : State} (hc : configOk s.cfg = true) (hf : s.faults = []) (he : Effect s t) (h : s.CursorsOk) :
    t.CursorsOk := by
  obtain ⟨hrxn, hrxd, htxn, htxd, hrxw, htxw⟩ := id h
  have hrx0 : 0 < ringSize s.cfg .rx := ringSize_pos hc .rx
  have htx0 : 0 < ringSize s.cfg .tx := ringSize_pos hc .tx
  cases he
  case startRx =>
    rw [startRx_eq]
    exact ⟨hrx0, hrx0, htxn, htxd, nofun, htxw⟩
  case recycleRx =>
    obtain ⟨m, hm⟩ := handBackRx_eq_mem s s.rxNext
    rw [State.recycleRx, hm]
    exact ⟨nextIndex_lt hc _ _, hrxd, htxn, htxd, hrxw, htxw⟩
  case openRx hsr _ _ hvalid =>
    obtain ⟨-, -, hlo, hhi⟩ := (rxValid_iff _ _).1 hvalid
    refine ⟨nextIndex_lt hc _ _, hrxd, htxn, htxd, ?_, htxw⟩
    rintro w ⟨⟩
    exact ⟨hsr, hrxn, hlo, hhi⟩
  case release w _ =>
    obtain ⟨m, hm⟩ := handBackRx_eq_mem s w.index
    rw [hm]
    exact ⟨hrxn, hrxd, htxn, htxd, nofun, htxw⟩
  case startTx => exact ⟨hrxn, hrxd, htx0, htx0, hrxw, nofun⟩
  case openTx hst _ hlen _ =>
    refine ⟨hrxn, hrxd, htxn, htxd, hrxw, ?_⟩
    rintro w ⟨⟩
    exact ⟨hst, htxn, hlen⟩
  case commitTx w _ =>
    obtain ⟨m, hm⟩ := commitTx_eq s w
    rw [hm]
    exact ⟨hrxn, hrxd, nextIndex_lt hc _ _, htxd, hrxw, nofun⟩
  case pollTx =>
    rw [writeDmatpdr_eq]
    exact h
  case rxDeposit => exact ⟨hrxn, nextIndex_lt hc _ _, htxn, htxd, hrxw, htxw⟩
  case txClose => exact ⟨hrxn, hrxd, htxn, nextIndex_lt hc _ _, hrxw, htxw⟩
  case racedRx hraced => exact absurd hraced (by simp [raced_of_no_fault hf])
  case racedTx hraced => exact absurd hraced (by simp [raced_of_no_fault hf])
  case softReset => exact ⟨hrx0, hrx0, htx0, htx0, nofun, nofun⟩
  all_goals exact h

/-! ### The links -/

/-- An effect after which the Rx ring is started keeps the list base, or is RX_START (R140, R281). -/
theorem rxBase_effect {s t : State} (he : Effect s t) (ht : t.dmaomr.sr = true) :
    (s.dmaomr.sr = true ∧ t.dmardlar = s.dmardlar) ∨ t = s.startRx.finish .ok 0 0 0#32 := by
  cases he
  case startRx => exact .inr rfl
  case softReset => exact absurd ht (by simp)
  case recycleRx hsr _ _ _ =>
    rw [State.recycleRx, handBackRx_eq]
    exact .inl ⟨hsr, rfl⟩
  case release =>
    rw [handBackRx_eq] at ht ⊢
    exact .inl ⟨ht, rfl⟩
  case pollTx =>
    rw [writeDmatpdr_eq] at ht ⊢
    exact .inl ⟨ht, rfl⟩
  all_goals exact .inl ⟨ht, rfl⟩

/-- An effect after which the Tx ring is started keeps the list base, or is TX_START (R170, R281). -/
theorem txBase_effect {s t : State} (he : Effect s t) (ht : t.dmaomr.st = true) :
    (s.dmaomr.st = true ∧ t.dmatdlar = s.dmatdlar) ∨ t = s.startTx.finish .ok 0 0 0#32 := by
  cases he
  case startTx => exact .inr rfl
  case softReset => exact absurd ht (by simp)
  case startRx =>
    rw [startRx_eq] at ht ⊢
    exact .inl ⟨ht, rfl⟩
  case recycleRx =>
    rw [State.recycleRx, handBackRx_eq] at ht ⊢
    exact .inl ⟨ht, rfl⟩
  case release =>
    rw [handBackRx_eq] at ht ⊢
    exact .inl ⟨ht, rfl⟩
  case pollTx =>
    rw [writeDmatpdr_eq] at ht ⊢
    exact .inl ⟨ht, rfl⟩
  all_goals exact .inl ⟨ht, rfl⟩

/-- Words 0 and 1 of an entry are as TX_START and TX_COMMIT write them, OWN and the status apart: the control bits of word 0 and
a length up to CAP (R96, R97). -/
def State.TxControlOk (s : State) (i : Nat) : Prop :=
  (∃ len, len ≤ s.cfg.cap ∧ s.desc .tx i 1 = txW1 s.cfg len) ∧ s.desc .tx i 0 &&& txKeepMask s.cfg = txCtrl s.cfg i

/-- It is kept where words 0 and 1 are. -/
theorem State.TxControlOk.congr {s t : State} {i : Nat} (h : s.TxControlOk i) (hcfg : t.cfg = s.cfg)
    (hword0 : t.desc .tx i 0 = s.desc .tx i 0) (hword1 : t.desc .tx i 1 = s.desc .tx i 1) : t.TxControlOk i := by
  rw [State.TxControlOk, hcfg, hword0, hword1]
  exact h

/-- With no race recorded every effect on a started Tx ring keeps an entry's control bits and a length up to CAP. -/
theorem txControlOk_effect {s t : State} (hinv : s.Inv) (hs : s.faults = []) (he : Effect s t) (hf : t.faults = [])
    (hst : s.dmaomr.st = true) {i : Nat} (hi : i < ringSize s.cfg .tx) (h : s.TxControlOk i) : t.TxControlOk i := by
  obtain ⟨hrxn, hrxd, -, htxd, -, htxw⟩ := hinv.cursors
  have hc := hinv.config
  have kept : ∀ {u : State}, u.cfg = s.cfg → (∀ k, k < 4 → u.desc .tx i k = s.desc .tx i k) → u.TxControlOk i :=
    fun hcfg hdesc => h.congr hcfg (hdesc 0 (by omega)) (hdesc 1 (by omega))
  cases he
  case startRx => exact kept (u := s.startRx) (startRx_cfg s) fun k hk => start_other_rx hc hi hk
  case recycleRx =>
    obtain ⟨m, hm⟩ := handBackRx_eq_mem s s.rxNext
    have hdesc := (handBack_desc hc _ hrxn).2
    rw [hm] at hdesc
    rw [State.recycleRx, hm]
    exact kept rfl fun k hk => hdesc .tx i k hi hk (.inl (by decide))
  case release w hw =>
    obtain ⟨m, hm⟩ := handBackRx_eq_mem s w.index
    have hdesc := (handBack_desc hc _ (hinv.rxWindow_lt hw)).2
    rw [hm] at hdesc ⊢
    exact kept rfl fun k hk => hdesc .tx i k hi hk (.inl (by decide))
  case startTx hoff => exact absurd hst (by simp [hoff])
  case commitTx w hw =>
    obtain ⟨-, hw', hlen⟩ := htxw w hw
    obtain ⟨m, hm⟩ := commitTx_eq s w
    have hdesc := commitTx_desc hc w hw'
    rw [hm] at hdesc ⊢
    obtain ⟨hword0, hword1, hrest⟩ := hdesc
    by_cases hat : i = w.index
    · subst hat
      exact ⟨⟨w.len, hlen, hword1⟩, (congrArg (· &&& txKeepMask s.cfg) hword0).trans (txCtrl_own_keep (layout_ok hc) _)⟩
    · exact kept rfl fun k hk => hrest .tx i k hi hk (.inr (.inl hat))
  case pollTx =>
    rw [writeDmatpdr_eq]
    exact h
  case rxDeposit frame st hen _ =>
    obtain ⟨hsr, -⟩ := rxDepositEnabled_iff.1 hen
    exact kept rfl fun k hk => (rxDeposit_desc hc hrxd (hinv.rxBuffer hsr hrxd) frame st).2 .tx i k hi hk (.inl (by decide))
  case txClose st _ _ =>
    obtain ⟨hword0, hrest⟩ := txClose_desc hc htxd st
    obtain ⟨⟨len, hlen, hword1⟩, hctrl⟩ := h
    by_cases hat : i = s.txDma
    · subst hat
      refine ⟨⟨len, hlen, (hrest .tx _ 1 htxd (by omega) (.inr (.inr (by decide)))).trans hword1⟩, ?_⟩
      exact (congrArg (· &&& txKeepMask s.cfg) hword0).trans ((txClose_keep (layout_ok hc) _ _).trans hctrl)
    · exact kept rfl fun k hk => hrest .tx i k hi hk (.inr (.inl hat))
  case racedRx hraced => exact absurd hraced (by simp [raced_of_no_fault hs])
  case racedTx hraced => exact absurd hraced (by simp [raced_of_no_fault hs])
  case store a w v hin _ hrace => exact kept rfl fun k hk => store_desc hc hin hrace hi hk
  case raceWrite es hes => simp [hes] at hf
  all_goals exact h

/-- An effect that ends with no fault recorded keeps the links: a START writes them, and no other effect rewrites them. -/
theorem linksOk_effect {s t : State} (hinv : s.Inv) (hs : s.faults = []) (he : Effect s t) (hf : t.faults = []) :
    t.LinksOk := by
  have hc := hinv.config
  have hcfg := cfg_effect he
  constructor
  · intro ht
    rw [hcfg]
    rcases rxBase_effect he ht with ⟨hsr, hbase⟩ | rfl
    · obtain ⟨hbase', hlinks⟩ := hinv.links.1 hsr
      have word : ∀ i k, i < ringSize s.cfg .rx → 1 ≤ k → k < 4 → t.desc .rx i k = s.desc .rx i k :=
        fun i k hi => effect_linkWord hinv hs he hf (r := .rx) hsr hi
      refine ⟨hbase.trans hbase', fun i hi => ?_⟩
      rw [word i 1 hi (by omega) (by omega), word i 2 hi (by omega) (by omega), word i 3 hi (by omega) (by omega)]
      exact hlinks i hi
    · refine ⟨by rw [startRx_eq]; rfl, fun i hi => ?_⟩
      obtain ⟨-, hlinks⟩ := startRx_desc hc hi
      exact hlinks
  · intro ht
    rw [hcfg]
    rcases txBase_effect he ht with ⟨hst, hbase⟩ | rfl
    · obtain ⟨hbase', hlinks⟩ := hinv.links.2 hst
      refine ⟨hbase.trans hbase', fun i hi => ?_⟩
      obtain ⟨hword1, hword2, hword3, hword0⟩ := hlinks i hi
      have hcontrol := txControlOk_effect hinv hs he hf hst hi ⟨hword1, hword0⟩
      rw [State.TxControlOk, hcfg] at hcontrol
      refine ⟨hcontrol.1, ?_, ?_, hcontrol.2⟩
      · exact (effect_linkWord hinv hs he hf (r := .tx) hst hi (k := 2) (by decide) (by omega)).trans hword2
      · exact (effect_linkWord hinv hs he hf (r := .tx) hst hi (k := 3) (by decide) (by omega)).trans hword3
    · refine ⟨rfl, fun i hi => ?_⟩
      obtain ⟨hword0, hword1, hword2, hword3⟩ := startTx_desc hc hi
      refine ⟨⟨0, Nat.zero_le _, hword1.trans ?_⟩, hword2, hword3, ?_⟩
      · simp [txW1, fieldAt]
      · exact (congrArg (· &&& txKeepMask s.cfg) hword0).trans (txCtrl_keep _)

/-! ### Runs of entries with one owner -/

/-- Going round `N` entries from `start`, the first `len` and no others are those to which `own` gives `b`. -/
def OwnRun (N : Nat) (own : Nat → Bool) (b : Bool) (start len : Nat) : Prop :=
  ∀ k, k < N → (own ((start + k) % N) = b ↔ k < len)

section
variable {N start len : Nat} {own own' : Nat → Bool} {b : Bool}

theorem OwnRun.congr (h : OwnRun N own b start len) (hown : ∀ i, i < N → own' i = own i) : OwnRun N own' b start len := by
  intro k hk
  rw [hown _ (Nat.mod_lt _ (by omega))]
  exact h k hk

/-- The entry behind the run joins it. -/
theorem OwnRun.push (h : OwnRun N own b start len) (hlen : len < N) (hnew : own' ((start + len) % N) = b)
    (hrest : ∀ i, i < N → i ≠ (start + len) % N → own' i = own i) : OwnRun N own' b start (len + 1) := by
  intro k hk
  by_cases hat : k = len
  · simp [hat, hnew]
  · rw [hrest _ (Nat.mod_lt _ (by omega)) fun he => hat (mod_inj hk hlen he), h k hk]
    omega

/-- The first entry of the run leaves it. -/
theorem OwnRun.pop (h : OwnRun N own b start len) (hstart : start < N) (hpos : 1 ≤ len) (hlen : len ≤ N)
    (hnew : own' start = !b) (hrest : ∀ i, i < N → i ≠ start → own' i = own i) :
    OwnRun N own' b ((start + 1) % N) (len - 1) := by
  intro k hk
  rw [Nat.mod_add_mod, Nat.add_assoc, Nat.add_comm 1 k]
  by_cases hlast : k + 1 = N
  · rw [hlast, Nat.add_mod_right, Nat.mod_eq_of_lt hstart, hnew]
    exact iff_of_false (by simp) (by omega)
  · have hne : (start + (k + 1)) % N ≠ start := by
      intro he
      have := mod_inj (b := 0) (by omega) (by omega) (he.trans (Nat.mod_eq_of_lt hstart).symm)
      omega
    rw [hrest _ (Nat.mod_lt _ (by omega)) hne, h (k + 1) (by omega)]
    omega

/-- The first entry is in the run where the run has one. -/
theorem OwnRun.first_iff (h : OwnRun N own b start len) (hstart : start < N) : own start = b ↔ 1 ≤ len := by
  have hfirst := h 0 (by omega)
  rwa [Nat.add_zero, Nat.mod_eq_of_lt hstart] at hfirst

/-- The entry behind the run is not in it, unless the run goes all the way round. -/
theorem OwnRun.behind_iff (h : OwnRun N own b start len) (hstart : start < N) (hlen : len ≤ N) :
    own ((start + len) % N) = b ↔ len = N := by
  by_cases hfull : len = N
  · rw [hfull, Nat.add_mod_right, Nat.mod_eq_of_lt hstart, h.first_iff hstart]
    omega
  · rw [h len (by omega)]
    omega

end

/-- A process that has read an owner holds the entry if it is DMA's (R202, R212). -/
theorem fetched_eq_holding_iff {owned : Bool} {suspended : BitVec 3} (h : suspended ≠ psHolding) :
    fetched owned suspended = psHolding ↔ owned = true := by
  cases owned <;> simp [fetched, h]

/-- It is suspended if the entry is the CPU's (R202, R212). -/
theorem fetched_eq_suspended_iff {owned : Bool} {suspended : BitVec 3} (h : suspended ≠ psHolding) :
    fetched owned suspended = suspended ↔ owned = false := by
  cases owned <;> simp [fetched, h.symm]

/-! ### The Rx ring -/

/-- R230's CPU-owned entries are a run from the oldest. -/
theorem rxRingAt_run {s : State} {c : Nat} :
    (∀ k, k < ringSize s.cfg .rx → s.ownedByDma .rx ((s.rxOldest + k) % ringSize s.cfg .rx) = decide (c ≤ k)) ↔
      OwnRun (ringSize s.cfg .rx) (s.ownedByDma .rx) false s.rxOldest c := by
  refine forall₂_congr fun k _ => ?_
  cases s.ownedByDma .rx ((s.rxOldest + k) % ringSize s.cfg .rx) <;> simp

/-- The oldest entry not handed back is an entry of the ring. -/
theorem rxOldest_lt {s : State} (hnext : s.rxNext < ringSize s.cfg .rx) : s.rxOldest < ringSize s.cfg .rx := by
  unfold State.rxOldest
  split
  · exact Nat.mod_lt _ (by omega)
  · exact hnext

/-- With no window open the Rx cursor stands on the oldest entry (R230). -/
theorem rxOldest_of_none {s : State} (h : s.rxToken = none) : s.rxOldest = s.rxNext := by simp [State.rxOldest, h]

/-- With a window open the Rx cursor stands behind the oldest entry (R230). -/
theorem nextIndex_rxOldest {s : State} {w : Window} (h : s.rxToken = some w) (hnext : s.rxNext < ringSize s.cfg .rx) :
    nextIndex s.cfg .rx s.rxOldest = s.rxNext := by
  simp only [State.rxOldest, h]
  exact pred_succ hnext

/-- The result registers are no part of R230. -/
theorem finish_rxRing (s : State) (c : Code) (i v : Nat) (a : Addr) : (s.finish c i v a).RxRing = s.RxRing := rfl

/-- R230 speaks of these fields and of the owners only. -/
theorem State.RxRing.congr {s t : State} (h : s.RxRing) (hcfg : t.cfg = s.cfg) (hsr : t.dmaomr.sr = s.dmaomr.sr)
    (hrps : t.dmasr.rps = s.dmasr.rps) (hnext : t.rxNext = s.rxNext) (hdma : t.rxDma = s.rxDma)
    (htok : t.rxToken = s.rxToken)
    (hown : ∀ i, i < ringSize s.cfg .rx → t.ownedByDma .rx i = s.ownedByDma .rx i) : t.RxRing := by
  intro ht
  obtain ⟨c, hle, hrun, hrest⟩ := h (hsr.symm.trans ht)
  have hold : t.rxOldest = s.rxOldest := by simp only [State.rxOldest, htok, hnext, hcfg]
  refine ⟨c, ?_⟩
  rw [State.RxRingAt, rxRingAt_run, hcfg, hrps, hdma, htok, hold]
  exact ⟨hle, (rxRingAt_run.1 hrun).congr hown, hrest⟩

/-- Handing back the oldest entry, and stepping past it, shortens the run at its front (R145, R147). -/
theorem State.RxRingAt.handBack {s t : State} {c : Nat} (h : s.RxRingAt c) (hold : s.rxOldest < ringSize s.cfg .rx)
    (hpos : 1 ≤ c) (hcfg : t.cfg = s.cfg) (htok : t.rxToken = none) (hnext : t.rxNext = nextIndex s.cfg .rx s.rxOldest)
    (hdma : t.rxDma = s.rxDma) (hrps : t.dmasr.rps ≠ rpsSuspended) (hnew : t.ownedByDma .rx s.rxOldest = true)
    (hrest : ∀ i, i < ringSize s.cfg .rx → i ≠ s.rxOldest → t.ownedByDma .rx i = s.ownedByDma .rx i) :
    t.RxRingAt (c - 1) := by
  obtain ⟨hle, hrun, -, hbehind, -, -⟩ := h
  rw [State.RxRingAt, rxRingAt_run, rxOldest_of_none htok, hnext, hcfg, htok, hdma, hbehind]
  refine ⟨by omega, (rxRingAt_run.1 hrun).pop hold hpos hle hnew hrest, nofun, ?_, fun _ => by omega,
    fun hsusp => absurd hsusp hrps⟩
  rw [nextIndex, Nat.mod_add_mod, show s.rxOldest + 1 + (c - 1) = s.rxOldest + c by omega]

/-- A CPU-owned entry at the Rx cursor with no window open: at least one entry waits (R230). -/
theorem State.RxRingAt.pos {s : State} {c : Nat} (h : s.RxRingAt c) (hnext : s.rxNext < ringSize s.cfg .rx)
    (htok : s.rxToken = none) (hown : s.ownedByDma .rx s.rxNext = false) : 1 ≤ c := by
  obtain ⟨-, hrun, -⟩ := h
  have hfirst := (rxRingAt_run.1 hrun).first_iff (by rwa [rxOldest_of_none htok])
  rw [rxOldest_of_none htok] at hfirst
  exact hfirst.1 hown

/-- RX_RECV_NEXT that opens a window steps past the oldest entry and leaves the owners (R145). -/
theorem State.RxRingAt.openRx {s : State} {c : Nat} (h : s.RxRingAt c) (hnext : s.rxNext < ringSize s.cfg .rx)
    (htok : s.rxToken = none) (hown : s.ownedByDma .rx s.rxNext = false) (len : Nat) : (s.openRx len).RxRingAt c := by
  have hpos := h.pos hnext htok hown
  have hold : (s.openRx len).rxOldest = s.rxOldest := (succ_pred hnext).trans (rxOldest_of_none htok).symm
  obtain ⟨hle, hrun, -, hrest⟩ := h
  rw [State.RxRingAt, hold]
  refine ⟨hle, hrun, ?_, hrest⟩
  rintro w ⟨⟩
  exact ⟨(rxOldest_of_none htok).symm, hpos⟩

/-- RX_FETCH holds the entry behind the run, or finds the run all the way round (R202). -/
theorem State.RxRingAt.fetch {s : State} {c : Nat} (h : s.RxRingAt c) (hnext : s.rxNext < ringSize s.cfg .rx) :
    s.rxFetch.RxRingAt c := by
  obtain ⟨hle, hrun, hwindow, hbehind, -, -⟩ := h
  have hfull := (rxRingAt_run.1 hrun).behind_iff (rxOldest_lt hnext) hle
  rw [← hbehind] at hfull
  refine ⟨hle, hrun, hwindow, hbehind, fun hps => ?_, fun hps => ?_⟩
  · have hown := (fetched_eq_holding_iff (by decide)).1 hps
    refine lt_of_le_of_ne hle fun hall => ?_
    rw [hfull.2 hall] at hown
    cases hown
  · exact hfull.1 ((fetched_eq_suspended_iff (by decide)).1 hps)

/-- RX_DEPOSIT lengthens the run at its end (R205, R207). -/
theorem State.RxRingAt.deposit {s : State} {c : Nat} (hc : configOk s.cfg = true) (h : s.RxRingAt c)
    (hps : s.dmasr.rps = psHolding) (hd : s.rxDma < ringSize s.cfg .rx)
    (hl : s.desc .rx s.rxDma 2 = bufAddr s.cfg .rx s.rxDma) (frame : List Byte) (st : Word) :
    (s.rxDeposit frame st).RxRingAt (c + 1) := by
  obtain ⟨hle, hrun, hwindow, hbehind, hholding, -⟩ := h
  obtain ⟨hword0, hrest⟩ := rxDeposit_desc hc hd hl frame st
  have hlt := hholding hps
  rw [State.RxRingAt, rxRingAt_run]
  refine ⟨hlt, (rxRingAt_run.1 hrun).push hlt ?_ ?_, fun w hw => ⟨(hwindow w hw).1, by omega⟩, ?_, fun hfetch => ?_,
    fun hfetch => ?_⟩
  · show (s.rxDeposit frame st).ownedByDma .rx ((s.rxOldest + c) % ringSize s.cfg .rx) = false
    rw [← hbehind, State.ownedByDma, hword0]
    exact own_deposit (layout_ok hc) _ _
  · intro i hi hne
    exact owned_of_desc rfl (hrest .rx i 0 hi (by omega) (.inr (.inl (hbehind ▸ hne))))
  · show nextIndex s.cfg .rx s.rxDma = _
    rw [nextIndex, hbehind, Nat.mod_add_mod, Nat.add_assoc]
    rfl
  · exact absurd (show psFetching = psHolding from hfetch) (by decide)
  · exact absurd (show psFetching = rpsSuspended from hfetch) (by decide)

/-- After RX_START DMA owns every entry (R140). -/
theorem startRx_rxRingAt {s : State} (hc : configOk s.cfg = true) : s.startRx.RxRingAt 0 := by
  have hown : ∀ i, i < ringSize s.cfg .rx → s.startRx.ownedByDma .rx i = true := fun i hi =>
    ownedByDma_of_rxW0Dma hc (startRx_cfg s) (startRx_desc hc hi).1
  have hpos : 0 < ringSize s.cfg .rx := ringSize_pos hc .rx
  rw [State.RxRingAt, rxRingAt_run, startRx_cfg]
  refine ⟨Nat.zero_le _, fun k _ => ?_, ?_, ?_, ?_, ?_⟩
  · simp [hown _ (Nat.mod_lt _ hpos)]
  all_goals rw [startRx_eq]
  · exact nofun
  · exact (Nat.zero_mod _).symm
  · exact fun _ => hpos
  · exact fun hps => absurd (show psFetching = rpsSuspended from hps) (by decide)

/-- After a poll demand on a started ring the receive process is not suspended (R220). -/
theorem rpsAfterPoll_ne_suspended {s : State} (h : s.dmaomr.sr = true) : rpsAfterPoll s ≠ rpsSuspended := by
  rw [rpsAfterPoll_of_started h]
  split_ifs with hsusp
  · decide
  · exact hsusp

/-- An effect that ends with no fault recorded keeps the Rx ring invariant. -/
theorem rxRing_effect {s t : State} (hinv : s.Inv) (hs : s.faults = []) (he : Effect s t) (hf : t.faults = []) :
    t.RxRing := by
  obtain ⟨hrxn, hrxd, -, htxd, hrxw, -⟩ := hinv.cursors
  have hc := hinv.config
  have hring := hinv.rxRing
  have handBack : ∀ j, j < ringSize s.cfg .rx → ∀ i, i < ringSize s.cfg .rx → i ≠ j →
      (s.handBackRx j).ownedByDma .rx i = s.ownedByDma .rx i := fun j hj i hi hne =>
    owned_of_desc (handBackRx_cfg s j) ((handBack_desc hc j hj).2 .rx i 0 hi (by omega) (.inr (.inl hne)))
  cases he
  case startRx =>
    rw [finish_rxRing]
    exact fun _ => ⟨0, startRx_rxRingAt hc⟩
  case recycleRx hsr htok hown _ =>
    obtain ⟨c, h⟩ := hring hsr
    have hold := rxOldest_of_none htok
    refine fun _ => ⟨c - 1, h.handBack (rxOldest_lt hrxn) (h.pos hrxn htok hown) (recycleRx_cfg s) ?_ ?_
      ?_ ?_ ?_ ?_⟩
    · rw [State.recycleRx, handBackRx_eq]; exact htok
    · rw [hold]; rfl
    · rw [State.recycleRx, handBackRx_eq]; rfl
    · rw [State.recycleRx, handBackRx_eq]; exact rpsAfterPoll_ne_suspended hsr
    · rw [hold]; exact handBackRx_owned hc hrxn
    · rw [hold]; exact handBack _ hrxn
  case openRx hsr htok hown _ =>
    obtain ⟨c, h⟩ := hring hsr
    exact fun _ => ⟨c, h.openRx hrxn htok hown _⟩
  case release w hw =>
    obtain ⟨hsr, hlt, -, -⟩ := hrxw w hw
    obtain ⟨c, h⟩ := hring hsr
    obtain ⟨-, -, hwindow, -⟩ := id h
    obtain ⟨hindex, hpos⟩ := hwindow w hw
    refine fun _ => ⟨c - 1, h.handBack (rxOldest_lt hrxn) hpos (handBackRx_cfg ..) rfl ?_ ?_ ?_ ?_ ?_⟩
    · rw [nextIndex_rxOldest hw hrxn, handBackRx_eq]; rfl
    · rw [handBackRx_eq]; rfl
    · rw [handBackRx_eq]; exact rpsAfterPoll_ne_suspended hsr
    · rw [← hindex]; exact handBackRx_owned hc hlt
    · rw [← hindex]; exact handBack _ hlt
  case rxFetch hen _ =>
    obtain ⟨hsr, -⟩ := rxFetchEnabled_iff.1 hen
    obtain ⟨c, h⟩ := hring hsr
    exact fun _ => ⟨c, h.fetch hrxn⟩
  case rxDeposit frame st hen _ =>
    obtain ⟨hsr, hps⟩ := rxDepositEnabled_iff.1 hen
    obtain ⟨c, h⟩ := hring hsr
    exact fun _ => ⟨c + 1, h.deposit hc hps hrxd (hinv.rxBuffer hsr hrxd) frame st⟩
  case softReset => exact fun ht => absurd ht (by simp)
  case startTx =>
    exact hring.congr rfl rfl rfl rfl rfl rfl fun i hi => owned_of_desc (startTx_cfg s) (start_other_tx hc hi (by omega))
  case commitTx w hw =>
    obtain ⟨m, hm⟩ := commitTx_eq s w
    have hdesc := commitTx_desc hc w (hinv.txWindow_lt hw)
    rw [hm] at hdesc ⊢
    obtain ⟨-, -, hrest⟩ := hdesc
    exact hring.congr rfl rfl rfl rfl rfl rfl fun i hi => owned_of_desc rfl (hrest .rx i 0 hi (by omega) (.inl (by decide)))
  case txClose st _ _ =>
    exact hring.congr rfl rfl rfl rfl rfl rfl fun i hi => owned_of_desc (txClose_cfg s st)
      ((txClose_desc hc htxd st).2 .rx i 0 hi (by omega) (.inl (by decide)))
  case store a w v hin _ hrace =>
    exact hring.congr rfl rfl rfl rfl rfl rfl fun i hi => owned_of_desc rfl (store_desc hc hin hrace hi (by omega))
  case pollTx =>
    rw [writeDmatpdr_eq]
    exact hring
  case racedRx hraced => exact absurd hraced (by simp [raced_of_no_fault hs])
  case racedTx hraced => exact absurd hraced (by simp [raced_of_no_fault hs])
  case raceWrite es hes => simp [hes] at hf
  all_goals exact hring

/-! ### The Tx ring -/

/-- R231's DMA-owned entries are a run from the Tx DMA cursor. -/
theorem txRingAt_run {s : State} {p : Nat} :
    (∀ k, k < ringSize s.cfg .tx → s.ownedByDma .tx ((s.txDma + k) % ringSize s.cfg .tx) = decide (k < p)) ↔
      OwnRun (ringSize s.cfg .tx) (s.ownedByDma .tx) true s.txDma p := by
  refine forall₂_congr fun k _ => ?_
  cases s.ownedByDma .tx ((s.txDma + k) % ringSize s.cfg .tx) <;> simp

/-- The result registers are no part of R231. -/
theorem finish_txRing (s : State) (c : Code) (i v : Nat) (a : Addr) : (s.finish c i v a).TxRing = s.TxRing := rfl

/-- R231 speaks of these fields and of the owners only. -/
theorem State.TxRing.congr {s t : State} (h : s.TxRing) (hcfg : t.cfg = s.cfg) (hst : t.dmaomr.st = s.dmaomr.st)
    (htps : t.dmasr.tps = s.dmasr.tps) (hnext : t.txNext = s.txNext) (hdma : t.txDma = s.txDma) (htok : t.txToken = s.txToken)
    (hown : ∀ i, i < ringSize s.cfg .tx → t.ownedByDma .tx i = s.ownedByDma .tx i) : t.TxRing := by
  intro ht
  obtain ⟨p, hle, hrun, hrest⟩ := h (hst.symm.trans ht)
  refine ⟨p, ?_⟩
  rw [State.TxRingAt, txRingAt_run, hcfg, htps, hnext, hdma, htok]
  exact ⟨hle, (txRingAt_run.1 hrun).congr hown, hrest⟩

/-- After TX_START the CPU owns every entry (R170). -/
theorem startTx_txRingAt {s : State} (hc : configOk s.cfg = true) : s.startTx.TxRingAt 0 := by
  have hown : ∀ i, i < ringSize s.cfg .tx → s.startTx.ownedByDma .tx i = false := by
    intro i hi
    rw [State.ownedByDma, (startTx_desc hc hi).1]
    exact own_ctrl (layout_ok hc) i
  have hpos : 0 < ringSize s.cfg .tx := ringSize_pos hc .tx
  rw [State.TxRingAt, txRingAt_run]
  refine ⟨Nat.zero_le _, fun k _ => ?_, (Nat.zero_mod _).symm, nofun, fun hps => ?_⟩
  · have := hown _ (Nat.mod_lt (s.startTx.txDma + k) hpos)
    simp [this]
  · exact absurd (show psFetching = psHolding from hps) (by decide)

/-- TX_SEND opens a window on the entry behind the run, which is the CPU's (R172). -/
theorem State.TxRingAt.openTx {s : State} {p : Nat} (h : s.TxRingAt p) (hd : s.txDma < ringSize s.cfg .tx)
    (hown : s.ownedByDma .tx s.txNext = false) (len : Nat) : (s.openTx len).TxRingAt p := by
  obtain ⟨hle, hrun, hbehind, -, hholding⟩ := h
  have hfull := (txRingAt_run.1 hrun).behind_iff hd hle
  rw [← hbehind, hown] at hfull
  refine ⟨hle, hrun, hbehind, ?_, hholding⟩
  rintro w ⟨⟩
  have hne : p ≠ ringSize s.cfg .tx := fun he => Bool.false_ne_true (hfull.2 he)
  exact ⟨rfl, by show p < ringSize s.cfg .tx; omega⟩

/-- TX_COMMIT lengthens the run at its end (R175, R176). -/
theorem State.TxRingAt.commit {s : State} {p : Nat} {w : Window} (hc : configOk s.cfg = true) (h : s.TxRingAt p)
    (hw : s.txToken = some w) (hlt : w.index < ringSize s.cfg .tx) : (s.committed w).TxRingAt (p + 1) := by
  obtain ⟨hle, hrun, hbehind, hwindow, -⟩ := h
  obtain ⟨hindex, hroom⟩ := hwindow w hw
  obtain ⟨m, hm⟩ := commitTx_eq s w
  have hdesc := commitTx_desc hc w hlt
  rw [hm] at hdesc
  obtain ⟨hword0, -, hrest⟩ := hdesc
  rw [hbehind] at hindex
  rw [State.committed, hm, State.TxRingAt, txRingAt_run]
  refine ⟨hroom, (txRingAt_run.1 hrun).push hroom ?_ ?_, ?_, nofun, fun _ => by omega⟩
  · show State.ownedByDma { s with mem := m } .tx ((s.txDma + p) % ringSize s.cfg .tx) = true
    rw [← hindex, State.ownedByDma, hword0]
    exact own_commit (layout_ok hc) _
  · intro i hi hne
    exact owned_of_desc rfl (hrest .tx i 0 hi (by omega) (.inr (.inl (hindex ▸ hne))))
  · show nextIndex s.cfg .tx w.index = _
    rw [nextIndex, hindex, Nat.mod_add_mod, Nat.add_assoc]

/-- TX_CLOSE shortens the run at its front (R214, R217). -/
theorem State.TxRingAt.close {s : State} {p : Nat} (hc : configOk s.cfg = true) (h : s.TxRingAt p)
    (hps : s.dmasr.tps = psHolding) (hd : s.txDma < ringSize s.cfg .tx) (st : Word) : (s.txClose st).TxRingAt (p - 1) := by
  obtain ⟨hle, hrun, hbehind, hwindow, hholding⟩ := h
  obtain ⟨hword0, hrest⟩ := txClose_desc hc hd st
  have hpos := hholding hps
  rw [State.TxRingAt, txRingAt_run]
  refine ⟨(Nat.sub_le ..).trans hle, (txRingAt_run.1 hrun).pop hd hpos hle ?_ ?_, ?_, fun w hw => ?_, fun hfetch => ?_⟩
  · show (s.txClose st).ownedByDma .tx s.txDma = false
    rw [State.ownedByDma, hword0]
    exact own_close (layout_ok hc) _ _
  · intro i hi hne
    exact owned_of_desc rfl (hrest .tx i 0 hi (by omega) (.inr (.inl hne)))
  · show s.txNext = ((s.txDma + 1) % ringSize s.cfg .tx + (p - 1)) % ringSize s.cfg .tx
    rw [Nat.mod_add_mod, show s.txDma + 1 + (p - 1) = s.txDma + p by omega, hbehind]
  · obtain ⟨hindex, hroom⟩ := hwindow w hw
    exact ⟨hindex, (Nat.sub_le ..).trans_lt hroom⟩
  · exact absurd (show psFetching = psHolding from hfetch) (by decide)

/-- TX_FETCH holds the first entry of the run, if the run has one (R212). -/
theorem State.TxRingAt.fetch {s : State} {p : Nat} (h : s.TxRingAt p) (hd : s.txDma < ringSize s.cfg .tx) :
    s.txFetch.TxRingAt p := by
  obtain ⟨hle, hrun, hbehind, hwindow, -⟩ := h
  refine ⟨hle, hrun, hbehind, hwindow, fun hps => ((txRingAt_run.1 hrun).first_iff hd).1 ?_⟩
  exact (fetched_eq_holding_iff (by decide)).1 hps

/-- A poll demand starts a fetch or leaves the process as it is (R221). -/
theorem State.TxRingAt.poll {s : State} {p : Nat} (h : s.TxRingAt p) : (s.setTps (tpsAfterPoll s)).TxRingAt p := by
  obtain ⟨hle, hrun, hbehind, hwindow, hholding⟩ := h
  refine ⟨hle, hrun, hbehind, hwindow, fun hps => hholding ?_⟩
  simp only [setTps_fields, tpsAfterPoll] at hps
  split_ifs at hps
  · exact absurd hps (by decide)
  · exact hps

/-- An effect that ends with no fault recorded keeps the Tx ring invariant. -/
theorem txRing_effect {s t : State} (hinv : s.Inv) (hs : s.faults = []) (he : Effect s t) (hf : t.faults = []) :
    t.TxRing := by
  obtain ⟨hrxn, hrxd, -, htxd, -, htxw⟩ := hinv.cursors
  have hc := hinv.config
  have hring := hinv.txRing
  cases he
  case startTx =>
    rw [finish_txRing]
    exact fun _ => ⟨0, startTx_txRingAt hc⟩
  case openTx len hst _ _ hown =>
    obtain ⟨p, h⟩ := hring hst
    exact fun _ => ⟨p, h.openTx htxd hown len⟩
  case commitTx w hw =>
    obtain ⟨hst, hlt, -⟩ := htxw w hw
    obtain ⟨p, h⟩ := hring hst
    show ((s.committed w).finish .ok w.index w.len 0#32).TxRing
    rw [finish_txRing]
    exact fun _ => ⟨p + 1, h.commit hc hw hlt⟩
  case pollTx =>
    rw [writeDmatpdr_eq]
    exact fun hst => (hring hst).imp fun p => State.TxRingAt.poll
  case txFetch hen _ =>
    obtain ⟨hst, -⟩ := txFetchEnabled_iff.1 hen
    exact fun _ => (hring hst).imp fun p h => h.fetch htxd
  case txClose st hen _ =>
    obtain ⟨hst, hps⟩ := txCloseEnabled_iff.1 hen
    obtain ⟨p, h⟩ := hring hst
    exact fun _ => ⟨p - 1, h.close hc hps htxd st⟩
  case softReset => exact fun ht => absurd ht (by simp)
  case startRx =>
    have hown : ∀ i, i < ringSize s.cfg .tx → s.startRx.ownedByDma .tx i = s.ownedByDma .tx i := fun i hi =>
      owned_of_desc (startRx_cfg s) (start_other_rx hc hi (by omega))
    rw [startRx_eq] at hown ⊢
    exact hring.congr rfl rfl rfl rfl rfl rfl hown
  case recycleRx =>
    obtain ⟨m, hm⟩ := handBackRx_eq_mem s s.rxNext
    have hdesc := (handBack_desc hc _ hrxn).2
    rw [hm] at hdesc
    rw [State.recycleRx, hm]
    exact hring.congr rfl rfl rfl rfl rfl rfl fun i hi => owned_of_desc rfl (hdesc .tx i 0 hi (by omega) (.inl (by decide)))
  case release w hw =>
    obtain ⟨m, hm⟩ := handBackRx_eq_mem s w.index
    have hdesc := (handBack_desc hc _ (hinv.rxWindow_lt hw)).2
    rw [hm] at hdesc ⊢
    exact hring.congr rfl rfl rfl rfl rfl rfl fun i hi => owned_of_desc rfl (hdesc .tx i 0 hi (by omega) (.inl (by decide)))
  case rxDeposit frame st hen _ =>
    obtain ⟨hsr, -⟩ := rxDepositEnabled_iff.1 hen
    exact hring.congr rfl rfl rfl rfl rfl rfl fun i hi => owned_of_desc rfl
      ((rxDeposit_desc hc hrxd (hinv.rxBuffer hsr hrxd) frame st).2 .tx i 0 hi (by omega) (.inl (by decide)))
  case store a w v hin _ hrace =>
    exact hring.congr rfl rfl rfl rfl rfl rfl fun i hi => owned_of_desc rfl (store_desc hc hin hrace hi (by omega))
  case racedRx hraced => exact absurd hraced (by simp [raced_of_no_fault hs])
  case racedTx hraced => exact absurd hraced (by simp [raced_of_no_fault hs])
  case raceWrite es hes => simp [hes] at hf
  all_goals exact hring

/-! ### The invariant -/

/-- An effect that ends with no fault recorded keeps the block's invariant. -/
theorem inv_effect {s t : State} (hinv : s.Inv) (hs : s.faults = []) (he : Effect s t) (hf : t.faults = []) : t.Inv where
  config := by rw [cfg_effect he]; exact hinv.config
  process := processOk_effect hs he hinv.process
  cursors := cursorsOk_effect hinv.config hs he hinv.cursors
  links := linksOk_effect hinv hs he hf
  rxRing := rxRing_effect hinv hs he hf
  txRing := txRing_effect hinv hs he hf

/-- A step that ends with no fault recorded keeps the block's invariant. -/
theorem inv_step {s t : State} (hinv : s.Inv) (h : step s = .next t) (hf : t.faults = []) : t.Inv := by
  obtain ⟨-, hs, agenda, draws, he⟩ := step_effect_of_no_fault h hf
  exact inv_effect (hinv.with_agenda agenda draws) hs he hf

end Sys2Proof.Machine
end

section
/-! PROOF. A CPU-owned Rx entry keeps its bytes (R151, R225, R295), so that a deposited frame is the one RX_RECV_NEXT offers
(R142, R205). -/

namespace Sys2Proof.Machine

/-! ### The bytes of a CPU-owned Rx entry -/

/-- The result registers are no part of memory (R111). -/
theorem finish_ownedByDma (s : State) (c : Code) (i v : Nat) (a : Addr) : (s.finish c i v a).ownedByDma = s.ownedByDma := rfl

/-- The entry of an open Rx window is CPU-owned (R230). -/
theorem State.Inv.rxWindow_cpuOwned {s : State} (h : s.Inv) {w : Window} (hw : s.rxToken = some w) :
    s.ownedByDma .rx w.index = false := by
  obtain ⟨hrxn, -, -, -, hrx, -⟩ := h.cursors
  obtain ⟨c, -, hrun, hwindow, -⟩ := h.rxRing (hrx w hw).1
  obtain ⟨hindex, hpos⟩ := hwindow w hw
  rw [hindex]
  exact ((rxRingAt_run.1 hrun).first_iff (rxOldest_lt hrxn)).2 hpos

/-- A CPU write that races on nothing writes no byte of an Rx entry (R70, R294). -/
theorem store_byteAt_rxEntry {s : State} (hc : configOk s.cfg = true) {a : Addr} {w : Width} {v : Word}
    (hin : insideSpace a w = true) (hrace : s.racedEntries a w = []) {i : Nat} (hi : i < ringSize s.cfg .rx) {x : Addr}
    (hx : InEntry s.cfg .rx i x) :
    ({ s with mem := Memory.putBytes s.mem a ((wordBytes v).take w.bytes) } : State).byteAt x = s.byteAt x := by
  apply store_byte hin
  by_contra hn
  have hraces : RacesOn s .rx i x.toNat := ⟨hi, hx.imp_right fun hb => ⟨hb.1, hb.2, nofun⟩⟩
  have hnone := racedEntries_nil.1 hrace (x.toNat - a.toNat) (by omega)
  rw [show a.toNat + (x.toNat - a.toNat) = x.toNat by omega, (writeRace_iff hc).2 hraces] at hnone
  cases hnone

/-- No effect that ends with no fault recorded writes a buffer byte of a CPU-owned Rx entry, nor, where the entry stays
CPU-owned, a byte of its descriptor. -/
theorem effect_cpuOwnedRx_byteAt {s t : State} (hinv : s.Inv) (hs : s.faults = []) (he : Effect s t) (hf : t.faults = [])
    {i : Nat} (hi : i < ringSize s.cfg .rx) (hown : s.ownedByDma .rx i = false) {x : Addr} (hx : InEntry s.cfg .rx i x)
    (hkept : OutsideDescs s.cfg .rx x ∨ t.ownedByDma .rx i = false) : t.byteAt x = s.byteAt x := by
  obtain ⟨hrxn, hrxd, -, htxd, -, -⟩ := hinv.cursors
  have hc := hinv.config
  have htx : ∀ j, j < ringSize s.cfg .tx → ¬ InEntry s.cfg .tx j x := fun j hj hy =>
    absurd (inEntry_unique hc hi hj hx hy).1 (by decide)
  have handBack : ∀ j, j < ringSize s.cfg .rx → OutsideDescs s.cfg .rx x ∨ (s.handBackRx j).ownedByDma .rx i = false →
      (s.handBackRx j).byteAt x = s.byteAt x := by
    intro j hj hkept
    by_cases hat : j = i
    · subst hat
      have hout := hkept.resolve_right (by simp [handBackRx_owned hc hj]) j hj
      exact handBackRx_sameOutside hc hj x (by omega)
    · exact handBackRx_byteAt hc hj fun hy => hat (inEntry_unique hc hj hi hy hx).2
  cases he
  case startRx =>
    have hall : s.startRx.ownedByDma .rx i = true := ownedByDma_of_rxW0Dma hc (startRx_cfg s) (startRx_desc hc hi).1
    rw [finish_ownedByDma, hall] at hkept
    exact startRx_byteAt hc x (hkept.resolve_right (by decide))
  case startTx => exact startTx_byteAt hc x (outsideDescs_of_inEntry hc (by decide) hi hx)
  case recycleRx => exact handBack _ hrxn hkept
  case release w hw => exact handBack _ (hinv.rxWindow_lt hw) hkept
  case commitTx w hw => exact commitTx_byteAt hc w (hinv.txWindow_lt hw) (htx _ (hinv.txWindow_lt hw))
  case rxDeposit frame st hen _ =>
    obtain ⟨hsr, hps⟩ := rxDepositEnabled_iff.1 hen
    refine rxDeposit_byteAt hc hrxd (hinv.rxBuffer hsr hrxd) frame st fun hy => ?_
    obtain ⟨-, rfl⟩ := inEntry_unique hc hrxd hi hy hx
    exact Bool.false_ne_true (hown.symm.trans (hinv.rxDma_owned hsr hps))
  case txClose st _ _ => exact txClose_byteAt hc htxd st (htx _ htxd)
  case store a w v hin _ hrace => exact store_byteAt_rxEntry hc hin hrace hi hx
  case racedRx hraced => exact absurd hraced (by simp [raced_of_no_fault hs])
  case racedTx hraced => exact absurd hraced (by simp [raced_of_no_fault hs])
  case raceWrite es hes => simp [hes] at hf
  case pollTx =>
    rw [writeDmatpdr_eq]
    rfl
  all_goals rfl

/-- No step that ends with no fault recorded writes a byte that `effect_cpuOwnedRx_byteAt` keeps. -/
theorem step_cpuOwnedRx_byteAt {s t : State} (hinv : s.Inv) (h : step s = .next t) (hf : t.faults = []) {i : Nat}
    (hi : i < ringSize s.cfg .rx) (hown : s.ownedByDma .rx i = false) {x : Addr} (hx : InEntry s.cfg .rx i x)
    (hkept : OutsideDescs s.cfg .rx x ∨ t.ownedByDma .rx i = false) : t.byteAt x = s.byteAt x := by
  obtain ⟨-, hs, agenda, draws, he⟩ := step_effect_of_no_fault h hf
  exact effect_cpuOwnedRx_byteAt (hinv.with_agenda agenda draws) hs he hf hi hown hx hkept

/-- A byte of a buffer lies in its entry. -/
theorem inEntry_of_buffer {c : Config} (hc : configOk c = true) {r : Ring} {i k : Nat} (hi : i < ringSize c r)
    (hk : k < c.cap) : InEntry c r i (bufAddr c r i + BitVec.ofNat 32 k) := by
  have := bufByte_toNat hc hi hk
  exact .inr (by omega)

/-- Settles O52: the window's entry is CPU-owned, and its buffer lies outside the descriptors. -/
theorem openRxWindowIsStable : Obligations.OpenRxWindowIsStable := by
  intro s t w k hinv hw h hf _ hk
  have hi := hinv.rxWindow_lt hw
  exact step_cpuOwnedRx_byteAt hinv h hf hi (hinv.rxWindow_cpuOwned hw) (inEntry_of_buffer hinv.config hi hk)
    (.inl (outsideDescs_of_buffer hinv.config hi hk))

/-! ### An entry that stays CPU-owned -/

/-- A fault recorded before an effect or a step is recorded after it (R255). -/
theorem no_fault_before_effect {s t : State} (he : Effect s t) (hf : t.faults = []) : s.faults = [] := by
  obtain ⟨l, hl⟩ := faults_effect he
  exact (List.append_eq_nil_iff.1 (hl.symm.trans hf)).1

theorem no_fault_before_step {s t : State} (h : step s = .next t) (hf : t.faults = []) : s.faults = [] := by
  obtain ⟨l, hl⟩ := faults_step h
  exact (List.append_eq_nil_iff.1 (hl.symm.trans hf)).1

/-- A fault recorded along the way is recorded at the end (R255). -/
theorem OwnerKept.no_fault {r : Ring} {i : Nat} {dma : Bool} {s u : State} (h : OwnerKept r i dma s u) (hf : u.faults = []) :
    s.faults = [] := by
  induction h with
  | refl => exact hf
  | step _ hstep _ ih => exact ih (no_fault_before_step hstep hf)

/-- Through steps that leave an Rx entry with the CPU and record no fault, the entry keeps its bytes (R151, R225). -/
theorem OwnerKept.rxEntry_bytes {s u : State} (hinv : s.Inv) {i : Nat} (hi : i < ringSize s.cfg .rx)
    (h : OwnerKept .rx i false s u) (hf : u.faults = []) :
    u.Inv ∧ u.cfg = s.cfg ∧ u.ownedByDma .rx i = false ∧ ∀ x, InEntry s.cfg .rx i x → u.byteAt x = s.byteAt x := by
  induction h with
  | refl hown => exact ⟨hinv, rfl, hown, fun _ _ => rfl⟩
  | @step t u _ hstep hown ih =>
    obtain ⟨htinv, hcfg, htown, hbytes⟩ := ih (no_fault_before_step hstep hf)
    refine ⟨inv_step htinv hstep hf, (step_cfg hstep).trans hcfg, hown, fun x hx => ?_⟩
    rw [← hbytes x hx]
    rw [← hcfg] at hi hx
    exact step_cpuOwnedRx_byteAt htinv hstep hf hi htown hx (.inr hown)

section
variable {s t : State} (hc : configOk s.cfg = true) {r : Ring} {i : Nat} (hi : i < ringSize s.cfg r)
  (hbytes : ∀ x, InEntry s.cfg r i x → t.byteAt x = s.byteAt x)
include hc hi hbytes

/-- An entry whose bytes are as before has the descriptor and the buffer it had. -/
theorem desc_of_entry_bytes (hcfg : t.cfg = s.cfg) {k : Nat} (hk : k < 4) : t.desc r i k = s.desc r i k :=
  desc_of_bytes hc hcfg hi hk fun x h1 h2 => hbytes x (.inl (by omega))

theorem bytesAt_of_entry_bytes {n : Nat} (hn : n ≤ s.cfg.cap) :
    t.bytesAt (bufAddr s.cfg r i) n = s.bytesAt (bufAddr s.cfg r i) n :=
  List.map_congr_left fun _ hk => hbytes _ (inEntry_of_buffer hc hi ((List.mem_range.1 hk).trans_le hn))

end

/-! ### The word 0 of a deposit -/

section
variable {c : Config} (hl : layoutOk c = true)
include hl

/-- The bits of an Rx word 0 other than OWN are apart: status, FL, and FS and LS (R90, log 4). -/
theorem rxWord0_apart :
    (∀ b ∈ c.layout.rx.errors ++ c.layout.rx.drawn, b ∉ rangeBits c.layout.rx.frameLength) ∧
      ∀ b ∈ c.layout.rx.errors ++ c.layout.rx.drawn ++ rangeBits c.layout.rx.frameLength,
        b ∉ [c.layout.rx.firstSegment, c.layout.rx.lastSegment] := by
  have h := ((bitsOk_iff _).1 (layout_parts hl).1).2
  simp only [rxWord0Bits, List.nodup_cons, List.mem_cons, not_or] at h
  obtain ⟨-, ⟨-, hfirst⟩, hlast, hbits⟩ := h
  refine ⟨fun b hb hrange => List.disjoint_of_nodup_append hbits hb hrange, fun b hb => ?_⟩
  simp only [List.mem_cons, List.not_mem_nil, or_false, not_or]
  exact ⟨fun he => hfirst (he ▸ hb), fun he => hlast (he ▸ hb)⟩

/-- A bit of an Rx word 0 with a use lies in the word. -/
theorem rxWord0_bit_lt {b : Nat} (h : b ∈ rxWord0Bits c.layout.rx) : b < 32 :=
  ((bitsOk_iff _).1 (layout_parts hl).1).1 b h

omit hl in
/-- The bits of word 0 at a deposit (R205). -/
theorem getLsbD_rxDepositW0 (n : Nat) (st : Word) {b : Nat} (hb : b < 32) :
    (rxDepositW0 c n st).getLsbD b =
      (st.getLsbD b && decide (b ∈ c.layout.rx.errors ++ c.layout.rx.drawn) ||
        decide (b ∈ rangeBits c.layout.rx.frameLength) && (min n (flMax c)).testBit (b - c.layout.rx.frameLength.lo) ||
        decide (b ∈ [c.layout.rx.firstSegment, c.layout.rx.lastSegment])) := by
  have hv : min n (flMax c) < 2 ^ c.layout.rx.frameLength.width := by
    have := Nat.two_pow_pos c.layout.rx.frameLength.width
    unfold flMax
    omega
  simp only [rxDepositW0, rxDrawMask, BitVec.getLsbD_or, BitVec.getLsbD_and, getLsbD_maskOf _ hb, getLsbD_fieldAt _ hv hb]

/-- FL of a deposit of at most CAP bytes is their number (R205). -/
theorem frameLen_rxDepositW0 {n : Nat} (hn : n ≤ c.cap) (st : Word) : frameLen c (rxDepositW0 c n st) = n := by
  obtain ⟨-, -, -, -, -, -, hcap⟩ := layout_parts hl
  obtain ⟨hstatus, hsegment⟩ := rxWord0_apart hl
  have hmin : min n (flMax c) = n := by omega
  have hv : n < 2 ^ c.layout.rx.frameLength.width := by
    unfold flMax at hcap
    omega
  refine fieldOf_eq _ hv fun k hk => ?_
  have hmem : c.layout.rx.frameLength.lo + k ∈ rangeBits c.layout.rx.frameLength := mem_rangeBits.2 ⟨by omega, by omega⟩
  have hb := rxWord0_bit_lt hl (b := c.layout.rx.frameLength.lo + k) (by simp [rxWord0Bits, hmem])
  rw [getLsbD_rxDepositW0 n st hb, hmin, decide_eq_true hmem, decide_eq_false (hsegment _ (List.mem_append_right _ hmem)),
    decide_eq_false fun hs => hstatus _ hs hmem]
  simp

/-- A deposit is of a whole frame (R205). -/
theorem wholeFrame_rxDepositW0 (n : Nat) (st : Word) : wholeFrame c (rxDepositW0 c n st) = true := by
  have hfirst := rxWord0_bit_lt hl (b := c.layout.rx.firstSegment) (by simp [rxWord0Bits])
  have hlast := rxWord0_bit_lt hl (b := c.layout.rx.lastSegment) (by simp [rxWord0Bits])
  rw [wholeFrame_iff, getLsbD_rxDepositW0 n st hfirst, getLsbD_rxDepositW0 n st hlast]
  simp

/-- The error bits of a deposit are those of the status drawn (R205). -/
theorem frameError_rxDepositW0 (n : Nat) {st : Word} (hst : st &&& rxErrMask c = 0#32) :
    frameError c (rxDepositW0 c n st) = false := by
  obtain ⟨hstatus, hsegment⟩ := rxWord0_apart hl
  rw [← Bool.not_eq_true, frameError_iff, rxErrMask, and_maskOf_ne_zero_iff]
  rintro ⟨b, herr, hbit⟩
  have hmem : b ∈ c.layout.rx.errors ++ c.layout.rx.drawn := List.mem_append_left _ herr
  have hb := rxWord0_bit_lt hl (b := b) (by simp [rxWord0Bits, herr])
  rw [getLsbD_rxDepositW0 n st hb, decide_eq_false (hstatus b hmem),
    decide_eq_false (hsegment b (List.mem_append_left _ hmem))] at hbit
  simp only [Bool.false_and, Bool.or_false, Bool.and_eq_true] at hbit
  exact (and_maskOf_ne_zero_iff st _).2 ⟨b, herr, hbit.1⟩ hst

/-- A deposit of 1 to CAP bytes without an error bit is valid (R143, R205). -/
theorem rxValid_rxDepositW0 {n : Nat} (hpos : 1 ≤ n) (hn : n ≤ c.cap) {st : Word} (hst : st &&& rxErrMask c = 0#32) :
    rxValid c (rxDepositW0 c n st) = true := by
  rw [rxValid_iff, frameError_rxDepositW0 hl n hst, wholeFrame_rxDepositW0 hl, frameLen_rxDepositW0 hl hn]
  exact ⟨rfl, rfl, hpos, hn⟩

end

/-! ### A deposited frame is offered -/

/-- RX_DEPOSIT leaves the frame's bytes in the buffer of the entry at the DMA cursor (R205). -/
theorem rxDeposit_bytesAt {s : State} (hc : configOk s.cfg = true) (hd : s.rxDma < ringSize s.cfg .rx)
    (hl : s.desc .rx s.rxDma 2 = bufAddr s.cfg .rx s.rxDma) {frame : List Byte} (hlen : frame.length ≤ s.cfg.cap)
    (st : Word) : (s.rxDeposit frame st).bytesAt (bufAddr s.cfg .rx s.rxDma) frame.length = frame := by
  have hdesc := (desc_bounds hc hd).2
  have hbuf := (buf_bounds hc hd).2
  refine Eq.trans (List.map_congr_left fun k hk => ?_)
    (bytesAt_putBytes (s := { s with mem := Memory.putBytes s.mem (bufAddr s.cfg .rx s.rxDma) frame }) rfl (by omega))
  have hk := List.mem_range.1 hk
  have hout := outsideDescs_of_buffer hc (q := .rx) hd (k := k) (by omega) _ hd
  have ha := descWordAddr_toNat hc hd (k := 0) (by omega)
  apply byteAt_of_get?
  rw [rxDeposit_mem, hl, List.take_of_length_le hlen]
  exact get?_putBytes_outside _ _ _ _ (by rw [wordBytes_length]; omega) (by rw [wordBytes_length]; omega)

/-- An RX_DEPOSIT that is enabled, with no race recorded, deposits (R203, R205). -/
theorem dmaStep_rxDeposit {s : State} (hf : s.faults = []) (hen : s.rxDepositEnabled = true) (frame : List Byte) (st : Word) :
    dmaStep (.rxDeposit frame st) s = s.rxDeposit frame st := by
  rw [dmaStep, if_pos hen, rxStep_of_no_fault hf]

/-- Settles O56: the deposited entry keeps its word 0 and its buffer while it stays CPU-owned, and that word 0 is valid. -/
theorem receivedFrameIsOffered : Obligations.ReceivedFrameIsOffered := by
  intro s u frame st hinv hsr hps hst hpos hlen hkept hf husr hutok hunext
  obtain ⟨-, hd, -⟩ := hinv.cursors
  have hc := hinv.config
  have hl := layout_ok hc
  have hbuf := hinv.rxBuffer hsr hd
  have hen := rxDepositEnabled_iff.2 ⟨hsr, hps⟩
  have hs : s.faults = [] := no_fault_before_effect (dmaStep_effect ..) (hkept.no_fault hf)
  rw [dmaStep_rxDeposit hs hen] at hkept
  have hdeposited : (s.rxDeposit frame st).Inv := inv_effect hinv hs (.rxDeposit frame st hen (raced_of_no_fault hs ..)) hs
  obtain ⟨-, hcfg, hown, hbytes⟩ := hkept.rxEntry_bytes hdeposited hd hf
  have hword0 : u.desc .rx s.rxDma 0 = rxDepositW0 s.cfg frame.length st :=
    (desc_of_entry_bytes hdeposited.config hd hbytes hcfg (by omega)).trans (rxDeposit_desc hc hd hbuf frame st).1
  rw [rxDeposit_cfg] at hcfg
  have hexec := execRxRecvNext_open husr hutok (hunext ▸ hown)
    (by rw [hunext, hword0, hcfg]; exact rxValid_rxDepositW0 hl hpos hlen hst)
  rw [hunext, hword0, hcfg, frameLen_rxDepositW0 hl hlen] at hexec
  exact ⟨_, hexec, hasResult_finish .., congrArg (fun i => some (Window.mk i frame.length)) hunext,
    (bytesAt_of_entry_bytes hdeposited.config hd hbytes hlen).trans (rxDeposit_bytesAt hc hd hbuf hlen st)⟩

end Sys2Proof.Machine
end

section
/-! PROOF. The transmit ring commands (41_tx_ring.md): each outcome of TX_START, TX_SEND, TX_COMMIT and TX_DEMAND_POLL with its
whole effect. -/

namespace Sys2Proof.Machine

/-! ### TX_START -/

theorem execTxStart_started {s : State} (h : s.dmaomr.st = true) : exec .txStart s = .next (s.finish .state 0 0 0#32) := by
  simp [exec, execTxStart, h]

theorem execTxStart_ok {s : State} (h : s.dmaomr.st = false) : exec .txStart s = .next (s.startTx.finish .ok 0 0 0#32) := by
  simp [exec, execTxStart, h]

/-- TX_CTRL of an entry of the ring in the default layout (R96). -/
theorem txCtrl_default {c : Config} (h : c.layout = DescLayout.default) {i : Nat} (hi : i < ringSize c .tx) :
    txCtrl c i = if i = ringSize c .tx - 1 then 0x70300000#32 else 0x70100000#32 := by
  have hlast : i = ringSize c .tx - 1 ↔ i + 1 = c.tx.length := by
    simp only [ringSize, ringOf] at hi ⊢
    omega
  obtain ⟨-, hctrl, -⟩ := default_words h
  simp only [hctrl, hlast]

/-- Settles O14: a ring not started gets the words of R170, and the control word that it gives each entry has OWN = 0. -/
theorem txStartLinksTheRing : Obligations.TxStartLinksTheRing := by
  refine ⟨decode_encode (i := .txStart) trivial, fun s hst => ⟨_, execTxStart_started hst, rfl⟩, fun s hc hst =>
    ⟨_, execTxStart_ok hst, hasResult_finish .., fun i hi => ?_, fun x hx => startTx_byteAt hc x hx, rfl⟩⟩
  obtain ⟨hword0, hword1, hword2, hword3⟩ := startTx_desc hc hi
  have hown : s.startTx.ownedByDma .tx i = false := by
    rw [State.ownedByDma, hword0]
    exact own_ctrl (layout_ok hc) i
  exact ⟨hword0, fun hlayout => hword0.trans (txCtrl_default hlayout hi), hown, hword1, hword2, hword3⟩

/-! ### TX_SEND -/

theorem execTxSend_state {s : State} {len : Nat} (h : s.dmaomr.st = false) :
    exec (.txSend len) s = .next (s.finish .state 0 0 0#32) := by
  simp [exec, execTxSend, h]

section
variable {s : State} {len : Nat} (hst : s.dmaomr.st = true)
include hst

theorem execTxSend_busy (h : s.txToken ≠ none) : exec (.txSend len) s = .next (s.finish .busy 0 0 0#32) := by
  simp [exec, execTxSend, hst, Option.isSome_iff_ne_none.2 h]

variable (htok : s.txToken = none)
include htok

theorem execTxSend_tooLong (h : s.cfg.cap < len) : exec (.txSend len) s = .next (s.finish .tooLong 0 0 0#32) := by
  simp [exec, execTxSend, hst, htok, lengthFits, h]

theorem execTxSend_wouldBlock (hlen : len ≤ s.cfg.cap) (h : s.ownedByDma .tx s.txNext = true) :
    exec (.txSend len) s = .next (s.finish .wouldBlock 0 0 0#32) := by
  simp [exec, execTxSend, hst, htok, lengthFits, hlen, h]

end

/-- LEN lies below the OP of TX_SEND, so that adding it to the word is placing it there (R106). -/
theorem txSend_word_or {len : Nat} (h : len < 65536) :
    0x12000000#32 ||| BitVec.ofNat 32 len = 0x12000000#32 + BitVec.ofNat 32 len := by
  have hword : 0x12000000 ||| len = 0x12000000 + len := (Nat.shiftLeft_add_eq_or_of_lt (i := 16) h 0x1200).symm
  apply BitVec.eq_of_toNat_eq
  rw [BitVec.toNat_or, BitVec.toNat_add, BitVec.toNat_ofNat, BitVec.toNat_ofNat, Nat.mod_eq_of_lt (show len < 2 ^ 32 by omega)]
  exact hword.trans (Nat.mod_eq_of_lt (by omega)).symm

/-- Settles O15: the branches of TX_SEND in its order. -/
theorem txSendOutcomes : Obligations.TxSendOutcomes := fun _ _ =>
  ⟨fun hlen => decode_eq_command_iff.2 ⟨hlen, (encode_txSend hlen).trans (txSend_word_or hlen).symm⟩,
    fun hst => ⟨_, execTxSend_state hst, rfl⟩,
    fun hst htok => ⟨_, execTxSend_busy hst htok, rfl⟩,
    fun hst htok hlen => ⟨_, execTxSend_tooLong hst htok hlen, rfl⟩,
    fun hst htok hlen hown => ⟨_, execTxSend_wouldBlock hst htok hlen hown, rfl⟩,
    fun hst htok hlen hown => ⟨_, execTxSend_ok hst htok hlen hown, hasResult_finish .., rfl⟩⟩

/-! ### TX_COMMIT -/

theorem execTxCommit_noToken {s : State} (h : s.txToken = none) : exec .txCommit s = .next (s.finish .noToken 0 0 0#32) := by
  simp [exec, execTxCommit, h]

/-- TX_COMMIT writes words 0 and 1 of the window's entry only (R175). -/
theorem commitTx_sameOutside {s : State} (hc : configOk s.cfg = true) (w : Window) (hw : w.index < ringSize s.cfg .tx) :
    SameOutside s (s.commitTx w) (descAddr s.cfg .tx w.index).toNat 8 := fun x hx =>
  (byteAt_setDesc_outside (s := s.setDesc .tx w.index 1 (txW1 s.cfg w.len)) hc hw (k := 0) (by omega) _ x
    (by simp only [setDesc_fields]; omega)).trans (byteAt_setDesc_outside hc hw (k := 1) (by omega) _ x (by omega))

/-- The word 0 a commit writes in the default layout: TX_CTRL with OWN = 1 (R96, R175). -/
theorem txCtrl_own_default {c : Config} (h : c.layout = DescLayout.default) {i : Nat} (hi : i < ringSize c .tx) :
    txCtrl c i ||| txOwn c = if i = ringSize c .tx - 1 then 0xF0300000#32 else 0xF0100000#32 := by
  obtain ⟨-, -, -, -, -, hown, -⟩ := default_masks h
  rw [txCtrl_default h hi, hown]
  split <;> rfl

/-- Settles O16: a commit of the window's entry writes its words 1 and 0 and no other byte, and OWN is set in the latter. -/
theorem txCommitHandsOver : Obligations.TxCommitHandsOver := by
  refine ⟨decode_encode (i := .txCommit) trivial, fun s w hc htok hw => ?_,
    fun s htok => ⟨_, execTxCommit_noToken htok, rfl⟩⟩
  obtain ⟨hword0, hword1, -⟩ := commitTx_desc hc w hw
  have hout := commitTx_sameOutside hc w hw
  have hexec := execTxCommit_ok htok
  obtain ⟨m, hm⟩ := commitTx_eq s w
  rw [State.committed, hm] at hexec
  rw [hm] at hword0 hword1 hout
  have hown : State.ownedByDma { s with mem := m } .tx w.index = true := by
    rw [State.ownedByDma, hword0]
    exact own_commit (layout_ok hc) _
  refine ⟨_, hexec, hasResult_finish .., hword1, hword0, fun hlayout => ⟨?_, ?_⟩, hown, hout, rfl⟩
  · exact hword1.trans ((default_words hlayout).2.2 _)
  · exact hword0.trans (txCtrl_own_default hlayout hw)

/-! ### TX_DEMAND_POLL -/

/-- Settles O17: the poll demand writes TPS only. -/
theorem txDemandPollUnparks : Obligations.TxDemandPollUnparks :=
  ⟨decode_encode (i := .txDemandPoll) trivial, fun s => ⟨_, execTxDemandPoll_ok s, hasResult_finish .., rfl⟩⟩

/-- A poll demand on a started ring un-parks a suspended process (R221). -/
theorem tpsAfterPoll_of_suspended {s : State} (hst : s.dmaomr.st = true) (hps : s.dmasr.tps = tpsSuspended) :
    tpsAfterPoll s = psFetching := if_pos ⟨hst, hps⟩

/-- The state after TX_DEMAND_POLL. -/
def State.polledTx (s : State) : State := (s.setTps (tpsAfterPoll s)).finish .ok 0 0 0#32

/-- TX_DEMAND_POLL has this one outcome (R177). -/
theorem eq_polledTx {s t : State} (h : exec .txDemandPoll s = .next t) : t = s.polledTx := by
  rw [execTxDemandPoll_ok] at h
  cases h
  rfl

/-- After a poll demand there is nothing for a second one to un-park (R178, R221). -/
theorem tpsAfterPoll_polledTx (s : State) : tpsAfterPoll s.polledTx = tpsAfterPoll s :=
  if_neg fun ⟨hst, hsusp⟩ => tpsAfterPoll_ne_suspended (s := s) hst hsusp

/-- A TX_FETCH that is enabled on an entry with no race recorded fetches (R212). -/
theorem dmaStep_txFetch {s : State} (hraced : s.raced .tx s.txDma = false) (hst : s.dmaomr.st = true)
    (hps : s.dmasr.tps = psFetching) : dmaStep .txFetch s = s.txFetch := by
  rw [dmaStep, if_pos (txFetchEnabled_iff.2 ⟨hst, hps⟩), State.txStep, if_neg (Bool.eq_false_iff.1 hraced)]

/-- A fetch of a CPU-owned entry suspends the process (R212). -/
theorem txFetch_of_cpuOwned {s : State} (h : s.ownedByDma .tx s.txDma = false) : s.txFetch = s.setTps tpsSuspended := by
  simp [State.txFetch, h, fetched]

/-- Settles O18: a polled process is not suspended, and a fetch of a CPU-owned entry suspends it as before the poll. -/
theorem txDemandPollIdempotent : Obligations.TxDemandPollIdempotent := by
  intro s t h
  rw [eq_polledTx h]
  refine ⟨?_, fun hst hps hown hraced => ?_⟩
  · rw [execTxDemandPoll_ok, tpsAfterPoll_polledTx]
    rfl
  · have hparked : { s.dmasr with tps := tpsSuspended } = s.dmasr := by rw [tpsSuspended, ← hps]
    calc dmaStep .txFetch s.polledTx
      _ = s.polledTx.txFetch := dmaStep_txFetch hraced hst (tpsAfterPoll_of_suspended hst hps)
      _ = s.polledTx.setTps tpsSuspended := txFetch_of_cpuOwned hown
      _ = { s with
          res := 0x00000000#32, resAddr := 0#32, resUse := .unread, dmasr := { s.dmasr with tps := tpsSuspended } } := rfl
      _ = { s with res := 0x00000000#32, resAddr := 0#32, resUse := .unread } := by rw [hparked]

end Sys2Proof.Machine
end

section
/-! PROOF. Back-pressure of the Tx ring (R180): sends with no DMA step between them fill the ring, and TXDMA's close of the oldest
entry gives one back. -/

namespace Sys2Proof.Machine

/-! ### A ring between two sends -/

/-- A started Tx ring with no window open and `p` DMA-owned entries, as R231 places them. -/
structure State.BetweenSends (s : State) (p : Nat) : Prop where
  config : configOk s.cfg = true
  started : s.dmaomr.st = true
  closed : s.txToken = none
  dma : s.txDma < ringSize s.cfg .tx
  ring : s.TxRingAt p

/-- With every entry CPU-owned the ring is between two sends, none of its entries DMA's (R231). -/
theorem State.Inv.betweenSends {s : State} (h : s.Inv) (hst : s.dmaomr.st = true) (htok : s.txToken = none)
    (hown : ∀ i, i < ringSize s.cfg .tx → s.ownedByDma .tx i = false) : s.BetweenSends 0 := by
  obtain ⟨-, -, -, hd, -⟩ := h.cursors
  obtain ⟨p, hring⟩ := h.txRing hst
  have ⟨_, hrun, _⟩ := hring
  have hnone : ¬ 1 ≤ p := fun hp =>
    Bool.false_ne_true ((hown _ hd).symm.trans (((txRingAt_run.1 hrun).first_iff hd).2 hp))
  obtain rfl : p = 0 := by omega
  exact ⟨h.config, hst, htok, hd, hring⟩

section
variable {s : State} {p : Nat} (h : s.BetweenSends p)
include h

/-- The entry at the Tx cursor is DMA's exactly when every entry is (R231). -/
theorem State.BetweenSends.owned_iff : s.ownedByDma .tx s.txNext = true ↔ p = ringSize s.cfg .tx := by
  obtain ⟨hle, hrun, hnext, -⟩ := h.ring
  rw [hnext]
  exact (txRingAt_run.1 hrun).behind_iff h.dma hle

/-- Once every entry is DMA's the Tx cursor is back at the DMA cursor (R180, R231). -/
theorem State.BetweenSends.txNext_of_full (hp : p = ringSize s.cfg .tx) : s.txNext = s.txDma := by
  obtain ⟨-, -, hnext, -⟩ := h.ring
  rw [hnext, hp, Nat.add_mod_right, Nat.mod_eq_of_lt h.dma]

end

/-! ### Sends -/

/-- The state after TX_SEND of `len` bytes and TX_COMMIT. -/
def State.afterSend (s : State) (len : Nat) : State :=
  (((s.openTx len).finish .ok s.txNext len (bufAddr s.cfg .tx s.txNext)).committed
    { index := s.txNext, len := len }).finish .ok s.txNext len 0#32

/-- A send leaves the parameters, the recorded faults, and the latches and process states. -/
theorem afterSend_fields (s : State) (len : Nat) :
    (s.afterSend len).cfg = s.cfg ∧ (s.afterSend len).faults = s.faults ∧ (s.afterSend len).dmasr = s.dmasr :=
  ⟨rfl, rfl, rfl⟩

/-- The result registers are no part of R231. -/
theorem finish_txRingAt (s : State) (c : Code) (i v : Nat) (a : Addr) : (s.finish c i v a).TxRingAt = s.TxRingAt := rfl

section
variable {s : State} {p : Nat} (h : s.BetweenSends p) (hp : p < ringSize s.cfg .tx)
include h hp

/-- While an entry is left, the entry at the Tx cursor is the CPU's (R231). -/
theorem State.BetweenSends.next_cpuOwned : s.ownedByDma .tx s.txNext = false :=
  Bool.eq_false_iff.2 fun hown => hp.ne (h.owned_iff.1 hown)

/-- A send hands one more entry to DMA (R172, R175). -/
theorem State.BetweenSends.afterSend (len : Nat) : (s.afterSend len).BetweenSends (p + 1) := by
  have hnext : s.txNext < ringSize s.cfg .tx := by
    obtain ⟨-, -, hnext, -⟩ := h.ring
    exact hnext ▸ Nat.mod_lt _ (by omega)
  have hopen := h.ring.openTx h.dma (h.next_cpuOwned hp) len
  have hcommit := State.TxRingAt.commit (s := (s.openTx len).finish .ok s.txNext len (bufAddr s.cfg .tx s.txNext))
    h.config hopen rfl hnext
  refine ⟨h.config, h.started, rfl, h.dma, ?_⟩
  rw [State.afterSend, finish_txRingAt]
  exact hcommit

/-- While an entry is left, a send of a length that fits goes first in a sequence of sends (R172, R175). -/
theorem State.BetweenSends.sendsTo_cons {len : Nat} (hlen : len ≤ s.cfg.cap) {lens : List Nat} {t : State}
    (hrest : SendsTo lens (s.afterSend len) t) : SendsTo (len :: lens) s t :=
  ⟨_, _, execTxSend_ok h.started h.closed hlen (h.next_cpuOwned hp), resultOk_finish .., execTxCommit_ok rfl,
    resultOk_finish .., hrest⟩

end

/-- Sends of lengths that fit complete while entries are left for them (R180). -/
theorem State.BetweenSends.sendsTo {s : State} {p : Nat} (h : s.BetweenSends p) {lens : List Nat}
    (hroom : p + lens.length ≤ ringSize s.cfg .tx) (hlens : ∀ len ∈ lens, len ≤ s.cfg.cap) :
    ∃ t, SendsTo lens s t ∧ t.BetweenSends (p + lens.length) ∧ t.cfg = s.cfg ∧ t.faults = s.faults ∧
      t.dmasr = s.dmasr := by
  induction lens generalizing s p with
  | nil => exact ⟨s, rfl, h, rfl, rfl, rfl⟩
  | cons len lens ih =>
    rw [List.length_cons] at hroom ⊢
    have hp : p < ringSize s.cfg .tx := by omega
    obtain ⟨hlen, hlens⟩ := List.forall_mem_cons.1 hlens
    obtain ⟨hcfg, hfaults, hsr⟩ := afterSend_fields s len
    obtain ⟨t, hsends, ht, htcfg, htfaults, htsr⟩ :=
      ih (h.afterSend hp len) (by rw [hcfg]; omega) (by rwa [hcfg])
    rw [show p + 1 + lens.length = p + (lens.length + 1) by omega] at ht
    exact ⟨t, h.sendsTo_cons hp hlen hsends, ht, htcfg.trans hcfg, htfaults.trans hfaults, htsr.trans hsr⟩

/-! ### Recovery -/

/-- A TX_CLOSE that is enabled, with no race recorded, closes (R213, R214). -/
theorem dmaStep_txClose {s : State} (hf : s.faults = []) (hen : s.txCloseEnabled = true) (st : Word) :
    dmaStep (.txClose st) s = s.txClose st := by
  rw [dmaStep, if_pos hen, txStep_of_no_fault hf]

/-- A poll demand leaves a process of a started ring fetching, unless it holds an entry (R221). -/
theorem tpsAfterPoll_of_not_holding {s : State} (hst : s.dmaomr.st = true)
    (hps : s.dmasr.tps = psFetching ∨ s.dmasr.tps = tpsSuspended) : tpsAfterPoll s = psFetching := by
  rcases hps with hfetch | hsusp
  · simp [tpsAfterPoll, hfetch]
  · exact tpsAfterPoll_of_suspended hst hsusp

/-- While the CPU owns the entry at the DMA cursor, TXDMA holds none (R210, R231). -/
theorem State.Inv.tps_of_cpuOwned {s : State} (h : s.Inv) (hst : s.dmaomr.st = true) (hown : s.ownedByDma .tx s.txDma = false) :
    s.dmasr.tps = psFetching ∨ s.dmasr.tps = tpsSuspended := by
  have hnot : s.dmasr.tps ≠ psHolding := fun hps => Bool.false_ne_true (hown.symm.trans (h.txDma_owned hst hps))
  obtain ⟨-, htx⟩ := h.process
  rw [if_pos hst] at htx
  exact htx.imp_right fun hrest => hrest.resolve_left hnot

section
variable {s : State} {p : Nat} (h : s.BetweenSends p)
include h

/-- A poll demand leaves the ring as it is (R177). -/
theorem State.BetweenSends.poll : s.polledTx.BetweenSends p :=
  ⟨h.config, h.started, h.closed, h.dma, h.ring.poll⟩

/-- TXDMA, fetching, fetches the oldest DMA-owned entry and closes it, which gives it back to the CPU (R212, R214). -/
theorem State.BetweenSends.fetch_close (hp : 1 ≤ p) (hf : s.faults = []) (hps : s.dmasr.tps = psFetching) (st : Word) :
    (dmaStep (.txClose st) (dmaStep .txFetch s)).BetweenSends (p - 1) ∧
      (dmaStep (.txClose st) (dmaStep .txFetch s)).cfg = s.cfg ∧
      (dmaStep (.txClose st) (dmaStep .txFetch s)).txNext = s.txNext := by
  obtain ⟨-, hrun, -⟩ := h.ring
  have hholding : s.txFetch.dmasr.tps = psHolding :=
    (fetched_eq_holding_iff (by decide)).2 (((txRingAt_run.1 hrun).first_iff h.dma).2 hp)
  have hclosed := State.TxRingAt.close (s := s.txFetch) h.config (h.ring.fetch h.dma) hholding h.dma st
  rw [dmaStep_txFetch (raced_of_no_fault hf ..) h.started hps,
    dmaStep_txClose (s := s.txFetch) hf (txCloseEnabled_iff.2 ⟨h.started, hholding⟩)]
  exact ⟨⟨h.config, h.started, h.closed, nextIndex_lt h.config .tx _, hclosed⟩, rfl, rfl⟩

end

/-- Settles O55: NT sends make the run of DMA-owned entries go all the way round, and a close takes its first entry out. -/
theorem backpressureAndRecovery : Obligations.BackpressureAndRecovery := by
  intro s lens hinv hf hst htok hown hcount hlens
  obtain ⟨-, -, -, hd, -⟩ := hinv.cursors
  have hpos := ringSize_pos hinv.config .tx
  obtain ⟨t, hsends, ht, hcfg, hfaults, hsr⟩ := (hinv.betweenSends hst htok hown).sendsTo (by omega) hlens
  rw [Nat.zero_add, hcount] at ht
  have hfull : ringSize s.cfg .tx = ringSize t.cfg .tx := by rw [hcfg]
  have hback := ht.txNext_of_full hfull
  have hps := hinv.tps_of_cpuOwned hst (hown _ hd)
  rw [← hsr] at hps
  refine ⟨t, hsends, hback, fun len hlen => ⟨⟨_, ?_, rfl⟩, fun st p hpoll => ?_⟩⟩
  · exact execTxSend_wouldBlock ht.started ht.closed (hcfg ▸ hlen) (ht.owned_iff.2 hfull)
  · rw [eq_polledTx hpoll]
    obtain ⟨hring, hucfg, hunext⟩ :=
      ht.poll.fetch_close hpos (hfaults.trans hf) (tpsAfterPoll_of_not_holding ht.started hps) st
    generalize dmaStep (.txClose st) _ = u at hring hucfg hunext ⊢
    have hucfg : u.cfg = s.cfg := hucfg.trans hcfg
    have hunext : u.txNext = t.txDma := hunext.trans hback
    have hroom : ringSize s.cfg .tx - 1 < ringSize u.cfg .tx := by
      rw [hucfg]
      omega
    refine ⟨_, execTxSend_ok hring.started hring.closed (hucfg ▸ hlen) (hring.next_cpuOwned hroom), ?_⟩
    rw [hunext, hucfg]
    exact hasResult_finish ..

end Sys2Proof.Machine
end

section
/-! PROOF. The steps of the DMA agents, each with its whole effect where it is enabled and its entry is not raced, and with none
where it is not enabled (R200 to R218); the Rx poll demand (R220); and the invariant, which every step keeps. -/

namespace Sys2Proof.Machine

/-- Settles O46: a step that ends with no fault recorded is one effect of a state with none, and every such effect keeps each
part of the invariant. -/
theorem stepKeepsRingInvariants : Obligations.StepKeepsRingInvariants := fun _ _ hinv h hf => inv_step hinv h hf

/-! ### A step that is not enabled, and the poll demand -/

/-- A step is not enabled on a ring that is not started, nor in a process state other than the step's (R201, R211). -/
theorem not_enabled {started : Bool} {ps own : BitVec 3} (h : started = false ∨ ps ≠ own) :
    ¬ (started && decide (ps = own)) = true := by
  rw [Bool.and_eq_true, decide_eq_true_eq, not_and_or, Bool.not_eq_true]
  exact h

/-- Settles O29: each step is guarded by its ring's enable and its own process state. -/
theorem disabledDmaStepsDoNothing : Obligations.DisabledDmaStepsDoNothing := fun _ _ _ =>
  ⟨fun h => congrArg _ (if_neg (not_enabled h)), fun h => congrArg _ (if_neg (not_enabled h)),
    fun h => congrArg _ (if_neg (not_enabled h)), fun h => congrArg _ (if_neg (not_enabled h))⟩

/-- Settles O30: the poll demand looks at SR and RPS, and not at the value. -/
theorem rxPollDemandUnparks : Obligations.RxPollDemandUnparks := fun _ _ =>
  ⟨fun hsr hps => if_pos ⟨hsr, hps⟩, fun h => if_neg fun ⟨hsr, hps⟩ =>
    h.elim (fun hoff => Bool.false_ne_true (hoff.symm.trans hsr)) fun hne => hne hps⟩

/-! ### Fetches -/

/-- RXDMA takes the step as it is where its entry is not raced (R69). -/
theorem rxStep_of_not_raced {s : State} (h : s.raced .rx s.rxDma = false) (t : State) : s.rxStep t = t :=
  if_neg (Bool.eq_false_iff.1 h)

theorem txStep_of_not_raced {s : State} (h : s.raced .tx s.txDma = false) (t : State) : s.txStep t = t :=
  if_neg (Bool.eq_false_iff.1 h)

/-- An RX_FETCH that is enabled on an entry with no race recorded fetches (R202). -/
theorem dmaStep_rxFetch {s : State} (hraced : s.raced .rx s.rxDma = false) (hsr : s.dmaomr.sr = true)
    (hps : s.dmasr.rps = psFetching) : dmaStep .rxFetch s = s.rxFetch := by
  rw [dmaStep, if_pos (rxFetchEnabled_iff.2 ⟨hsr, hps⟩), rxStep_of_not_raced hraced]

/-- Settles O25: a fetch writes the process state that the owner it reads gives. -/
theorem fetchReadsOwner : Obligations.FetchReadsOwner := fun _ =>
  ⟨fun hsr hps hraced => congrArg _ (dmaStep_rxFetch hraced hsr hps),
    fun hst hps hraced => congrArg _ (dmaStep_txFetch hraced hst hps)⟩

/-! ### RX_DEPOSIT -/

/-- An RX_DEPOSIT that is enabled on an entry with no race recorded deposits (R203, R205). -/
theorem dmaStep_rxDeposit_of_not_raced {s : State} (hraced : s.raced .rx s.rxDma = false) (hsr : s.dmaomr.sr = true)
    (hps : s.dmasr.rps = psHolding) (frame : List Byte) (st : Word) :
    dmaStep (.rxDeposit frame st) s = s.rxDeposit frame st := by
  rw [dmaStep, if_pos (rxDepositEnabled_iff.2 ⟨hsr, hps⟩), rxStep_of_not_raced hraced]

/-- FL of a deposit is the number of its bytes, saturated at the largest value FL holds (R205). -/
theorem frameLen_rxDepositW0_eq_min {c : Config} (hl : layoutOk c = true) (n : Nat) (st : Word) :
    frameLen c (rxDepositW0 c n st) = min n (flMax c) := by
  obtain ⟨hstatus, hsegment⟩ := rxWord0_apart hl
  have hv : min n (flMax c) < 2 ^ c.layout.rx.frameLength.width := by
    have := Nat.two_pow_pos c.layout.rx.frameLength.width
    unfold flMax
    omega
  refine fieldOf_eq _ hv fun k hk => ?_
  have hmem : c.layout.rx.frameLength.lo + k ∈ rangeBits c.layout.rx.frameLength := mem_rangeBits.2 ⟨by omega, by omega⟩
  have hb := rxWord0_bit_lt hl (b := c.layout.rx.frameLength.lo + k) (by simp [rxWord0Bits, hmem])
  rw [getLsbD_rxDepositW0 n st hb, decide_eq_true hmem, decide_eq_false (hsegment _ (List.mem_append_right _ hmem)),
    decide_eq_false fun hs => hstatus _ hs hmem]
  simp

/-- The word 0 of a deposit in the default layout (R90, R94, R205). -/
theorem rxDepositW0_default {c : Config} (h : c.layout = DescLayout.default) (n : Nat) (st : Word) :
    rxDepositW0 c n st = (st &&& 0x4000FCFF#32) ||| (BitVec.ofNat 32 (min n 0x3FFF) <<< 16) ||| 0x00000300#32 := by
  obtain ⟨-, hdraw, -, -, -, -, hmax⟩ := default_masks h
  rw [rxDepositW0, hdraw, hmax, h]
  rfl

section
variable {s : State} (hc : configOk s.cfg = true) (hd : s.rxDma < ringSize s.cfg .rx)
  (hl : s.desc .rx s.rxDma 2 = bufAddr s.cfg .rx s.rxDma) (frame : List Byte) (st : Word)
include hc hd

/-- RX_DEPOSIT writes memory outside word 0 of the entry at the DMA cursor as it writes the buffer (R205). -/
theorem rxDeposit_get?_outside_word0 {x : Addr}
    (hx : x.toNat < (descAddr s.cfg .rx s.rxDma).toNat ∨ (descAddr s.cfg .rx s.rxDma).toNat + 4 ≤ x.toNat) :
    Memory.get? (s.rxDeposit frame st).mem x.toNat =
      Memory.get? (Memory.putBytes s.mem (s.desc .rx s.rxDma 2) (frame.take s.cfg.cap)) x.toNat := by
  have hdesc := (desc_bounds hc hd).2
  have ha := descWordAddr_toNat hc hd (k := 0) (by omega)
  rw [rxDeposit_mem]
  exact get?_putBytes_outside _ _ _ _ (by rw [wordBytes_length]; omega) (by rw [wordBytes_length]; omega)

include hl

/-- RX_DEPOSIT leaves the frame's first CAP bytes in the buffer (R205). -/
theorem rxDeposit_byteAt_buffer {k : Nat} (hk : k < frame.length) (hcap : k < s.cfg.cap) :
    (s.rxDeposit frame st).byteAt (bufAddr s.cfg .rx s.rxDma + BitVec.ofNat 32 k) = frame[k] := by
  have hbuf := (buf_bounds hc hd).2
  have hlen : (frame.take s.cfg.cap).length = min s.cfg.cap frame.length := List.length_take
  have hx := bufByte_toNat hc hd hcap
  have hout := outsideDescs_of_buffer hc (q := .rx) hd hcap _ hd
  rw [byteAt_def, rxDeposit_get?_outside_word0 hc hd frame st (by omega), hl,
    get?_putBytes_inside _ _ _ k (by omega) (by omega), Option.getD_some, List.getElem_take]

/-- RX_DEPOSIT writes no byte but those of the frame and of word 0 (R205). -/
theorem rxDeposit_byteAt_outside {x : Addr}
    (hbuffer : x.toNat < (bufAddr s.cfg .rx s.rxDma).toNat ∨
      (bufAddr s.cfg .rx s.rxDma).toNat + min frame.length s.cfg.cap ≤ x.toNat)
    (hword0 : x.toNat < (descAddr s.cfg .rx s.rxDma).toNat ∨ (descAddr s.cfg .rx s.rxDma).toNat + 4 ≤ x.toNat) :
    (s.rxDeposit frame st).byteAt x = s.byteAt x := by
  have hbuf := (buf_bounds hc hd).2
  have hlen : (frame.take s.cfg.cap).length = min s.cfg.cap frame.length := List.length_take
  apply byteAt_of_get?
  rw [rxDeposit_get?_outside_word0 hc hd frame st hword0, hl]
  exact get?_putBytes_outside _ _ _ _ (by omega) (by omega)

end

/-- Settles O26: the buffer lies outside word 0, so that both writes stand, and OWN is no bit of a deposit's word 0. -/
theorem rxDepositWritesFrame : Obligations.RxDepositWritesFrame := by
  intro s frame st hc hd hl hsr hps hraced
  have hlayout := layout_ok hc
  obtain ⟨hword0, -⟩ := rxDeposit_desc hc hd hl frame st
  refine ⟨_, congrArg Host.Outcome.next (dmaStep_rxDeposit_of_not_raced hraced hsr hps frame st), fun k hk hcap => ?_,
    hword0, ?_, ?_, fun hdefault => hword0.trans (rxDepositW0_default hdefault _ _), ?_,
    fun x hbuffer hout => rxDeposit_byteAt_outside hc hd hl frame st hbuffer hout, rfl⟩
  · rw [rxDeposit_byteAt_buffer hc hd hl frame st hk hcap, List.getElem?_eq_getElem hk]
  · rw [hword0, frameLen_rxDepositW0_eq_min hlayout]
  · rw [hword0, wholeFrame_rxDepositW0 hlayout]
  · rw [State.ownedByDma, hword0, rxDeposit_cfg, own_deposit hlayout]

/-! ### TX_CLOSE -/

/-- A TX_CLOSE that is enabled on an entry with no race recorded closes (R213, R214). -/
theorem dmaStep_txClose_of_not_raced {s : State} (hraced : s.raced .tx s.txDma = false) (hst : s.dmaomr.st = true)
    (hps : s.dmasr.tps = psHolding) (st : Word) : dmaStep (.txClose st) s = s.txClose st := by
  rw [dmaStep, if_pos (txCloseEnabled_iff.2 ⟨hst, hps⟩), txStep_of_not_raced hraced]

/-- TBS1, IC and the word 0 of a close in the default layout (R95 to R97, R214). -/
theorem txClose_default {c : Config} (h : c.layout = DescLayout.default) (w0 w1 st : Word) :
    txLen c w1 = (w1.extractLsb' 0 13).toNat ∧ icBit c w0 = w0.getLsbD 30 ∧
      txCloseW0 c w0 st = (w0 &&& 0x7FF00000#32) ||| (st &&& 0x0003FFFF#32) := by
  obtain ⟨-, -, hkeep, hstatus, -⟩ := default_masks h
  rw [txLen, icBit, txCloseW0, hkeep, hstatus, h]
  exact ⟨rfl, rfl, rfl⟩

/-- Settles O28: a close writes word 0 only, whose bit OWN is neither a control nor a status bit. -/
theorem txCloseEmitsFrame : Obligations.TxCloseEmitsFrame := by
  intro s st hc hd hst hps hraced
  obtain ⟨hword0, -⟩ := txClose_desc hc hd st
  refine ⟨_, congrArg Host.Outcome.next (dmaStep_txClose_of_not_raced hraced hst hps st), rfl, hword0, fun hdefault => ?_, ?_,
    fun x hx => txClose_byteAt_outside_word0 hc hd st hx, rfl⟩
  · rw [hword0]
    exact txClose_default hdefault _ _ _
  · rw [State.ownedByDma, hword0, txClose_cfg, own_close (layout_ok hc)]

end Sys2Proof.Machine
end

section
/-! PROOF. What the ring invariants say of the outcomes: WOULD_BLOCK means that the whole ring is DMA's, and a suspended receive
process that it is the CPU's (R230, R231). -/

namespace Sys2Proof.Machine

/-! ### A run that goes all the way round, and one with no entry -/

/-- Going round from `start` comes to every entry. -/
theorem exists_offset {N start i : Nat} (hstart : start < N) (hi : i < N) : ∃ k, k < N ∧ (start + k) % N = i := by
  by_cases h : start ≤ i
  · exact ⟨i - start, by omega, by rw [Nat.add_sub_cancel' h, Nat.mod_eq_of_lt hi]⟩
  · refine ⟨i + N - start, by omega, ?_⟩
    rw [Nat.add_sub_cancel' (by omega), Nat.add_mod_right, Nat.mod_eq_of_lt hi]

section
variable {N start len : Nat} {own : Nat → Bool} {b : Bool}

/-- Every entry is in the run where it goes all the way round. -/
theorem OwnRun.forall_iff (h : OwnRun N own b start len) (hstart : start < N) (hlen : len ≤ N) :
    (∀ i, i < N → own i = b) ↔ len = N := by
  refine ⟨fun hall => (h.behind_iff hstart hlen).1 (hall _ (Nat.mod_lt _ (by omega))), fun hfull i hi => ?_⟩
  obtain ⟨k, hk, rfl⟩ := exists_offset hstart hi
  exact (h k hk).2 (hfull ▸ hk)

/-- No entry is in the run where its first is not. -/
theorem OwnRun.forall_not_iff (h : OwnRun N own b start len) (hstart : start < N) :
    (∀ i, i < N → own i = !b) ↔ own start = !b := by
  refine ⟨fun hall => hall _ hstart, fun hfirst i hi => ?_⟩
  obtain ⟨k, hk, rfl⟩ := exists_offset hstart hi
  have hlen : ¬ 1 ≤ len := fun hpos => by simp [(h.first_iff hstart).2 hpos] at hfirst
  exact Bool.eq_not.2 fun hmem => hlen (Nat.one_le_of_lt ((h k hk).1 hmem))

end

/-! ### WOULD_BLOCK -/

/-- An outcome is the one given, no other (R112). -/
theorem not_onlyOutcome_finish {s u : State} {c d : Code} (hne : codeBits c ≠ codeBits d) (i v : Nat) (a : Addr) :
    ¬ OnlyOutcome s (u.finish c i v a) d := by
  intro h
  have hres : resultWord c i v = resultWord d 0 0 := congrArg State.res h
  exact hne ((resultWord_fields c i v).1.symm.trans (hres ▸ (resultWord_fields d 0 0).1))

/-- RX_RECV_NEXT with no window open answers WOULD_BLOCK exactly when the entry at the cursor is DMA's (R142). -/
theorem rxRecvNext_wouldBlock_iff {s : State} (hsr : s.dmaomr.sr = true) (htok : s.rxToken = none) :
    (∃ t, exec .rxRecvNext s = .next t ∧ OnlyOutcome s t .wouldBlock) ↔ s.ownedByDma .rx s.rxNext = true := by
  refine ⟨?_, fun hown => ⟨_, execRxRecvNext_wouldBlock hsr htok hown, rfl⟩⟩
  rintro ⟨t, hexec, hblock⟩
  by_contra hown
  have hown := Bool.eq_false_iff.2 hown
  cases hvalid : rxValid s.cfg (s.desc .rx s.rxNext 0)
  · rw [execRxRecvNext_corrupted hsr htok hown hvalid] at hexec
    cases hexec
    exact not_onlyOutcome_finish (by decide) _ _ _ hblock
  · rw [execRxRecvNext_open hsr htok hown hvalid] at hexec
    cases hexec
    exact not_onlyOutcome_finish (by decide) _ _ _ hblock

/-- TX_SEND of a length that fits, with no window open, answers WOULD_BLOCK exactly when the entry at the cursor is DMA's
(R172). -/
theorem txSend_wouldBlock_iff {s : State} {len : Nat} (hst : s.dmaomr.st = true) (htok : s.txToken = none)
    (hlen : len ≤ s.cfg.cap) :
    (∃ t, exec (.txSend len) s = .next t ∧ OnlyOutcome s t .wouldBlock) ↔ s.ownedByDma .tx s.txNext = true := by
  refine ⟨?_, fun hown => ⟨_, execTxSend_wouldBlock hst htok hlen hown, rfl⟩⟩
  rintro ⟨t, hexec, hblock⟩
  by_contra hown
  rw [execTxSend_ok hst htok hlen (Bool.eq_false_iff.2 hown)] at hexec
  cases hexec
  exact not_onlyOutcome_finish (by decide) _ _ _ hblock

/-! ### The whole ring -/

/-- With no window open the entry at the Rx cursor, the oldest, is DMA's exactly when every entry is (R230). -/
theorem State.Inv.rxNext_owned_iff {s : State} (h : s.Inv) (hsr : s.dmaomr.sr = true) (htok : s.rxToken = none) :
    s.ownedByDma .rx s.rxNext = true ↔ ∀ i, i < ringSize s.cfg .rx → s.ownedByDma .rx i = true := by
  obtain ⟨hnext, -⟩ := h.cursors
  obtain ⟨c, -, hrun, -⟩ := h.rxRing hsr
  have hnone := (rxRingAt_run.1 hrun).forall_not_iff (rxOldest_lt hnext)
  rw [rxOldest_of_none htok] at hnone
  exact hnone.symm

/-- The entry at the Tx cursor, the one behind the DMA-owned ones, is DMA's exactly when every entry is (R231). -/
theorem State.Inv.txNext_owned_iff {s : State} (h : s.Inv) (hst : s.dmaomr.st = true) :
    s.ownedByDma .tx s.txNext = true ↔ ∀ i, i < ringSize s.cfg .tx → s.ownedByDma .tx i = true := by
  obtain ⟨-, -, -, hd, -⟩ := h.cursors
  obtain ⟨p, hle, hrun, hnext, -⟩ := h.txRing hst
  have hrun := txRingAt_run.1 hrun
  rw [hnext, hrun.behind_iff hd hle, hrun.forall_iff hd hle]

/-- While the receive process is suspended the CPU owns every Rx entry (R230). -/
theorem State.Inv.rx_cpuOwned_of_suspended {s : State} (h : s.Inv) (hsr : s.dmaomr.sr = true)
    (hps : s.dmasr.rps = rpsSuspended) {i : Nat} (hi : i < ringSize s.cfg .rx) : s.ownedByDma .rx i = false := by
  obtain ⟨hnext, -⟩ := h.cursors
  obtain ⟨c, hle, hrun, -, -, -, hsuspended⟩ := h.rxRing hsr
  exact ((rxRingAt_run.1 hrun).forall_iff (rxOldest_lt hnext) hle).2 (hsuspended hps) i hi

/-- Settles O54: each command looks at the entry at its cursor, whose owner, by the ring's invariant, tells that of all. -/
theorem wouldBlockMeansEmptyOrFull : Obligations.WouldBlockMeansEmptyOrFull := fun _ hinv =>
  ⟨fun hsr htok => (rxRecvNext_wouldBlock_iff hsr htok).trans (hinv.rxNext_owned_iff hsr htok),
    fun hst htok _ hlen => (txSend_wouldBlock_iff hst htok hlen).trans (hinv.txNext_owned_iff hst),
    fun hsr hps _ hi => hinv.rx_cpuOwned_of_suspended hsr hps hi⟩

end Sys2Proof.Machine
end

section
/-! PROOF. A frame committed to the Tx ring: its entry keeps its buffer and its length while DMA owns it (R215), so that TXDMA
emits the frame as it was committed (R214). -/

namespace Sys2Proof.Machine

/-! ### An entry that stays DMA-owned -/

/-- TX_START leaves no entry with DMA, so that a ring with a DMA-owned entry after an effect was started before it (R170). -/
theorem txStarted_before_effect {s t : State} (hc : configOk s.cfg = true) (he : Effect s t) (ht : t.dmaomr.st = true)
    {i : Nat} (hi : i < ringSize s.cfg .tx) (hown : t.ownedByDma .tx i = true) : s.dmaomr.st = true := by
  rcases txBase_effect he ht with ⟨hst, -⟩ | rfl
  · exact hst
  · rw [finish_ownedByDma, State.ownedByDma, (startTx_desc hc hi).1, startTx_cfg, own_ctrl (layout_ok hc)] at hown
    cases hown

section
variable {r : Ring} {i : Nat} {dma : Bool} {s u : State} (h : OwnerKept r i dma s u)
include h

/-- No step changes the parameters (R43). -/
theorem OwnerKept.cfg : u.cfg = s.cfg := by
  induction h with
  | refl => rfl
  | step _ hstep _ ih => exact (step_cfg hstep).trans ih

theorem OwnerKept.owned : u.ownedByDma r i = dma := by
  cases h with
  | refl hown => exact hown
  | step _ _ hown => exact hown

/-- Steps that record no fault keep the block's invariant. -/
theorem OwnerKept.inv (hinv : s.Inv) (hf : u.faults = []) : u.Inv := by
  induction h with
  | refl => exact hinv
  | step _ hstep _ ih => exact inv_step (ih (no_fault_before_step hstep hf)) hstep hf

end

/-- Through steps that leave a Tx entry with DMA and record no fault, on a ring started at their end, the entry keeps its bytes
but for word 0 (R215). -/
theorem OwnerKept.txEntry_byteAt {s u : State} (hinv : s.Inv) {i : Nat} (hi : i < ringSize s.cfg .tx)
    (h : OwnerKept .tx i true s u) (hf : u.faults = []) (hst : u.dmaomr.st = true) {x : Addr} (hx : InEntry s.cfg .tx i x)
    (hword0 : x.toNat < (descAddr s.cfg .tx i).toNat ∨ (descAddr s.cfg .tx i).toNat + 4 ≤ x.toNat) :
    u.byteAt x = s.byteAt x := by
  induction h with
  | refl => rfl
  | @step t u hkept hstep hown ih =>
    obtain ⟨hc, -, agenda, draws, he⟩ := step_effect_of_no_fault hstep hf
    have ht := no_fault_before_step hstep hf
    have hit : i < ringSize t.cfg .tx := hkept.cfg ▸ hi
    have htst : t.dmaomr.st = true :=
      txStarted_before_effect (s := { t with agenda := agenda, draws := draws }) hc he hst hit hown
    rw [← ih ht htst]
    rw [← hkept.cfg] at hx hword0
    exact step_dmaOwnedTx_byteAt (hkept.inv hinv ht) hstep hf hit hkept.owned hx hword0 (.inl htst)

/-- Such an entry keeps its length and its buffer (R97, R215). -/
theorem OwnerKept.txEntry_kept {s u : State} (hinv : s.Inv) {i : Nat} (hi : i < ringSize s.cfg .tx)
    (h : OwnerKept .tx i true s u) (hf : u.faults = []) (hst : u.dmaomr.st = true) :
    u.desc .tx i 1 = s.desc .tx i 1 ∧
      ∀ n, n ≤ s.cfg.cap → u.bytesAt (bufAddr s.cfg .tx i) n = s.bytesAt (bufAddr s.cfg .tx i) n := by
  have hc := hinv.config
  refine ⟨desc_of_bytes hc h.cfg hi (by omega) fun x h1 h2 =>
    h.txEntry_byteAt hinv hi hf hst (.inl (by omega)) (by omega), fun n hn => List.map_congr_left fun k hk => ?_⟩
  have hk : k < s.cfg.cap := (List.mem_range.1 hk).trans_le hn
  have hout := outsideDescs_of_buffer hc (q := .tx) hi hk i hi
  exact h.txEntry_byteAt hinv hi hf hst (inEntry_of_buffer hc hi hk) (by omega)

/-! ### A committed frame is emitted -/

/-- Word 2 of an entry of a started Tx ring is the address TX_CLOSE reads from: that of the entry's buffer (R41, R214). -/
theorem State.Inv.txBuffer {s : State} (h : s.Inv) (hst : s.dmaomr.st = true) {i : Nat} (hi : i < ringSize s.cfg .tx) :
    s.desc .tx i 2 = bufAddr s.cfg .tx i := by
  obtain ⟨-, hlinks⟩ := h.links.2 hst
  obtain ⟨-, hword2, -⟩ := hlinks i hi
  exact hword2

/-- TXDMA holds an entry on a started ring only (R211). -/
theorem State.Inv.txStarted_of_holding {s : State} (h : s.Inv) (hps : s.dmasr.tps = psHolding) : s.dmaomr.st = true := by
  by_contra hst
  obtain ⟨-, htx⟩ := h.process
  rw [if_neg hst, hps] at htx
  exact absurd htx (by decide)

/-- TX_COMMIT leaves the bytes of the window's buffer (R175). -/
theorem commitTx_bytesAt {s : State} (hc : configOk s.cfg = true) (w : Window) (hw : w.index < ringSize s.cfg .tx) {n : Nat}
    (hn : n ≤ s.cfg.cap) : (s.commitTx w).bytesAt (bufAddr s.cfg .tx w.index) n = s.bytesAt (bufAddr s.cfg .tx w.index) n := by
  refine List.map_congr_left fun k hk => ?_
  have hout := outsideDescs_of_buffer hc (q := .tx) hw ((List.mem_range.1 hk).trans_le hn) _ hw
  exact commitTx_sameOutside hc w hw _ (by omega)

/-- TX_COMMIT of an open window writes memory by the commit alone, and records no fault (R175). -/
theorem execTxCommit_effect {s t : State} {w : Window} (htok : s.txToken = some w) (h : exec .txCommit s = .next t) :
    Effect s t ∧ t.cfg = s.cfg ∧ t.mem = (s.commitTx w).mem ∧ t.faults = s.faults := by
  rw [execTxCommit_ok htok, State.committed] at h
  cases h
  exact ⟨.commitTx w htok, rfl, rfl, rfl⟩

/-- Settles O57: the entry keeps its buffer and its word 1 from the commit to the close, and word 2 is the buffer's address. -/
theorem committedFrameIsSent : Obligations.CommittedFrameIsSent := by
  intro s t u w st hinv htok hexec hkept hf hdma hps
  obtain ⟨-, -, -, -, -, htxw⟩ := hinv.cursors
  obtain ⟨-, hw, hlen⟩ := htxw w htok
  have hc := hinv.config
  obtain ⟨he, hcfg, hmem, hfaults⟩ := execTxCommit_effect htok hexec
  have ht : t.faults = [] := hkept.no_fault hf
  have htinv : t.Inv := inv_effect hinv (hfaults.symm.trans ht) he ht
  have huinv := hkept.inv htinv hf
  have hust := huinv.txStarted_of_holding hps
  have hucfg : u.cfg = s.cfg := hkept.cfg.trans hcfg
  obtain ⟨hword1, hbytes⟩ := hkept.txEntry_kept htinv (hcfg ▸ hw) hf hust
  rw [desc_congr hmem (hcfg.trans (commitTx_cfg s w).symm), (commitTx_desc hc w hw).2.1] at hword1
  have hbuffer : u.bytesAt (bufAddr s.cfg .tx w.index) w.len = s.bytesAt (bufAddr s.cfg .tx w.index) w.len := by
    rw [← hcfg, hbytes _ (hcfg ▸ hlen), hcfg, ← commitTx_bytesAt hc w hw hlen, State.bytesAt, byteAt_congr hmem]
    rfl
  have hframe : u.txFrame = { entry := w.index, bytes := s.bytesAt (bufAddr s.cfg .tx w.index) w.len } := by
    rw [State.txFrame, hdma, huinv.txBuffer hust (hucfg ▸ hw), hword1, hucfg, txLen_txW1 (layout_ok hc) hlen, hbuffer]
  rw [dmaStep_txClose hf (txCloseEnabled_iff.2 ⟨hust, hps⟩), ← hframe]
  rfl

end Sys2Proof.Machine
end

section
/-! PROOF. Progress of TXDMA (R222, R223): on a fair run a DMA-owned entry that it is about to fetch is fetched and closed, since no
move of another agent takes the entry away or moves TXDMA on. -/

namespace Sys2Proof.Machine

/-! ### The owner of an entry TXDMA does not hold -/

/-- While TXDMA holds no entry, every effect that ends with no fault recorded leaves an entry of a started ring with DMA. -/
theorem txOwned_effect {s t : State} (hinv : s.Inv) (hs : s.faults = []) (he : Effect s t) (hf : t.faults = [])
    (hst : s.dmaomr.st = true) (hps : s.dmasr.tps ≠ psHolding) {i : Nat} (hi : i < ringSize s.cfg .tx)
    (hown : s.ownedByDma .tx i = true) : t.ownedByDma .tx i = true := by
  obtain ⟨hrxn, hrxd, -, -, -, -⟩ := hinv.cursors
  have hc := hinv.config
  have kept : ∀ {u : State}, u.cfg = s.cfg → u.desc .tx i 0 = s.desc .tx i 0 → u.ownedByDma .tx i = true :=
    fun hcfg hword0 => (owned_of_desc hcfg hword0).trans hown
  have handBack : ∀ j, j < ringSize s.cfg .rx → (s.handBackRx j).ownedByDma .tx i = true := fun j hj =>
    kept (handBackRx_cfg s j) ((handBack_desc hc j hj).2 .tx i 0 hi (by omega) (.inl (by decide)))
  cases he
  case startRx => exact kept (u := s.startRx) (startRx_cfg s) (start_other_rx hc hi (by omega))
  case recycleRx => exact handBack _ hrxn
  case release w hw => exact handBack _ (hinv.rxWindow_lt hw)
  case startTx hoff => exact absurd hst (by simp [hoff])
  case commitTx w hw =>
    have hother : i ≠ w.index := by
      rintro rfl
      exact Bool.false_ne_true ((hinv.txWindow_cpuOwned hw).symm.trans hown)
    obtain ⟨m, hm⟩ := commitTx_eq s w
    have hdesc := commitTx_desc hc w (hinv.txWindow_lt hw)
    rw [hm] at hdesc ⊢
    obtain ⟨-, -, hrest⟩ := hdesc
    exact kept rfl (hrest .tx i 0 hi (by omega) (.inr (.inl hother)))
  case pollTx =>
    rw [writeDmatpdr_eq]
    exact hown
  case rxDeposit frame st hen _ =>
    obtain ⟨hsr, -⟩ := rxDepositEnabled_iff.1 hen
    exact kept rfl ((rxDeposit_desc hc hrxd (hinv.rxBuffer hsr hrxd) frame st).2 .tx i 0 hi (by omega) (.inl (by decide)))
  case txClose st hen _ => exact absurd (txCloseEnabled_iff.1 hen).2 hps
  case racedRx hraced => exact absurd hraced (by simp [raced_of_no_fault hs])
  case racedTx hraced => exact absurd hraced (by simp [raced_of_no_fault hs])
  case store a w v hin _ hrace => exact kept rfl (store_desc hc hin hrace hi (by omega))
  case raceWrite es hes => simp [hes] at hf
  all_goals exact hown

/-! ### TXDMA at an entry -/

/-- TXDMA stands on the DMA-owned entry `d` of a started ring in the process state `ps`. -/
structure State.TxAt (s : State) (d : Nat) (ps : BitVec 3) : Prop where
  inv : s.Inv
  faults : s.faults = []
  started : s.dmaomr.st = true
  cursor : s.txDma = d
  process : s.dmasr.tps = ps
  owned : s.ownedByDma .tx d = true

/-- On a started ring, in a process state that is not suspended, only TXDMA's own moves write TPS and the Tx DMA cursor. -/
theorem RegEffect.tx_kept {s : State} {m : Move} {r : Regs} (he : RegEffect s m r) (hf : s.faults = [])
    (hst : s.dmaomr.st = true) (hps : s.dmasr.tps ≠ tpsSuspended) (hboot : isBootMove m = false)
    (hfetch : moveTakes m .txFetch = false) (hclose : moveTakes m .txClose = false) :
    r.dmasr.tps = s.dmasr.tps ∧ r.txDma = s.txDma := by
  cases he
  case startTx hoff => exact absurd hst (by simp [hoff])
  case pollTx => exact ⟨if_neg fun ⟨_, hsusp⟩ => hps hsusp, rfl⟩
  case txFetch => cases hfetch
  case txClose => cases hclose
  case racedRx hr _ _ _ => exact absurd hr (by simp [raced_of_no_fault hf])
  case racedTx hr _ _ _ => exact absurd hr (by simp [raced_of_no_fault hf])
  case softReset => cases hboot
  all_goals exact ⟨rfl, rfl⟩

/-- A move of another agent leaves TXDMA where it is. -/
theorem State.TxAt.other {s t : State} {d : Nat} {ps : BitVec 3} (h : s.TxAt d ps) {m : Move} (hmove : perform m s = .next t)
    (hf : t.faults = []) (hps : ps ≠ tpsSuspended) (hboot : isBootMove m = false) (hfetch : moveTakes m .txFetch = false)
    (hclose : moveTakes m .txClose = false) : t.TxAt d ps := by
  obtain ⟨hinv, hs, hst, hcur, hprocess, hown⟩ := h
  have he := perform_effect hmove
  have hregs := perform_regs hmove
  have htinv := inv_effect hinv hs he hf
  obtain ⟨htps, hdma⟩ := hregs.tx_kept hs hst (hprocess ▸ hps) hboot hfetch hclose
  have hst' : t.dmaomr.st = true := (hregs.started_kept (by rintro rfl; cases hboot)).2 hst
  have hcur' : t.txDma = d := hdma.trans hcur
  obtain ⟨-, -, -, hd, -⟩ := hinv.cursors
  refine ⟨htinv, hf, hst', hcur', htps.trans hprocess, ?_⟩
  by_cases hholding : ps = psHolding
  · exact hcur' ▸ htinv.txDma_owned hst' (htps.trans (hprocess.trans hholding))
  · exact txOwned_effect hinv hs he hf hst (hprocess ▸ hholding) (hcur ▸ hd) hown

/-! ### TXDMA's own moves -/

theorem moveTakes_txFetch_iff {m : Move} : moveTakes m .txFetch = true ↔ m = .dma .txFetch := by
  refine ⟨fun h => ?_, fun h => h ▸ rfl⟩
  cases m with
  | cpu x => cases h
  | boot b => cases h
  | dma d =>
    cases d with
    | txFetch => rfl
    | rxFetch | rxDeposit | txClose => cases h

theorem moveTakes_txClose_iff {m : Move} : moveTakes m .txClose = true ↔ ∃ st, m = .dma (.txClose st) := by
  refine ⟨fun h => ?_, fun ⟨_, h⟩ => h ▸ rfl⟩
  cases m with
  | cpu x => cases h
  | boot b => cases h
  | dma d =>
    cases d with
    | txClose st => exact ⟨st, rfl⟩
    | rxFetch | rxDeposit | txFetch => cases h

/-- Until it fetches, TXDMA waits to fetch: its close is not enabled (R213). -/
theorem State.TxAt.fetching_kept {s t : State} {d : Nat} (h : s.TxAt d psFetching) {m : Move} (hmove : perform m s = .next t)
    (hf : t.faults = []) (hboot : isBootMove m = false) (hfetch : moveTakes m .txFetch = false) : t.TxAt d psFetching := by
  cases hclose : moveTakes m .txClose with
  | false => exact h.other hmove hf (by decide) hboot hfetch hclose
  | true =>
    obtain ⟨st, rfl⟩ := moveTakes_txClose_iff.1 hclose
    have hidle : dmaStep (.txClose st) s = s := if_neg (not_enabled (.inr (by rw [h.process]; decide)))
    cases hmove
    exact hidle.symm ▸ h

/-- Until it closes, TXDMA holds the entry: its fetch is not enabled (R213). -/
theorem State.TxAt.holding_kept {s t : State} {d : Nat} (h : s.TxAt d psHolding) {m : Move} (hmove : perform m s = .next t)
    (hf : t.faults = []) (hboot : isBootMove m = false) (hclose : moveTakes m .txClose = false) : t.TxAt d psHolding := by
  cases hfetch : moveTakes m .txFetch with
  | false => exact h.other hmove hf (by decide) hboot hfetch hclose
  | true =>
    obtain rfl := moveTakes_txFetch_iff.1 hfetch
    have hidle : dmaStep .txFetch s = s := if_neg (not_enabled (.inr (by rw [h.process]; decide)))
    cases hmove
    exact hidle.symm ▸ h

/-- The fetch of a DMA-owned entry makes TXDMA hold it (R212). -/
theorem State.TxAt.fetch {s : State} {d : Nat} (h : s.TxAt d psFetching) : (dmaStep .txFetch s).TxAt d psHolding := by
  obtain ⟨hinv, hs, hst, hcur, hps, hown⟩ := h
  have hraced := raced_of_no_fault hs .tx s.txDma
  rw [dmaStep_txFetch hraced hst hps]
  exact ⟨inv_effect hinv hs (.txFetch (txFetchEnabled_iff.2 ⟨hst, hps⟩) hraced) hs, hs, hst, hcur,
    (fetched_eq_holding_iff (by decide)).2 (hcur.symm ▸ hown), hown⟩

/-- The close of the entry TXDMA holds emits its frame (R214). -/
theorem State.TxAt.close_events {s : State} {d : Nat} (h : s.TxAt d psHolding) (st : Word) :
    (dmaStep (.txClose st) s).events = s.events ++ [s.txFrame] := by
  rw [dmaStep_txClose h.faults (txCloseEnabled_iff.2 ⟨h.started, h.process⟩)]
  rfl

/-! ### Fair runs -/

/-- On a weakly fair run an internal step is taken that stays enabled until it is taken (R223). -/
theorem WeaklyFair.taken {run : Nat → State} {moves : Nat → Move} (hfair : WeaklyFair run moves) {x : InternalStep}
    {P : State → Prop} {n : Nat} (hP : P (run n)) (hen : ∀ s, P s → s.internalEnabled x = true)
    (hkeep : ∀ m, n ≤ m → P (run m) → moveTakes (moves m) x = false → P (run (m + 1))) :
    ∃ m, n ≤ m ∧ P (run m) ∧ moveTakes (moves m) x = true := by
  by_contra hnot
  push Not at hnot
  have hall : ∀ m, n ≤ m → P (run m) := fun m hm =>
    Nat.le_induction hP (fun k hk ih => hkeep k hk ih (Bool.eq_false_iff.2 (hnot k hk ih))) m hm
  obtain ⟨m, hm, htaken⟩ := hfair x n fun m hm => hen _ (hall m hm)
  exact hnot m hm (hall m hm) htaken

/-- Settles O58: TXDMA waits at the entry until fairness makes it fetch, and then holds it until fairness makes it close. -/
theorem committedEntryIsEventuallyClosed : Obligations.CommittedEntryIsEventuallyClosed := by
  intro run moves n hrun hfair hboot hf hinv hst hps hown
  have hinv : ∀ m, (run m).Inv := fun m => by
    induction m with
    | zero => exact hinv
    | succ m ih => exact inv_effect ih (hf m) (perform_effect (hrun m)) (hf (m + 1))
  obtain ⟨a, hna, hfetching, htakes⟩ := hfair.taken (P := (State.TxAt · (run n).txDma psFetching)) (x := .txFetch)
    ⟨hinv n, hf n, hst, rfl, hps, hown⟩ (fun _ h => txFetchEnabled_iff.2 ⟨h.started, h.process⟩)
    fun m _ h => h.fetching_kept (hrun m) (hf _) (hboot m)
  have hfetch := hrun a
  rw [moveTakes_txFetch_iff.1 htakes] at hfetch
  have hholding : (run (a + 1)).TxAt (run n).txDma psHolding := Host.Outcome.next.inj hfetch ▸ hfetching.fetch
  obtain ⟨b, hab, hclosing, htakes⟩ := hfair.taken (P := (State.TxAt · (run n).txDma psHolding)) (x := .txClose)
    hholding (fun _ h => txCloseEnabled_iff.2 ⟨h.started, h.process⟩)
    fun m _ h => h.holding_kept (hrun m) (hf _) (hboot m)
  obtain ⟨st, hmove⟩ := moveTakes_txClose_iff.1 htakes
  have hclose := hrun b
  rw [hmove] at hclose
  exact ⟨b, st, (run b).txFrame, by omega, hmove, hclosing.cursor, Host.Outcome.next.inj hclose ▸ hclosing.close_events st⟩

end Sys2Proof.Machine
end

section
/-! PROOF. The interrupt commands (43_irq_control.md): IRQ_ENABLE and IRQ_HANDLE with their whole effect, and the summary NIS
and the output IRQ (R36) that follow from it. -/

namespace Sys2Proof.Machine

/-! ### What the enables and the latches make of NIS and IRQ -/

/-- With the three enables set, DMAIER is TIE, RIE and NISE at their bits (R104). -/
theorem dmaierWord_of_enabled {s : State} (h : s.dmaier = { tie := true, rie := true, nise := true }) :
    s.dmaierWord = 0x00010041#32 := by
  rw [State.dmaierWord, h]
  rfl

/-- With the three enables set, IRQ follows the latches (R36, R242). -/
theorem irq_of_enabled {s : State} (h : s.dmaier = { tie := true, rie := true, nise := true }) :
    s.irq = (s.dmasr.rs || s.dmasr.ts) := by
  simp [State.irq, State.nis, h, Bool.or_comm]

/-- With both latches clear there is no summary, whatever is enabled (R36). -/
theorem nis_of_latches_clear {s : State} (hrs : s.dmasr.rs = false) (hts : s.dmasr.ts = false) : s.nis = false := by
  simp [State.nis, hrs, hts]

/-- With no summary there is no interrupt (R36). -/
theorem irq_of_nis_clear {s : State} (h : s.nis = false) : s.irq = false := by
  simp [State.irq, h]

/-! ### IRQ_ENABLE -/

theorem execIrqEnable_ok (s : State) : exec .irqEnable s =
    .next (State.finish { s with dmaier := { tie := true, rie := true, nise := true } } .ok 0 0 0#32) := rfl

/-- Settles O20: the command's state has the three enables set and the latches of before, which give DMAIER and IRQ. -/
theorem irqEnableSetsEnables : Obligations.IrqEnableSetsEnables :=
  ⟨decode_encode (i := .irqEnable) trivial, fun s =>
    ⟨_, execIrqEnable_ok s, hasResult_finish .., dmaierWord_of_enabled rfl, irq_of_enabled rfl, rfl⟩⟩

/-! ### IRQ_HANDLE -/

theorem execIrqHandle_ok (s : State) : exec .irqHandle s =
    .next (State.finish { s with dmasr := { s.dmasr with ts := false, rs := false } } .ok 0 0 0#32) := rfl

/-- Settles O21: the command's state has both latches clear, so that NIS is 0 and, by it, IRQ. -/
theorem irqHandleClearsLatches : Obligations.IrqHandleClearsLatches := by
  refine ⟨decode_encode (i := .irqHandle) trivial, fun s => ?_⟩
  have hnis : State.nis (State.finish { s with dmasr := { s.dmasr with ts := false, rs := false } } .ok 0 0 0#32) = false :=
    nis_of_latches_clear rfl rfl
  exact ⟨_, execIrqHandle_ok s, hasResult_finish .., hnis, irq_of_nis_clear hnis, rfl⟩

end Sys2Proof.Machine
end

section
/-! PROOF. Outcomes and their frames (60_exceptions.md): which words are Illegal (R109, R251), what every command leaves alone
(R250), and that RXDMA and TXDMA share no state (R262). -/

namespace Sys2Proof.Machine

/-! ### The words that are Illegal (R109) -/

/-- The OPs of the table of R107. -/
def listedOpcodes : List (BitVec 8) :=
  [0x01#8, 0x02#8, 0x03#8, 0x04#8, 0x05#8, 0x11#8, 0x12#8, 0x13#8, 0x14#8, 0x15#8, 0x21#8, 0x22#8]

theorem opcode_mem_listed (i : Instr) : opcode i ∈ listedOpcodes := by
  cases i <;> simp [opcode, listedOpcodes]

/-- An OP of the table names a command, whatever IMM is (R107). -/
theorem commandOf_of_listed {op : BitVec 8} (h : op ∈ listedOpcodes) (imm : BitVec 16) : ∃ i, commandOf op imm = some i := by
  simp only [listedOpcodes, List.mem_cons, List.not_mem_nil, or_false] at h
  rcases h with rfl | rfl | rfl | rfl | rfl | rfl | rfl | rfl | rfl | rfl | rfl | rfl <;> exact ⟨_, rfl⟩

theorem commandOf_eq_none_iff {op : BitVec 8} {imm : BitVec 16} : commandOf op imm = none ↔ op ∉ listedOpcodes := by
  constructor
  · intro hnone hop
    obtain ⟨i, hi⟩ := commandOf_of_listed hop imm
    cases hnone.symm.trans hi
  · intro hop
    cases hi : commandOf op imm with
    | none => rfl
    | some i =>
      obtain ⟨rfl, -, -⟩ := commandOf_fields hi
      exact absurd (opcode_mem_listed i) hop

/-- A word is Illegal by its OP, its RSV or its IMM (R109). -/
theorem decode_illegal_iff {v : Word} :
    (∃ why, decode v = .illegal why) ↔
      opField v ∉ listedOpcodes ∨ rsvField v ≠ 0#8 ∨ (opField v ≠ 0x12#8 ∧ immField v ≠ 0#16) := by
  unfold decode
  split
  · next hnone => exact ⟨fun _ => .inl (commandOf_eq_none_iff.1 hnone), fun _ => ⟨_, rfl⟩⟩
  · next i hi =>
    have hlisted : ¬ opField v ∉ listedOpcodes := fun hop => by cases hi.symm.trans (commandOf_eq_none_iff.2 hop)
    rw [or_iff_right hlisted]
    split_ifs with hrsv himm
    · exact ⟨fun _ => .inl hrsv, fun _ => ⟨_, rfl⟩⟩
    · exact ⟨fun _ => .inr himm, fun _ => ⟨_, rfl⟩⟩
    · exact ⟨nofun, fun h => (not_or.2 ⟨hrsv, himm⟩ h).elim⟩

/-- Illegal writes the result registers only (R251). -/
theorem execIllegal_eq (s : State) :
    execIllegal s = .next { s with res := 0x00000008#32, resAddr := 0#32, resUse := .unread } := rfl

/-- Settles O3: Decode looks at OP, then RSV, then IMM, and an Illegal word means Illegal's reply. -/
theorem illegalWords : Obligations.IllegalWords := fun _ =>
  ⟨decode_illegal_iff, fun _ s h => (execWord_illegal h s).trans (execIllegal_eq s)⟩

/-! ### What every command leaves alone (R250) -/

/-- What no command writes: the parameters, the output events, the CPU's record and its flag, the faults, the boot phase and the
model's own fields. -/
structure Surroundings where
  cfg : Config
  events : List TxFrame
  reads : List CpuRead
  faults : List Recorded
  cpuStuck : Bool
  boot : Boot
  agenda : List Move
  draws : Nat

/-- The surroundings of a state. -/
def State.surroundings (s : State) : Surroundings where
  cfg := s.cfg
  events := s.events
  reads := s.reads
  faults := s.faults
  cpuStuck := s.cpuStuck
  boot := s.boot
  agenda := s.agenda
  draws := s.draws

theorem startRx_surroundings (s : State) : s.startRx.surroundings = s.surroundings := by
  rw [startRx_eq]
  rfl

theorem handBackRx_surroundings (s : State) (i : Nat) : (s.handBackRx i).surroundings = s.surroundings := by
  rw [handBackRx_eq]
  rfl

theorem recycleRx_surroundings (s : State) : s.recycleRx.surroundings = s.surroundings :=
  handBackRx_surroundings s s.rxNext

theorem writeDmatpdr_surroundings (s : State) (v : Word) : (s.writeDmatpdr v).surroundings = s.surroundings := by
  rw [writeDmatpdr_eq]
  rfl

/-- The outcome is a reply made in a state with the surroundings of `s`. -/
def RepliesIn (s : State) (o : Result) : Prop :=
  ∃ (u : State) (c : Code) (i v : Nat) (a : Addr), o = reply u c i v a ∧ u.surroundings = s.surroundings

theorem repliesIn_reply {s u : State} (h : u.surroundings = s.surroundings) (c : Code) (i v : Nat) (a : Addr) :
    RepliesIn s (reply u c i v a) := ⟨u, c, i, v, a, rfl, h⟩

theorem execRxRecvNext_repliesIn (s : State) : RepliesIn s (execRxRecvNext s) := by
  unfold execRxRecvNext
  split_ifs
  · exact repliesIn_reply rfl ..
  · exact repliesIn_reply rfl ..
  · exact repliesIn_reply rfl ..
  · exact repliesIn_reply rfl ..
  · exact repliesIn_reply (recycleRx_surroundings s) ..

theorem execTxSend_repliesIn (len : Nat) (s : State) : RepliesIn s (execTxSend len s) := by
  unfold execTxSend
  split_ifs <;> exact repliesIn_reply rfl ..

/-- Every command ends in a reply, and writes nothing of the surroundings before it (R111, R250). -/
theorem exec_repliesIn (i : Instr) (s : State) : RepliesIn s (exec i s) := by
  cases i with
  | rxStart =>
    simp only [exec, execRxStart]
    split_ifs
    · exact repliesIn_reply rfl ..
    · exact repliesIn_reply (startRx_surroundings s) ..
  | rxRecvNext => exact execRxRecvNext_repliesIn s
  | rxRelease =>
    simp only [exec, execRxRelease]
    split
    · exact repliesIn_reply rfl ..
    · exact repliesIn_reply (by exact handBackRx_surroundings s _) ..
  | txStart =>
    simp only [exec, execTxStart]
    split_ifs <;> exact repliesIn_reply rfl ..
  | txSend len => exact execTxSend_repliesIn len s
  | txCommit =>
    simp only [exec, execTxCommit]
    split <;> exact repliesIn_reply rfl ..
  | txDemandPoll => exact repliesIn_reply (writeDmatpdr_surroundings s _) ..
  | rxRunningState | rxIsRunning | txIsRunning | irqEnable | irqHandle => exact repliesIn_reply rfl ..

/-- Settles O8: a reply goes on, its code is the CODE of RES, and it writes the result registers only. -/
theorem everyCommandCompletes : Obligations.EveryCommandCompletes := by
  intro i s
  obtain ⟨u, c, index, value, a, hexec, hkept⟩ := exec_repliesIn i s
  obtain ⟨hcode, -⟩ := resultWord_fields c index value
  obtain ⟨hcfg, hevents, hreads, hfaults, hstuck, hboot, hagenda, hdraws⟩ := Surroundings.mk.inj hkept
  exact ⟨_, hexec, rfl, ⟨c, hcode⟩, hcfg, hevents, hreads, hfaults, hstuck, hboot, hagenda, hdraws⟩

/-! ### Writes at different addresses commute -/

/-- Bytes at different addresses may be written in either order: each finds its place in the list without the other. -/
theorem put_comm (m : Memory) {a b : Nat} (hne : a ≠ b) (x y : Byte) :
    Memory.put (Memory.put m a x) b y = Memory.put (Memory.put m b y) a x := by
  induction m with
  | nil => grind [Memory.put]
  | cons c m ih =>
    obtain ⟨k, v⟩ := c
    grind [Memory.put]

/-- A byte written outside the addresses of a run of bytes may be written before it or after it. -/
theorem put_putBytes_comm (m : Memory) {a x : Addr} {bs : List Byte} (ha : a.toNat + bs.length ≤ 2 ^ 32)
    (hx : x.toNat < a.toNat ∨ a.toNat + bs.length ≤ x.toNat) (b : Byte) :
    Memory.put (Memory.putBytes m a bs) x.toNat b = Memory.putBytes (Memory.put m x.toNat b) a bs := by
  induction bs generalizing m a with
  | nil => rfl
  | cons c bs ih =>
    rw [List.length_cons] at ha hx
    have hnext : (a + 1#32).toNat = (a.toNat + 1) % 2 ^ 32 := BitVec.toNat_add _ _
    rw [Memory.putBytes, Memory.putBytes, ih _ (by omega) (by omega), put_comm m (by omega)]

/-- Runs of bytes that share no address may be written in either order. -/
theorem putBytes_comm (m : Memory) {a b : Addr} {as bs : List Byte} (ha : a.toNat + as.length ≤ 2 ^ 32)
    (hb : b.toNat + bs.length ≤ 2 ^ 32)
    (hapart : a.toNat + as.length ≤ b.toNat ∨ b.toNat + bs.length ≤ a.toNat) :
    Memory.putBytes (Memory.putBytes m a as) b bs = Memory.putBytes (Memory.putBytes m b bs) a as := by
  induction as generalizing m a with
  | nil => rfl
  | cons c as ih =>
    rw [List.length_cons] at ha hapart
    have hnext : (a + 1#32).toNat = (a.toNat + 1) % 2 ^ 32 := BitVec.toNat_add _ _
    rw [Memory.putBytes, Memory.putBytes, ih _ (by omega) (by omega), put_putBytes_comm m hb (by omega)]

section
variable {s : State} (hc : configOk s.cfg = true) {r q : Ring} {i j : Nat} (hi : i < ringSize s.cfg r)
  (hj : j < ringSize s.cfg q)
include hc hi hj

/-- A word 0 and bytes of a buffer may be written in either order (R9). -/
theorem putBytes_buffer_putWord0_comm {bs : List Byte} (hlen : bs.length ≤ s.cfg.cap) (m : Memory) (v : Word) :
    Memory.putBytes (Memory.putWord m (descWordAddr s.cfg r i 0) v) (bufAddr s.cfg q j) bs =
      Memory.putWord (Memory.putBytes m (bufAddr s.cfg q j) bs) (descWordAddr s.cfg r i 0) v := by
  have hdesc := (desc_bounds hc hi).2
  have hbuf := (buf_bounds hc hj).2
  have hword := descWordAddr_toNat hc hi (k := 0) (by decide)
  have hapart := desc_buf hc hi hj
  exact putBytes_comm m (by rw [wordBytes_length]; omega) (by omega) (by rw [wordBytes_length]; omega)

/-- The words 0 of two entries may be written in either order (R9). -/
theorem putWord0_comm (hne : r ≠ q ∨ i ≠ j) (m : Memory) (v w : Word) :
    Memory.putWord (Memory.putWord m (descWordAddr s.cfg r i 0) v) (descWordAddr s.cfg q j 0) w =
      Memory.putWord (Memory.putWord m (descWordAddr s.cfg q j 0) w) (descWordAddr s.cfg r i 0) v := by
  have hdesc := (desc_bounds hc hi).2
  have hdesc' := (desc_bounds hc hj).2
  have hword := descWordAddr_toNat hc hi (k := 0) (by decide)
  have hword' := descWordAddr_toNat hc hj (k := 0) (by decide)
  have hapart := desc_desc hc hi hj hne
  exact putBytes_comm m (by rw [wordBytes_length]; omega) (by rw [wordBytes_length]; omega)
    (by rw [wordBytes_length, wordBytes_length]; omega)

end

/-! ### RXDMA and TXDMA share no state (R262) -/

/-- The step of a DMA agent is enabled (R202, R203, R212, R213). -/
def dmaEnabled : DmaMove → State → Bool
  | .rxFetch => State.rxFetchEnabled
  | .rxDeposit _ _ => State.rxDepositEnabled
  | .txFetch => State.txFetchEnabled
  | .txClose _ => State.txCloseEnabled

/-- What the step does on an entry with no race recorded. -/
def dmaEffect : DmaMove → State → State
  | .rxFetch => State.rxFetch
  | .rxDeposit frame st => fun s => s.rxDeposit frame st
  | .txFetch => State.txFetch
  | .txClose st => fun s => s.txClose st

theorem dmaEffect_faults (m : DmaMove) (s : State) : (dmaEffect m s).faults = s.faults := by cases m <;> rfl

/-- With no fault recorded a move is its step where that is enabled, else nothing (log 2). -/
theorem dmaStep_of_no_fault {s : State} (hf : s.faults = []) (m : DmaMove) :
    dmaStep m s = if dmaEnabled m s then dmaEffect m s else s := by
  cases m <;> simp only [dmaStep, rxStep_of_no_fault hf, txStep_of_no_fault hf] <;> rfl

/-- Two moves commute where neither enables or disables the other's step, and the steps commute where both are enabled. -/
theorem dmaStep_comm {a b : DmaMove} {s : State} (hf : s.faults = []) (ha : dmaEnabled a (dmaEffect b s) = dmaEnabled a s)
    (hb : dmaEnabled b (dmaEffect a s) = dmaEnabled b s)
    (hcomm : dmaEnabled a s = true → dmaEnabled b s = true → dmaEffect a (dmaEffect b s) = dmaEffect b (dmaEffect a s)) :
    dmaStep a (dmaStep b s) = dmaStep b (dmaStep a s) := by
  have hfa := dmaStep_of_no_fault ((dmaEffect_faults a s).trans hf)
  have hfb := dmaStep_of_no_fault ((dmaEffect_faults b s).trans hf)
  by_cases hena : dmaEnabled a s = true <;> by_cases henb : dmaEnabled b s = true
  · simp [dmaStep_of_no_fault hf, hfa, hfb, ha, hb, hena, henb, hcomm hena henb]
  · simp [dmaStep_of_no_fault hf, hfa, hb, hena, henb]
  · simp [dmaStep_of_no_fault hf, hfb, ha, hena, henb]
  · simp [dmaStep_of_no_fault hf, hena, henb]

/-- The frame of a close on an entry whose words 1 and 2 are as TX_COMMIT and TX_START left them (R170, R175, R214). -/
theorem txFrame_of_links {s : State} (hl : layoutOk s.cfg = true) {len : Nat} (hlen : len ≤ s.cfg.cap)
    (hword1 : s.desc .tx s.txDma 1 = txW1 s.cfg len) (hword2 : s.desc .tx s.txDma 2 = bufAddr s.cfg .tx s.txDma) :
    s.txFrame = ⟨s.txDma, s.bytesAt (bufAddr s.cfg .tx s.txDma) len⟩ := by
  rw [State.txFrame, hword1, hword2, txLen_txW1 hl hlen]

/-- A deposit and a close of `s`, in either order, over the memory they leave: `event` is emitted, and the entry closed had the
word 0 `w0` (R205, R214). -/
def State.depositedAndClosed (s : State) (mem : Memory) (event : TxFrame) (w0 : Word) : State :=
  { s with
    mem := mem
    events := s.events ++ [event]
    dmasr := { rs := true, rps := psFetching, ts := s.dmasr.ts || icBit s.cfg w0, tps := psFetching }
    rxDma := nextIndex s.cfg .rx s.rxDma
    txDma := nextIndex s.cfg .tx s.txDma }

theorem rxFetch_txFetch_comm (s : State) : s.txFetch.rxFetch = s.rxFetch.txFetch := rfl

section
variable {s : State} (hinv : s.Inv)
include hinv

/-- A close leaves word 0 of the entry RXDMA fetches. -/
theorem rxFetch_txClose_comm (tst : Word) : (s.txClose tst).rxFetch = s.rxFetch.txClose tst := by
  obtain ⟨-, hrxd, -, htxd, -, -⟩ := hinv.cursors
  obtain ⟨-, hother⟩ := txClose_desc hinv.config htxd tst
  have hown : (s.txClose tst).ownedByDma .rx s.rxDma = s.ownedByDma .rx s.rxDma :=
    owned_of_desc rfl (hother _ _ _ hrxd (by decide) (.inl (by decide)))
  exact congrArg (fun own => (s.txClose tst).setRps (fetched own rpsSuspended)) hown

variable (hsr : s.dmaomr.sr = true)
include hsr

/-- A deposit leaves every descriptor word of the Tx ring (R205). -/
theorem rxDeposit_txDesc (frame : List Byte) (rst : Word) {k : Nat} (hk : k < 4) :
    (s.rxDeposit frame rst).desc .tx s.txDma k = s.desc .tx s.txDma k := by
  obtain ⟨-, hrxd, -, htxd, -, -⟩ := hinv.cursors
  exact (rxDeposit_desc hinv.config hrxd (hinv.rxBuffer hsr hrxd) frame rst).2 _ _ _ htxd hk (.inl (by decide))

/-- A deposit leaves word 0 of the entry TXDMA fetches. -/
theorem rxDeposit_txFetch_comm (frame : List Byte) (rst : Word) :
    s.txFetch.rxDeposit frame rst = (s.rxDeposit frame rst).txFetch := by
  have hown : (s.rxDeposit frame rst).ownedByDma .tx s.txDma = s.ownedByDma .tx s.txDma :=
    owned_of_desc rfl (rxDeposit_txDesc hinv hsr frame rst (by decide))
  exact (congrArg (fun own => (s.rxDeposit frame rst).setTps (fetched own tpsSuspended)) hown).symm

/-- A deposit leaves the frame TXDMA is about to send (R214): it lies in another entry than the deposit's. -/
theorem rxDeposit_txFrame (hst : s.dmaomr.st = true) (frame : List Byte) (rst : Word) :
    (s.rxDeposit frame rst).txFrame = s.txFrame := by
  have hc := hinv.config
  have hl := layout_ok hc
  obtain ⟨-, hrxd, -, htxd, -, -⟩ := hinv.cursors
  obtain ⟨⟨len, hlen, hword1⟩, hword2, -⟩ := (hinv.links.2 hst).2 _ htxd
  have hdesc : ∀ {k}, k < 4 → (s.rxDeposit frame rst).desc .tx s.txDma k = s.desc .tx s.txDma k :=
    rxDeposit_txDesc hinv hsr frame rst
  have hbytes : ∀ x, InEntry s.cfg .tx s.txDma x → (s.rxDeposit frame rst).byteAt x = s.byteAt x := fun x hx =>
    rxDeposit_byteAt hc hrxd (hinv.rxBuffer hsr hrxd) frame rst fun hy => by
      cases (inEntry_unique hc hrxd htxd hy hx).1
  calc (s.rxDeposit frame rst).txFrame
    _ = ⟨s.txDma, (s.rxDeposit frame rst).bytesAt (bufAddr s.cfg .tx s.txDma) len⟩ :=
      txFrame_of_links (s := s.rxDeposit frame rst) hl hlen ((hdesc (by decide)).trans hword1)
        ((hdesc (by decide)).trans hword2)
    _ = ⟨s.txDma, s.bytesAt (bufAddr s.cfg .tx s.txDma) len⟩ :=
      congrArg (TxFrame.mk s.txDma) (bytesAt_of_entry_bytes hc htxd hbytes hlen)
    _ = s.txFrame := (txFrame_of_links hl hlen hword1 hword2).symm

/-- What a deposit writes and what a close writes lie apart, and neither step changes what the other reads. -/
theorem rxDeposit_txClose_mem (frame : List Byte) (rst tst : Word) :
    ((s.txClose tst).rxDeposit frame rst).mem = ((s.rxDeposit frame rst).txClose tst).mem := by
  have hc := hinv.config
  obtain ⟨-, hrxd, -, htxd, -, -⟩ := hinv.cursors
  obtain ⟨-, hother⟩ := txClose_desc hc htxd tst
  have hbuf := hinv.rxBuffer hsr hrxd
  have hword2 : (s.txClose tst).desc .rx s.rxDma 2 = bufAddr s.cfg .rx s.rxDma :=
    (hother _ _ _ hrxd (by decide) (.inl (by decide))).trans hbuf
  have hword0 := rxDeposit_txDesc hinv hsr frame rst (k := 0) (by decide)
  calc ((s.txClose tst).rxDeposit frame rst).mem
    _ = Memory.putWord (Memory.putBytes (s.txClose tst).mem (bufAddr s.cfg .rx s.rxDma) (frame.take s.cfg.cap))
          (descWordAddr s.cfg .rx s.rxDma 0) (rxDepositW0 s.cfg frame.length rst) := by rw [← hword2]; rfl
    _ = Memory.putWord (Memory.putWord (Memory.putBytes s.mem (bufAddr s.cfg .rx s.rxDma) (frame.take s.cfg.cap))
          (descWordAddr s.cfg .rx s.rxDma 0) (rxDepositW0 s.cfg frame.length rst))
          (descWordAddr s.cfg .tx s.txDma 0) (txCloseW0 s.cfg (s.desc .tx s.txDma 0) tst) := by
      rw [txClose_mem, putBytes_buffer_putWord0_comm hc htxd hrxd (List.length_take_le ..),
        putWord0_comm hc htxd hrxd (.inl (by decide))]
    _ = Memory.putWord (s.rxDeposit frame rst).mem (descWordAddr s.cfg .tx s.txDma 0)
          (txCloseW0 s.cfg ((s.rxDeposit frame rst).desc .tx s.txDma 0) tst) := by
      rw [rxDeposit_mem, hbuf, hword0]
    _ = ((s.rxDeposit frame rst).txClose tst).mem := rfl

/-- Both steps write their own registers only, and give the other the values it would have read before (R262). -/
theorem rxDeposit_txClose_comm (hst : s.dmaomr.st = true) (frame : List Byte) (rst tst : Word) :
    (s.txClose tst).rxDeposit frame rst = (s.rxDeposit frame rst).txClose tst := by
  have hmem := rxDeposit_txClose_mem hinv hsr frame rst tst
  have hframe := rxDeposit_txFrame hinv hsr hst frame rst
  have hword0 := rxDeposit_txDesc hinv hsr frame rst (k := 0) (by decide)
  calc (s.txClose tst).rxDeposit frame rst
    _ = s.depositedAndClosed ((s.txClose tst).rxDeposit frame rst).mem s.txFrame (s.desc .tx s.txDma 0) := rfl
    _ = s.depositedAndClosed ((s.rxDeposit frame rst).txClose tst).mem (s.rxDeposit frame rst).txFrame
        ((s.rxDeposit frame rst).desc .tx s.txDma 0) := by rw [hmem, hframe, hword0]
    _ = (s.rxDeposit frame rst).txClose tst := rfl

end

/-- Settles O60: neither agent's step enables or disables the other's, and each pair of enabled steps commutes. -/
theorem rxAndTxStepsCommute : Obligations.RxAndTxStepsCommute := by
  intro s frame rst tst a b hinv _ hf ha hb
  obtain ⟨rfl | rfl, rfl | rfl⟩ := And.intro ha hb
  · exact dmaStep_comm hf rfl rfl fun _ _ => rxFetch_txFetch_comm s
  · exact dmaStep_comm hf rfl rfl fun _ _ => rxFetch_txClose_comm hinv tst
  · refine dmaStep_comm hf rfl rfl fun hen _ => ?_
    obtain ⟨hsr, -⟩ := rxDepositEnabled_iff.1 hen
    exact rxDeposit_txFetch_comm hinv hsr frame rst
  · refine dmaStep_comm hf rfl rfl fun hrx htx => ?_
    obtain ⟨hsr, -⟩ := rxDepositEnabled_iff.1 hrx
    obtain ⟨hst, -⟩ := txCloseEnabled_iff.1 htx
    exact rxDeposit_txClose_comm hinv hsr hst frame rst tst

end Sys2Proof.Machine
end

section
/-! PROOF. Reset, boot and the end of a run (70_reset_and_hazards.md): what leads to a launch state (R284), the soft reset and the
facade's wait for it (R281 to R283, R286), a ring before its START (R282), and when the block is quiescent (R285). -/

namespace Sys2Proof.Machine

/-! ### The launch states (R284) -/

/-- The reset state meets the block's invariant: no ring is started, no window is open, and every cursor is 0 (R42, R280). -/
theorem State.Fresh.inv {s : State} (h : s.Fresh) : s.Inv := by
  obtain ⟨c, mem, agenda, draws, hc, -, rfl⟩ := h
  have hpos (r : Ring) : 0 < ringSize c r := ringSize_pos hc r
  exact {
    config := hc
    process := ⟨rfl, rfl⟩
    cursors := ⟨hpos .rx, hpos .rx, hpos .tx, hpos .tx, nofun, nofun⟩
    links := ⟨nofun, nofun⟩
    rxRing := nofun
    txRing := nofun }

theorem State.Fresh.wf {s : State} (h : s.Fresh) : Memory.wf s.mem = true := by
  obtain ⟨c, mem, agenda, draws, -, hwf, rfl⟩ := h
  exact hwf

theorem reset_fresh : State.reset.Fresh := ⟨Config.default, [], [], 0, by decide +kernel, rfl, rfl⟩

/-- Steps keep the invariant up to a state with no fault recorded, since none was recorded before it (R230, R231, R255). -/
theorem Reached.inv {s t : State} (h : Reached s t) (hinv : s.Inv) (hf : t.faults = []) : t.Inv := by
  induction h with
  | refl => exact hinv
  | step _ hs ih => exact stepKeepsRingInvariants _ _ (ih (no_fault_before_step hs hf)) hs hf

/-- Steps keep memory in its canonical form. -/
theorem Reached.wf {s t : State} (h : Reached s t) (hwf : Memory.wf s.mem = true) : Memory.wf t.mem = true := by
  induction h with
  | refl => exact hwf
  | step _ hs ih => exact stepKeepsMemoryCanonical _ _ ih hs

/-- Settles O47: the reset state meets both, and every step of a run without faults keeps both. -/
theorem launchMeetsInvariants : Obligations.LaunchMeetsInvariants := by
  refine ⟨?_, ⟨_, reset_fresh, .refl⟩, rfl⟩
  rintro s ⟨⟨s₀, hfresh, hreach⟩, hf⟩
  exact ⟨hreach.inv hfresh.inv hf, hreach.wf hfresh.wf⟩

/-! ### The soft reset and the wait for it (R281, R283, R286) -/

/-- The state with the facade's wait at `b`. -/
def State.withBoot (s : State) (b : Boot) : State := { s with boot := b }

/-- After the first command no move of the platform or the facade acts (R286). -/
theorem bootStep_of_commandDone {s : State} (h : s.commandDone = true) (b : BootMove) : bootStep b s = s := if_pos h

/-- A facade that has given up has given up at every later check (R283). -/
theorem givesUp_succ {b : Option Nat} {n : Nat} (h : givesUp b n = true) : givesUp b (n + 1) = true := by
  cases b with
  | none => exact h
  | some k =>
    have hk : k ≤ n := of_decide_eq_true h
    exact decide_eq_true (Nat.le_succ_of_le hk)

section
variable {s : State} (h : s.commandDone = false)
include h

theorem bootStep_request : bootStep .request s = s.withBoot (waitAfter s.cfg.softResetBound 0) := by
  simp [bootStep, h, State.withBoot]

/-- The completion bit has cleared (R281). -/
theorem bootStep_check_true {n : Nat} (hb : s.boot = .waiting n) : bootStep (.check true) s = s.softReset := by
  simp [bootStep, h, hb]

theorem bootStep_check_false_of_waiting {n : Nat} (hb : s.boot = .waiting n) :
    bootStep (.check false) s = s.withBoot (waitAfter s.cfg.softResetBound (n + 1)) := by
  simp [bootStep, h, hb, State.withBoot]

/-- A facade that has given up checks no more (log 10). -/
theorem bootStep_check_of_failed (hb : s.boot = .failed) (cleared : Bool) : bootStep (.check cleared) s = s := by
  simp [bootStep, h, hb]

/-- One more unsuccessful check: it is counted, or the facade gave up before it. -/
theorem bootStep_check_false_waitAfter (n : Nat) :
    bootStep (.check false) (s.withBoot (waitAfter s.cfg.softResetBound n)) =
      s.withBoot (waitAfter s.cfg.softResetBound (n + 1)) := by
  cases hg : givesUp s.cfg.softResetBound n with
  | false =>
    have hwaiting : waitAfter s.cfg.softResetBound n = .waiting n := by simp [waitAfter, hg]
    rw [hwaiting]
    exact bootStep_check_false_of_waiting (s := s.withBoot (.waiting n)) h rfl
  | true =>
    have hfailed : waitAfter s.cfg.softResetBound n = .failed := by simp [waitAfter, hg]
    have hstill : waitAfter s.cfg.softResetBound (n + 1) = .failed := by simp [waitAfter, givesUp_succ hg]
    rw [hfailed, hstill]
    exact bootStep_check_of_failed (s := s.withBoot .failed) h rfl false

/-- Where the wait stands after `n` unsuccessful checks (R283). -/
theorem afterChecks_eq (n : Nat) : afterChecks n s = .next (s.withBoot (waitAfter s.cfg.softResetBound n)) := by
  induction n with
  | zero => exact congrArg _ (bootStep_request h)
  | succ n ih =>
    rw [afterChecks, ih, andThen_next]
    exact congrArg _ (bootStep_check_false_waitAfter h n)

end

theorem waitAfter_none (n : Nat) : waitAfter none n = .waiting n := rfl

theorem waitAfter_some (k n : Nat) : waitAfter (some k) n = if n < k then .waiting n else .failed := by
  by_cases hlt : n < k
  · simp [waitAfter, givesUp, hlt]
  · simp [waitAfter, givesUp, hlt, Nat.le_of_not_lt hlt]

/-- Settles O41: a check that finds the bit clear is the soft reset, which leaves memory as it is. -/
theorem softResetIsReset : Obligations.SoftResetIsReset :=
  ⟨fun s _ h hb => ⟨s.softReset, congrArg Host.Outcome.next (bootStep_check_true h hb), fun _ => rfl, rfl⟩,
    fun _ b h => congrArg Host.Outcome.next (bootStep_of_commandDone h b)⟩

/-! ### A CPU agent that cannot step (R65, R283) -/

theorem cpuReady_of_booting {s : State} (h : s.boot ≠ .done) : s.cpuReady = false := by simp [State.cpuReady, h]

/-- A step leaves the moves of a CPU agent that cannot step in the agenda. -/
theorem step_cpuMoves {s t : State} (hready : s.cpuReady = false) (h : step s = .next t) : t.cpuMoves = s.cpuMoves := by
  unfold step at h
  split_ifs at h
  have hagenda : t.agenda = s.choose.2.agenda :=
    agenda_effect (s := s.choose.2.redraw) (perform_effect h)
  calc t.cpuMoves = s.choose.2.cpuMoves := congrArg (List.filter isCpuMove) hagenda
    _ = s.cpuMoves := choose_cpuMoves hready

theorem programEnded_of_not_ready {s : State} (h : s.cpuReady = false) : s.programEnded = false := by
  simp [State.programEnded, h]

/-- Settles O42: the wait stands where `waitAfter` says, and while it is not over the CPU agent cannot step. -/
theorem softResetBound : Obligations.SoftResetBound := by
  refine ⟨fun s n h hbound => ?_, fun s k n h hbound => ?_, fun s hboot => ?_⟩
  · rw [afterChecks_eq h, hbound, waitAfter_none]
    rfl
  · rw [afterChecks_eq h, hbound, waitAfter_some]
    rfl
  · have hready := cpuReady_of_booting hboot
    have hended := programEnded_of_not_ready hready
    refine ⟨fun x => ?_, hended, ?_, fun t => step_cpuMoves hready⟩
    · simp [perform, cpuAccess, hready]
    · simp [State.quiescent, hended]

/-! ### A ring before its START (R282) -/

theorem onlyOutcome_finish (s : State) (c : Code) : OnlyOutcome s (s.finish c 0 0 0#32) c := rfl

section
variable {s : State} (hps : s.ProcessOk)
include hps

theorem State.ProcessOk.rps_stopped (h : s.dmaomr.sr = false) : s.dmasr.rps = psStopped := by
  simpa [h] using hps.1

theorem State.ProcessOk.tps_stopped (h : s.dmaomr.st = false) : s.dmasr.tps = psStopped := by
  simpa [h] using hps.2

/-- RX_RUNNING_STATE reports Stopped, whose code is 0 (R103, R115). -/
theorem execRxRunningState_stopped (h : s.dmaomr.sr = false) :
    exec .rxRunningState s = .next (s.finish .ok 0 0 0#32) := by
  rw [exec, execRxRunningState, hps.rps_stopped h]
  rfl

/-- RX_IS_RUNNING reports 0 (R150). -/
theorem execRxIsRunning_stopped (h : s.dmaomr.sr = false) : exec .rxIsRunning s = .next (s.finish .ok 0 0 0#32) := by
  rw [exec, execRxIsRunning, hps.rps_stopped h]
  rfl

/-- TX_IS_RUNNING reports 0 (R179). -/
theorem execTxIsRunning_stopped (h : s.dmaomr.st = false) : exec .txIsRunning s = .next (s.finish .ok 0 0 0#32) := by
  rw [exec, execTxIsRunning, hps.tps_stopped h]
  rfl

end

/-- A poll demand has no effect on a ring that is not started (R221). -/
theorem execTxDemandPoll_not_started {s : State} (h : s.dmaomr.st = false) :
    exec .txDemandPoll s = .next (s.finish .ok 0 0 0#32) := by
  have hkept : tpsAfterPoll s = s.dmasr.tps := by simp [tpsAfterPoll, h]
  rw [execTxDemandPoll_ok, hkept]
  rfl

section
variable {s : State} (hcur : s.CursorsOk)
include hcur

/-- No Rx window is open on a ring that is not started (R34). -/
theorem State.CursorsOk.rxToken_none (h : s.dmaomr.sr = false) : s.rxToken = none := by
  obtain ⟨-, -, -, -, hrx, -⟩ := hcur
  refine Option.eq_none_iff_forall_ne_some.2 fun w hw => ?_
  obtain ⟨hsr, -⟩ := hrx w hw
  exact Bool.false_ne_true (h.symm.trans hsr)

/-- No Tx window is open on a ring that is not started (R35). -/
theorem State.CursorsOk.txToken_none (h : s.dmaomr.st = false) : s.txToken = none := by
  obtain ⟨-, -, -, -, -, htx⟩ := hcur
  refine Option.eq_none_iff_forall_ne_some.2 fun w hw => ?_
  obtain ⟨hst, -⟩ := htx w hw
  exact Bool.false_ne_true (h.symm.trans hst)

end

/-- Settles O40: a ring that is not started has no window and its process is Stopped, so that each command only replies. -/
theorem beforeStartARingIsInert : Obligations.BeforeStartARingIsInert := fun s hps hcur =>
  ⟨fun hsr =>
    ⟨⟨_, execRxRecvNext_state hsr, onlyOutcome_finish s _⟩,
      ⟨_, execRxRelease_noToken (hcur.rxToken_none hsr), onlyOutcome_finish s _⟩,
      ⟨_, execRxRunningState_stopped hps hsr, onlyOutcome_finish s _⟩,
      ⟨_, execRxIsRunning_stopped hps hsr, onlyOutcome_finish s _⟩⟩,
    fun hst =>
    ⟨fun _ => ⟨_, execTxSend_state hst, onlyOutcome_finish s _⟩,
      ⟨_, execTxCommit_noToken (hcur.txToken_none hst), onlyOutcome_finish s _⟩,
      ⟨_, execTxDemandPoll_not_started hst, onlyOutcome_finish s _⟩,
      ⟨_, execTxIsRunning_stopped hps hst, onlyOutcome_finish s _⟩⟩⟩

/-! ### Quiescence (R285) -/

theorem isCpuMove_iff {m : Move} : isCpuMove m = true ↔ ∃ x, m = .cpu x := by
  cases m <;> simp [isCpuMove]

/-- No access of the CPU is left in the agenda. -/
theorem cpuMoves_eq_nil_iff {s : State} : s.cpuMoves = [] ↔ ∀ m ∈ s.agenda, ∀ x, m ≠ Move.cpu x := by
  simp only [State.cpuMoves, List.filter_eq_nil_iff, isCpuMove_iff, not_exists, ne_eq]

theorem programEnded_iff {s : State} :
    s.programEnded = true ↔ s.cpuFree ∧ (∀ m ∈ s.agenda, ∀ x, m ≠ Move.cpu x) ∧ s.resUse ≠ .unread := by
  simp only [State.programEnded, Bool.and_eq_true, cpuReady_iff, List.isEmpty_iff, cpuMoves_eq_nil_iff, decide_eq_true_eq,
    and_assoc]

/-- No internal DMA step is enabled. -/
theorem dmaIdle_iff {s : State} :
    s.dmaIdle = true ↔ ¬ (s.dmaomr.sr = true ∧ s.dmasr.rps = psFetching) ∧
      ¬ (s.dmaomr.st = true ∧ s.dmasr.tps = psFetching) ∧ ¬ (s.dmaomr.st = true ∧ s.dmasr.tps = psHolding) := by
  rw [← rxFetchEnabled_iff, ← txFetchEnabled_iff, ← txCloseEnabled_iff]
  simp [State.dmaIdle, and_assoc]

/-- RXDMA has no fetch to make when it is Stopped, waits for a frame or is suspended (R103, R201, R202). -/
theorem rx_idle_iff {started : Bool} {ps : BitVec 3} (h : ProcessStateOk started rpsSuspended ps) :
    ¬ (started = true ∧ ps = psFetching) ↔ ps = psStopped ∨ ps = psHolding ∨ ps = rpsSuspended := by
  cases started with
  | false =>
    obtain rfl : ps = psStopped := h
    decide
  | true => obtain rfl | rfl | rfl : ps = psFetching ∨ ps = psHolding ∨ ps = rpsSuspended := h <;> decide

/-- TXDMA has no fetch and no close to make when it is Stopped or suspended (R103, R211, R213). -/
theorem tx_idle_iff {started : Bool} {ps : BitVec 3} (h : ProcessStateOk started tpsSuspended ps) :
    ¬ (started = true ∧ ps = psFetching) ∧ ¬ (started = true ∧ ps = psHolding) ↔ ps = psStopped ∨ ps = tpsSuspended := by
  cases started with
  | false =>
    obtain rfl : ps = psStopped := h
    decide
  | true => obtain rfl | rfl | rfl : ps = psFetching ∨ ps = psHolding ∨ ps = tpsSuspended := h <;> decide

/-- Settles O43: the parts of `programEnded`, and the process states in which no internal step is enabled. -/
theorem quiescentProcessStates : Obligations.QuiescentProcessStates := by
  intro s hps
  obtain ⟨hrx, htx⟩ := (processOk_iff s).1 hps
  refine ⟨programEnded_iff, ?_⟩
  rw [State.quiescent, Bool.and_eq_true, dmaIdle_iff, rx_idle_iff hrx, tx_idle_iff htx]
  rfl

end Sys2Proof.Machine
end
